-- ==== Sys2Proof/Word.lean ====
section
/-! DEFINITION. The word types of the core (spec/00_scope.md R5, R6, R13; spec/20_memory.md R60). -/

namespace Sys2Proof

/-- R5: "Limb" means an unsigned 32-bit word. Also the width of a bus word and of a command word. -/
abbrev Limb := BitVec 32

/-- R5: the content of a field register or of a table entry, 256 bits; it carries no domain tag (R31). -/
abbrev Felt := BitVec 256

/-- A byte of the bus's address space. -/
abbrev Byte := BitVec 8

/-- R60: the bus target port's 18-bit byte address, an offset from the core's base address. -/
abbrev BusAddr := BitVec 18

/-- R91: a register index, 0 to 15, naming F0 to F15. -/
abbrev Reg := Fin 16

end Sys2Proof
end

