-- ==== Sys2Proof/Syntax.lean ====
section
/-! DEFINITION. The commands of the core as syntax: one constructor per row of spec/opcode_table.json
(spec/30_encoding.md R93). -/

namespace Sys2Proof

/-- The constants LDK loads (spec/46_control.md R292); the order is that of the W field, 0 to 7. -/
inductive Konst where
  | zero | one | r1 | r2 | r3 | p | q | half
  deriving DecidableEq, Repr

/-- The D bit (R90, R229): the domain of a permutation command's operands. -/
inductive Domain where
  | canonical
  | montgomery
  deriving DecidableEq, Repr

/-- The S bit (R90, R260): the Poseidon2 parameter set. -/
inductive P2Set where
  | old
  | new
  deriving DecidableEq, Repr

/-- A command. `rd`, `ra`, `rb` are the register indices of R91; `ci` is the CI bit; `w` is the 3-bit immediate W of
R92 (state width or number of inputs). Which values of the operands are legal is `Instr.wellFormed` (R95). -/
inductive Instr where
  -- 46_control.md
  | nop
  | mov (rd ra : Reg)
  | ldk (rd : Reg) (k : Konst)
  -- 40_limb_vector.md
  | addc (rd ra rb : Reg) (ci : Bool)
  | subb (rd ra rb : Reg) (ci : Bool)
  | cmp (ra rb : Reg)
  | mulw (rd ra rb : Reg)
  -- 41_montgomery.md, the raw reduction
  | redc (rd ra rb : Reg)
  -- 42_modular_addsub.md
  | fchk (ra : Reg)
  | fadd (rd ra rb : Reg)
  | fsub (rd ra rb : Reg)
  | fneg (rd ra : Reg)
  | fhalf (rd ra : Reg)
  -- 41_montgomery.md
  | mmul (rd ra rb : Reg)
  | msqr (rd ra : Reg)
  | tomont (rd ra : Reg)
  | frommont (rd ra : Reg)
  | fmul (rd ra rb : Reg)
  | fsqr (rd ra : Reg)
  -- 43_inverse.md
  | finv (rd ra : Reg)
  | fdiv (rd ra rb : Reg)
  | minv (rd ra : Reg)
  -- 44_poseidon1.md
  | p1perm (rd ra : Reg) (w : Fin 8) (d : Domain)
  | p1comp (rd ra : Reg) (w : Fin 8) (d : Domain)
  -- 45_poseidon2.md
  | p2perm (rd ra : Reg) (w : Fin 8) (d : Domain) (set : P2Set)
  -- 46_control.md
  | tlock
  deriving DecidableEq, Repr

end Sys2Proof
end

