-- ==== Sys2Proof/WellFormed.lean ====
section
/-! DEFINITION. The value constraints of spec/30_encoding.md R95, checked on a command as syntax. A word whose
command fails one is ILLEGAL (R94 d). -/

namespace Sys2Proof

/-- R91, R95: the range "F`r` of length `len`" stays inside F0 .. F15; it does not wrap. -/
def rangeFits (r : Reg) (len : Fin 8) : Bool := decide (r.val + len.val - 1 ≤ 15)

/-- R95, one arm per row of the constraint table; every other command has none. -/
def Instr.wellFormed : Instr → Bool
  | .mulw rd _ _ => decide (rd.val ≤ 14)
  | .p1perm rd ra w _ => decide (2 ≤ w.val) && decide (w.val ≤ 5) && rangeFits ra w && rangeFits rd w
  | .p1comp _ ra w _ => decide (1 ≤ w.val) && decide (w.val ≤ 4) && rangeFits ra w
  | .p2perm rd ra w _ _ => decide (2 ≤ w.val) && decide (w.val ≤ 4) && rangeFits ra w && rangeFits rd w
  | .nop | .mov _ _ | .ldk _ _ | .addc _ _ _ _ | .subb _ _ _ _ | .cmp _ _ | .redc _ _ _ | .fchk _ | .fadd _ _ _
  | .fsub _ _ _ | .fneg _ _ | .fhalf _ _ | .mmul _ _ _ | .msqr _ _ | .tomont _ _ | .frommont _ _ | .fmul _ _ _
  | .fsqr _ _ | .finv _ _ | .fdiv _ _ _ | .minv _ _ | .tlock => true

end Sys2Proof
end

