-- ==== Sys2Proof/Decode.lean ====
section
/-! DEFINITION. The command encoding (spec/30_encoding.md): the opcode map, the decoder, total on every 32-bit word
and rejecting by name, and the encoder written from the same map. -/

namespace Sys2Proof

/-- R94: why a word is ILLEGAL, one constructor per clause. -/
inductive DecodeError where
  /-- R94 (a): OP is unassigned. -/
  | unassignedOpcode
  /-- R94 (b): a bit of RSV (31:26) is 1. -/
  | reservedBits
  /-- R94 (c): a field the opcode does not use is nonzero. -/
  | unusedField
  /-- R94 (d): a value constraint of R95 fails. -/
  | valueConstraint
  deriving DecidableEq, Repr

/-! ### The fields of a command word (R90) -/

/-- R90: OP, bits 7:0. -/
def opField (w : Limb) : BitVec 8 := w.extractLsb' 0 8
/-- R90: RD, bits 11:8. -/
def rdField (w : Limb) : Reg := (w.extractLsb' 8 4).toFin
/-- R90: RA, bits 15:12. -/
def raField (w : Limb) : Reg := (w.extractLsb' 12 4).toFin
/-- R90: RB, bits 19:16. -/
def rbField (w : Limb) : Reg := (w.extractLsb' 16 4).toFin
/-- R90, R92: W, bits 22:20, unsigned. -/
def wField (w : Limb) : Fin 8 := (w.extractLsb' 20 3).toFin
/-- R90: D, bit 23. -/
def dField (w : Limb) : Domain := if w.getLsbD 23 then .montgomery else .canonical
/-- R90: S, bit 24. -/
def sField (w : Limb) : P2Set := if w.getLsbD 24 then .new else .old
/-- R90: CI, bit 25. -/
def ciField (w : Limb) : Bool := w.getLsbD 25
/-- R90: RSV, bits 31:26. -/
def rsvField (w : Limb) : BitVec 6 := w.extractLsb' 26 6

/-- R292: the constant a value of W selects. -/
def konstOfW (w : Fin 8) : Konst :=
  match w with
  | 0 => .zero | 1 => .one | 2 => .r1 | 3 => .r2 | 4 => .r3 | 5 => .p | 6 => .q | 7 => .half

/-- R292: the value of W that selects a constant. -/
def wOfKonst : Konst → Fin 8
  | .zero => 0 | .one => 1 | .r1 => 2 | .r2 => 3 | .r3 => 4 | .p => 5 | .q => 6 | .half => 7

/-! ### The opcode map (R93) -/

/-- A row of R93. `build` reads the row's fields from a word. -/
structure OpRow where
  op    : BitVec 8
  mtch  : Limb
  mask  : Limb
  build : Limb → Instr

/-- R93, row by row. -/
def opRows : List OpRow :=
  [ ⟨0x00, 0x00000000, 0xFFFFFFFF, fun _ => .nop⟩,
    ⟨0x01, 0x00000001, 0xFFFF00FF, fun w => .mov (rdField w) (raField w)⟩,
    ⟨0x02, 0x00000002, 0xFF8FF0FF, fun w => .ldk (rdField w) (konstOfW (wField w))⟩,
    ⟨0x03, 0x00000003, 0xFDF000FF, fun w => .addc (rdField w) (raField w) (rbField w) (ciField w)⟩,
    ⟨0x04, 0x00000004, 0xFDF000FF, fun w => .subb (rdField w) (raField w) (rbField w) (ciField w)⟩,
    ⟨0x05, 0x00000005, 0xFFF00FFF, fun w => .cmp (raField w) (rbField w)⟩,
    ⟨0x06, 0x00000006, 0xFFF000FF, fun w => .mulw (rdField w) (raField w) (rbField w)⟩,
    ⟨0x07, 0x00000007, 0xFFF000FF, fun w => .redc (rdField w) (raField w) (rbField w)⟩,
    ⟨0x10, 0x00000010, 0xFFFF0FFF, fun w => .fchk (raField w)⟩,
    ⟨0x11, 0x00000011, 0xFFF000FF, fun w => .fadd (rdField w) (raField w) (rbField w)⟩,
    ⟨0x12, 0x00000012, 0xFFF000FF, fun w => .fsub (rdField w) (raField w) (rbField w)⟩,
    ⟨0x13, 0x00000013, 0xFFFF00FF, fun w => .fneg (rdField w) (raField w)⟩,
    ⟨0x14, 0x00000014, 0xFFFF00FF, fun w => .fhalf (rdField w) (raField w)⟩ ] ++
  [ ⟨0x18, 0x00000018, 0xFFF000FF, fun w => .mmul (rdField w) (raField w) (rbField w)⟩,
    ⟨0x19, 0x00000019, 0xFFFF00FF, fun w => .msqr (rdField w) (raField w)⟩,
    ⟨0x1A, 0x0000001A, 0xFFFF00FF, fun w => .tomont (rdField w) (raField w)⟩,
    ⟨0x1B, 0x0000001B, 0xFFFF00FF, fun w => .frommont (rdField w) (raField w)⟩,
    ⟨0x1C, 0x0000001C, 0xFFF000FF, fun w => .fmul (rdField w) (raField w) (rbField w)⟩,
    ⟨0x1D, 0x0000001D, 0xFFFF00FF, fun w => .fsqr (rdField w) (raField w)⟩,
    ⟨0x20, 0x00000020, 0xFFFF00FF, fun w => .finv (rdField w) (raField w)⟩,
    ⟨0x21, 0x00000021, 0xFFF000FF, fun w => .fdiv (rdField w) (raField w) (rbField w)⟩,
    ⟨0x22, 0x00000022, 0xFFFF00FF, fun w => .minv (rdField w) (raField w)⟩,
    ⟨0x30, 0x00000030, 0xFF0F00FF, fun w => .p1perm (rdField w) (raField w) (wField w) (dField w)⟩,
    ⟨0x31, 0x00000031, 0xFF0F00FF, fun w => .p1comp (rdField w) (raField w) (wField w) (dField w)⟩,
    ⟨0x32, 0x00000032, 0xFE0F00FF, fun w => .p2perm (rdField w) (raField w) (wField w) (dField w) (sField w)⟩,
    ⟨0x3F, 0x0000003F, 0xFFFFFFFF, fun _ => .tlock⟩ ]

/-- R96: the row whose OP is `op`, if one is. -/
def findRow (op : BitVec 8) : List OpRow → Option OpRow
  | [] => none
  | row :: rest => if row.op = op then some row else findRow op rest

/-- R96: the decode function, total on every 32-bit word; its four checks in the order R96 lists them. -/
def decode (w : Limb) : Except DecodeError Instr :=
  match findRow (opField w) opRows with
  | none => .error .unassignedOpcode
  | some row =>
    if rsvField w ≠ 0 then .error .reservedBits
    else if w &&& row.mask ≠ row.mtch then .error .unusedField
    else if (row.build w).wellFormed then .ok (row.build w)
    else .error .valueConstraint

/-! ### The encoder -/

/-- R90: w = OP | RD<<8 | RA<<12 | RB<<16 | W<<20 | D<<23 | S<<24 | CI<<25, RSV = 0. -/
def packWord (op : BitVec 8) (rd ra rb : Reg) (w : Fin 8) (d s ci : Bool) : Limb :=
  0#6 ++ BitVec.ofBool ci ++ BitVec.ofBool s ++ BitVec.ofBool d ++ BitVec.ofFin (w := 3) w ++ BitVec.ofFin (w := 4) rb
    ++ BitVec.ofFin (w := 4) ra ++ BitVec.ofFin (w := 4) rd ++ op

/-- R229: the D bit of a domain. -/
def Domain.bit : Domain → Bool
  | .canonical => false
  | .montgomery => true

/-- R260: the S bit of a parameter set. -/
def P2Set.bit : P2Set → Bool
  | .old => false
  | .new => true

/-- R90, R93: the command word of a command; every field its row does not use is 0 (R94 c). -/
def encode : Instr → Limb
  | .nop => packWord 0x00 0 0 0 0 false false false
  | .mov rd ra => packWord 0x01 rd ra 0 0 false false false
  | .ldk rd k => packWord 0x02 rd 0 0 (wOfKonst k) false false false
  | .addc rd ra rb ci => packWord 0x03 rd ra rb 0 false false ci
  | .subb rd ra rb ci => packWord 0x04 rd ra rb 0 false false ci
  | .cmp ra rb => packWord 0x05 0 ra rb 0 false false false
  | .mulw rd ra rb => packWord 0x06 rd ra rb 0 false false false
  | .redc rd ra rb => packWord 0x07 rd ra rb 0 false false false
  | .fchk ra => packWord 0x10 0 ra 0 0 false false false
  | .fadd rd ra rb => packWord 0x11 rd ra rb 0 false false false
  | .fsub rd ra rb => packWord 0x12 rd ra rb 0 false false false
  | .fneg rd ra => packWord 0x13 rd ra 0 0 false false false
  | .fhalf rd ra => packWord 0x14 rd ra 0 0 false false false
  | .mmul rd ra rb => packWord 0x18 rd ra rb 0 false false false
  | .msqr rd ra => packWord 0x19 rd ra 0 0 false false false
  | .tomont rd ra => packWord 0x1A rd ra 0 0 false false false
  | .frommont rd ra => packWord 0x1B rd ra 0 0 false false false
  | .fmul rd ra rb => packWord 0x1C rd ra rb 0 false false false
  | .fsqr rd ra => packWord 0x1D rd ra 0 0 false false false
  | .finv rd ra => packWord 0x20 rd ra 0 0 false false false
  | .fdiv rd ra rb => packWord 0x21 rd ra rb 0 false false false
  | .minv rd ra => packWord 0x22 rd ra 0 0 false false false
  | .p1perm rd ra w d => packWord 0x30 rd ra 0 w d.bit false false
  | .p1comp rd ra w d => packWord 0x31 rd ra 0 w d.bit false false
  | .p2perm rd ra w d set => packWord 0x32 rd ra 0 w d.bit set.bit false
  | .tlock => packWord 0x3F 0 0 0 0 false false false

/-- What the decoder reads from an instruction whose bits are `w`, of which `nbits` are given and the rest are 0. Every
command is one 32-bit word (R90, R97), so bits above 31 would be no part of it: such a number is no command. -/
def decodeTableWord (nbits w : Nat) : Option Instr :=
  let v := w % 2 ^ nbits
  if v < 2 ^ 32 then
    match decode (BitVec.ofNat 32 v) with
    | .ok i => some i
    | .error _ => none
  else none

end Sys2Proof
end

