-- ==== Sys2Proof/Config.lean ====
section
/-! DEFINITION. What is fixed for the machine: the field's constants (spec/00_scope.md R8, R9), the identification
words (spec/10_state.md R38), the sizes (R6), the kinds of the Poseidon2 parameters (R7), and the one free value of
the model, TABLE_RESET (spec/10_state.md R44). -/

namespace Sys2Proof.Config

/-- R8: the field prime. -/
def p : Nat := 0x30644e72e131a029b85045b68181585d2833e84879b9709143e1f593f0000001

/-- R8: the limbs of `p`, least significant first, as the spec lists them. -/
def pLimbs : List Limb :=
  [0xf0000001#32, 0x43e1f593#32, 0x79b97091#32, 0x2833e848#32, 0x8181585d#32, 0xb85045b6#32, 0xe131a029#32, 0x30644e72#32]

/-- R9: R1 = 2^256 mod p, the Montgomery form of 1. -/
def r1 : Felt := 0x0e0a77c19a07df2f666ea36f7879462e36fc76959f60cd29ac96341c4ffffffb#256

/-- R9: R2 = 2^512 mod p. -/
def r2 : Felt := 0x0216d0b17f4e44a58c49833d53bb808553fe3ab1e35c59e31bb8e645ae216da7#256

/-- R9: R3 = 2^768 mod p. -/
def r3 : Felt := 0x0cf8594b7fcc657c893cc664a19fcfed2a489cbe1cfbb6b85e94d8e1b4bf0040#256

/-- R9: the reduction constant q = -p⁻¹ mod 2^32. -/
def q : Limb := 0xefffffff#32

/-- R9: HALF = (p+1)/2. -/
def half : Felt := 0x183227397098d014dc2822db40c0ac2e9419f4243cdcb848a1f0fac9f8000001#256

/-- R41: the number of table entries. -/
def ntab : Nat := 2322

/-- R62: the bus offset of the TAB window. -/
def tabBase : Nat := 0x10000

/-- R62: the first bus offset past the TAB window (2322 entries of 32 bytes). -/
def tabEnd : Nat := 0x22240

/-- R38: what ID reads, the bytes "BN54". -/
def idWord : Limb := 0x424E3534#32

/-- R38: what VERSION reads, major 1 minor 0. -/
def versionWord : Limb := 0x00010000#32

/-- R44, R341: TABLE_RESET, the free value of the model. The byte at a bus offset of the table memory after the
`draw`-th reset, until something writes it: any value, under no law. It has no body, so no proof can see it. -/
opaque tableReset : (draw : Nat) → (address : Nat) → Byte

/-- R7, R264: the order of the S-box and the round-constant addition in Poseidon2 rounds (P2_ARK_ORDER). -/
inductive ArkOrder where
  | sboxThenAdd
  | addThenSbox
  deriving DecidableEq, Repr

/-- R7: the two parameters of the Poseidon2 datapath. A machine has one value of them, which no step changes
(`Machine.State.params`). R262: P2_ME is a fixed linear map for each width T, a T by T matrix of integers; row i holds the
coefficients of output i. -/
structure P2Params where
  /-- P2_ME for T = 2 (R262). -/
  me2 : Vector (Vector Nat 2) 2
  /-- P2_ME for T = 3. -/
  me3 : Vector (Vector Nat 3) 3
  /-- P2_ME for T = 4. -/
  me4 : Vector (Vector Nat 4) 4
  /-- P2_ARK_ORDER (R264). -/
  arkOrder : ArkOrder
  deriving DecidableEq, Repr

end Sys2Proof.Config
end

