-- ==== Sys2Proof/Machine/Limbs.lean ====
section
/-! DEFINITION. The limb datapath (spec/40_limb_vector.md R120, R121): the word primitives and the vector
sub-operations every family uses, on limb vectors, least significant limb first; and the passage between a 256-bit
register and its limbs (spec/00_scope.md R13). -/

namespace Sys2Proof.Machine

/-! ### Limb vectors and the integers they stand for (R13) -/

/-- R13: the first `n` limbs of an integer, `limb[0]` least significant. -/
def toLimbs : Nat → Nat → List Limb
  | 0, _ => []
  | n + 1, v => BitVec.ofNat 32 v :: toLimbs n (v / 2 ^ 32)

/-- R13: the value of a limb vector, the sum of limb_i · 2^(32i). -/
def limbsVal : List Limb → Nat
  | [] => 0
  | a :: as => a.toNat + 2 ^ 32 * limbsVal as

/-- R30: the eight limbs of a 256-bit value. -/
def limbs8 (v : Felt) : List Limb := toLimbs 8 v.toNat

/-- R30: the 256-bit value of (the low eight limbs of) a limb vector. -/
def ofLimbs (l : List Limb) : Felt := BitVec.ofNat 256 (limbsVal l)

/-- R13: limb_i of a 256-bit value. -/
def limb (i : Fin 8) (v : Felt) : Limb := v.extractLsb' (32 * i.val) 32

/-- `limb_i(v) <- w`, other limbs unchanged (R64). -/
def setLimb (i : Fin 8) (w : Limb) (v : Felt) : Felt :=
  (v &&& ~~~(0xffffffff#256 <<< (32 * i.val))) ||| (w.setWidth 256 <<< (32 * i.val))

/-! ### Word primitives (R120); a pair is (lo, hi) -/

/-- R120: add_with_carry(a, b, c) = ((a+b+c) mod 2^32, (a+b+c) ≥ 2^32). -/
def addWithCarry (a b : Limb) (c : Bool) : Limb × Bool :=
  let t := a.toNat + b.toNat + c.toNat
  (BitVec.ofNat 32 t, decide (2 ^ 32 ≤ t))

/-- R120: sub_with_borrow(a, b, bi) = ((a−b−bi) mod 2^32, a < b+bi). -/
def subWithBorrow (a b : Limb) (bi : Bool) : Limb × Bool :=
  (BitVec.ofNat 32 (a.toNat + 2 ^ 32 - (b.toNat + bi.toNat)), decide (a.toNat < b.toNat + bi.toNat))

/-- R120: mul_trunc(a, b) = (a·b) mod 2^32. -/
def mulTrunc (a b : Limb) : Limb := BitVec.ofNat 32 (a.toNat * b.toNat)

/-- The (lo, hi) pair of a 64-bit result hi·2^32 + lo (R120). -/
def loHi (t : Nat) : Limb × Limb := (BitVec.ofNat 32 t, BitVec.ofNat 32 (t / 2 ^ 32))

/-- R120: mul_widen(a, b), hi·2^32+lo = a·b. -/
def mulWiden (a b : Limb) : Limb × Limb := loHi (a.toNat * b.toNat)

/-- R120: mul_add_widen(a, b, c), hi·2^32+lo = a·b + c. -/
def mulAddWiden (a b c : Limb) : Limb × Limb := loHi (a.toNat * b.toNat + c.toNat)

/-- R120: mul_add_add_widen(a, b, c, d), hi·2^32+lo = a·b + c + d. -/
def mulAddAddWiden (a b c d : Limb) : Limb × Limb := loHi (a.toNat * b.toNat + c.toNat + d.toNat)

/-! ### Vector sub-operations (R121), rippling from the least significant limb -/

/-- R121 vadd: the sum limbs and the carry out. -/
def vadd : List Limb → List Limb → Bool → List Limb × Bool
  | a :: as, b :: bs, c =>
    let (s, c1) := addWithCarry a b c
    let (ss, cout) := vadd as bs c1
    (s :: ss, cout)
  | _, _, c => ([], c)

/-- R121 vsub: the difference limbs and the borrow out. -/
def vsub : List Limb → List Limb → Bool → List Limb × Bool
  | a :: as, b :: bs, c =>
    let (d, c1) := subWithBorrow a b c
    let (ds, bout) := vsub as bs c1
    (d :: ds, bout)
  | _, _, c => ([], c)

/-- R121 vcmp: limb-wise from the most significant limb down; the first limb that differs decides. -/
def vcmp : List Limb → List Limb → Ordering
  | a :: as, b :: bs =>
    match vcmp as bs with
    | .eq => compare a.toNat b.toNat
    | r => r
  | _, _ => .eq

/-- R121 scale, its loop from carry `c`: a·s + c, one limb longer than `a`. -/
def scaleFrom (c : Limb) (s : Limb) : List Limb → List Limb
  | [] => [c]
  | a :: as =>
    let (lo, hi) := mulAddWiden a s c
    lo :: scaleFrom hi s as

/-- R121: scale(a, s) = a·s exactly, N+1 limbs. -/
def scale (a : List Limb) (s : Limb) : List Limb := scaleFrom 0 s a

/-- R121 scale_add, its loop from carry `c`: acc + a·s + c, one limb longer. -/
def scaleAddFrom (c : Limb) : List Limb → List Limb → Limb → List Limb
  | w :: ws, a :: as, s =>
    let (lo, hi) := mulAddAddWiden a s w c
    lo :: scaleAddFrom hi ws as s
  | _, _, _ => [c]

/-- R121: scale_add(acc, a, s) = acc + a·s exactly, N+1 limbs. -/
def scaleAdd (acc a : List Limb) (s : Limb) : List Limb := scaleAddFrom 0 acc a s

/-- R121 multiply, its loop over the limbs of b with the sliding window `win`: one low limb out per iteration, then the
window. -/
def multiplyFrom (win a : List Limb) : List Limb → List Limb
  | [] => win
  | b :: bs =>
    match scaleAdd win a b with
    | [] => []
    | v0 :: rest => v0 :: multiplyFrom rest a bs

/-- R121: multiply(a, b) = a·b exactly, N+M limbs. -/
def multiply (a b : List Limb) : List Limb := multiplyFrom (a.map fun _ => 0) a b

/-- R121: square(a) = multiply(a, a). -/
def square (a : List Limb) : List Limb := multiply a a

/-! ### The same on 256-bit values -/

/-- R121 vadd on eight limbs. -/
def add256 (a b : Felt) (cin : Bool) : Felt × Bool :=
  let (s, c) := vadd (limbs8 a) (limbs8 b) cin
  (ofLimbs s, c)

/-- R121 vsub on eight limbs. -/
def sub256 (a b : Felt) (bin : Bool) : Felt × Bool :=
  let (d, c) := vsub (limbs8 a) (limbs8 b) bin
  (ofLimbs d, c)

/-- R121 vcmp on eight limbs. -/
def cmp256 (a b : Felt) : Ordering := vcmp (limbs8 a) (limbs8 b)

/-- R8: p as a 256-bit value. -/
def pFelt : Felt := BitVec.ofNat 256 Config.p

end Sys2Proof.Machine
end

