-- ==== Sys2Proof/Machine/Params.lean ====
section
/-! DEFINITION. The spec's default values of the two parameters of the Poseidon2 datapath (spec/00_scope.md R7). -/

namespace Sys2Proof.Machine

/-- R262, R264: the defaults of P2_ME and P2_ARK_ORDER. Row i of a matrix holds the coefficients of output i. -/
def p2Defaults : Config.P2Params where
  me2 := #v[#v[2, 1], #v[1, 2]]
  me3 := #v[#v[2, 1, 1], #v[1, 2, 1], #v[1, 1, 2]]
  me4 := #v[#v[5, 7, 1, 3], #v[4, 6, 1, 1], #v[1, 3, 5, 7], #v[1, 1, 4, 6]]
  arkOrder := .sboxThenAdd

end Sys2Proof.Machine
end

