-- ==== Sys2Proof/Machine/State.lean ====
section
/-! DEFINITION. The state of the core as plain data (spec/10_state.md), the moves of its surroundings
(spec/20_memory.md, spec/70_reset_and_hazards.md), the reasons a step can stop, and the state after reset. -/

namespace Sys2Proof.Machine

/-- Why the machine stops with a fault. -/
inductive Fault where
  /-- Raised by a datapath that meets an impossible-by-construction condition, code 5 INTERNAL (R310): a carry beyond
  limb 16 of the REDC accumulator (R151), or an inverter loop that outlives its bound (R201). R318: a model "must
  treat it as a fault, not as a result". Safe: the machine stops where a conforming core never comes. -/
  | internal
  deriving DecidableEq, Repr

/-- Why the model gives a step no meaning. -/
inductive Refusal where
  /-- Raised by `exec` for a command that has no meaning yet, under its mnemonic. Safe: nothing can be proved of it. -/
  | notModelled (mnemonic : String)
  /-- Raised by a host access while `rst_n = 0`: "the host has no move" (R340, R357; spec/93 U11). Safe: a claim says
  nothing of a run that does it. -/
  | accessInReset
  deriving DecidableEq, Repr

/-- R310: the conditions a command can raise; code 0 is "no error". -/
inductive CmdError where
  /-- Code 1: the command word is illegal (R94). -/
  | illegal
  /-- Code 2: a field operand, or at TLOCK a table entry, is `≥ p` (R180, R293). -/
  | range
  /-- Code 3: the operand to invert is 0 (R202 to R204). -/
  | divZero
  /-- Code 4: a permutation command while TLOCKED = 0 (R232). -/
  | noTable
  /-- Code 5: an impossible-by-construction condition (R318); never committed, it stops the machine with
  `Fault.internal`. -/
  | internal
  deriving DecidableEq, Repr

/-- R60: the response of a bus transaction. -/
inductive BusResp where
  | ok
  | err
  deriving DecidableEq, Repr

/-- R60: what the bus target port returns: a read gives data and a response, a write gives a response. -/
inductive BusAnswer where
  | read (data : Limb) (resp : BusResp)
  | write (resp : BusResp)
  deriving DecidableEq, Repr

/-- A move of the core's surroundings, or the engine's turn. The order of a list of them is the interleaving of host
and engine (R12, R70). `size` is the access's width in bytes; the core takes size 4 only (R61), and a write with only
some byte strobes set is an access of another size (R68). -/
inductive Event where
  /-- MemRead(addr, size), R61. -/
  | read (addr : BusAddr) (size : Nat)
  /-- MemWrite(addr, size, data), R61. -/
  | write (addr : BusAddr) (size : Nat) (data : Limb)
  /-- The engine's turn: *complete*, if a command is in flight (R316). -/
  | engine
  /-- `rst_n` goes to 0 and reset is taken (R340). -/
  | resetLow
  /-- `rst_n` returns to 1 (R340). -/
  | resetHigh
  deriving DecidableEq, Repr

/-- R33, R40: the operand snapshot taken at acceptance. -/
structure Snapshot where
  x : Vector Felt 16
  c : Bool
  deriving DecidableEq, Repr

/-- R41, R44, R66: the table memory, by bus offset. `cells` lists the bytes that differ from the reset draw
(`Config.tableReset draw`), at strictly rising offsets; `TableMem.wf` says so. `draw` counts the draws (R341). -/
structure TableMem where
  draw  : Nat
  cells : List Host.Cell
  deriving DecidableEq, Repr

/-- The state of the core. STATUS, CTRL, the register windows and `irq` are views of these fields
(`State.statusWord`, `State.ctrlWord`, `State.irq`), so each bit has one home. -/
structure State where
  /-- F0 to F15 (R30). -/
  x       : Vector Felt 16
  /-- STATUS.C (R35). -/
  c       : Bool
  /-- STATUS.LT (R35). -/
  lt      : Bool
  /-- STATUS.EQ (R35). -/
  eq      : Bool
  /-- STATUS.BUSY (R39). -/
  busy    : Bool
  /-- STATUS.DONE (R39). -/
  done    : Bool
  /-- STATUS.ESTICKY (R39). -/
  esticky : Bool
  /-- STATUS.OVERRUN (R39). -/
  overrun : Bool
  /-- STATUS.TLOCKED (R39). -/
  tlocked : Bool
  /-- STATUS.ERR (R39, R310). -/
  err     : BitVec 4
  /-- CTRL.IE (R37). -/
  ie      : Bool
  /-- CMDREG, the last accepted command word (R40). -/
  cmdReg  : Limb
  /-- The operand snapshot (R33, R40, R45). -/
  snap    : Snapshot
  /-- The table memory (R41). -/
  tab     : TableMem
  /-- P2_ME and P2_ARK_ORDER (R7), the configuration of the machine: every command runs at them, and no step changes
  them. DESIGN CHOICE (log entry 5): they are a field. -/
  params  : Config.P2Params
  /-- The `rst_n` input (R60, R340); true is 1. -/
  rstN    : Bool
  /-- What the bus port returned for the last access (R60). -/
  answer  : Option BusAnswer
  /-- The moves still to come, oldest first (R12, R70). -/
  events  : List Event
  deriving DecidableEq, Repr

/-- All sixteen registers 0 (R30). -/
def zeroRegs : Vector Felt 16 := Vector.replicate 16 0#256

/-- R47: the state right after reset. The table memory holds the draw TABLE_RESET (R44), so nothing is listed;
the parameters are the spec's defaults (R7, log
entry 5). DESIGN CHOICE (log entries 2, 3, 10, 13): the snapshot's idle contents, the number of the first draw, no bus answer yet, no
event to come. -/
def State.reset : State where
  x := zeroRegs
  c := false
  lt := false
  eq := false
  busy := false
  done := false
  esticky := false
  overrun := false
  tlocked := false
  err := 0#4
  ie := false
  cmdReg := 0#32
  snap := { x := zeroRegs, c := false }
  tab := { draw := 0, cells := [] }
  params := p2Defaults
  rstN := true
  answer := none
  events := []

end Sys2Proof.Machine
end

