-- ==== Sys2Proof/Machine/Ops.lean ====
section
/-! DEFINITION. The named operations over memory, registers and status: the table memory and its byte order
(spec/20_memory.md R64, R66), register access (R64, R65), the views of STATUS, CTRL and irq (spec/10_state.md R37, R39,
R46), acceptance (R40), completion with and without an error (spec/60_exceptions.md R313, R316), and reset
(spec/70_reset_and_hazards.md R340). -/

namespace Sys2Proof.Machine

/-! ### Byte order (R64): byte k of a value is its bits 8k+7 .. 8k -/

/-- R64: the `n` bytes of a value, byte 0 first. -/
def toBytes : Nat → Nat → List Byte
  | 0, _ => []
  | n + 1, v => BitVec.ofNat 8 v :: toBytes n (v / 2 ^ 8)

/-- R64: the value of bytes laid out least significant first. -/
def bytesVal : List Byte → Nat
  | [] => 0
  | b :: bs => b.toNat + 2 ^ 8 * bytesVal bs

/-- R65: bswap32(w) = w[7:0]·2^24 + w[15:8]·2^16 + w[23:16]·2^8 + w[31:24]. -/
def bswap32 (w : Limb) : Limb :=
  w.extractLsb' 0 8 ++ w.extractLsb' 8 8 ++ w.extractLsb' 16 8 ++ w.extractLsb' 24 8

/-! ### The table memory (R41 to R44, R66) -/

/-- The byte listed at an offset, if one is; the list is sorted, so the search stops early. -/
def lookupCell (a : Nat) : List Host.Cell → Option Byte
  | [] => none
  | (k, v) :: rest => if k = a then some v else if a < k then none else lookupCell a rest

/-- List a byte at an offset, in its place. -/
def insertCell (a : Nat) (b : Byte) : List Host.Cell → List Host.Cell
  | [] => [(a, b)]
  | (k, v) :: rest =>
    if k < a then (k, v) :: insertCell a b rest
    else if k = a then (a, b) :: rest
    else (a, b) :: (k, v) :: rest

/-- Take the byte at an offset off the list. -/
def eraseCell (a : Nat) : List Host.Cell → List Host.Cell
  | [] => []
  | (k, v) :: rest => if k = a then rest else (k, v) :: eraseCell a rest

/-- Every listed offset is above `a` and they rise strictly. -/
def risingFrom (a : Nat) : List Host.Cell → Bool
  | [] => true
  | (k, _) :: rest => decide (a < k) && risingFrom k rest

/-- The canonical form of the table memory: offsets rise strictly and lie in the TAB window (R62), and no listed byte
equals what its offset reads as unlisted. -/
def TableMem.wf (m : TableMem) : Bool :=
  risingFrom (Config.tabBase - 1) m.cells
    && m.cells.all (fun c => decide (c.1 < Config.tabEnd) && decide (c.2 ≠ Config.tableReset m.draw c.1))

/-- A byte of the table memory: the listed one, else the reset draw's (R44). -/
def TableMem.readByte (m : TableMem) (a : Nat) : Byte :=
  (lookupCell a m.cells).getD (Config.tableReset m.draw a)

/-- Write a byte of the table memory, keeping the canonical form. -/
def TableMem.writeByte (m : TableMem) (a : Nat) (b : Byte) : TableMem :=
  if b = Config.tableReset m.draw a then { m with cells := eraseCell a m.cells }
  else { m with cells := insertCell a b m.cells }

/-- The `n` bytes from offset `a`, in increasing address order. -/
def TableMem.readBytes (m : TableMem) (a : Nat) : Nat → List Byte
  | 0 => []
  | n + 1 => m.readByte a :: m.readBytes (a + 1) n

/-- Write bytes from offset `a` up. -/
def TableMem.writeBytes (m : TableMem) (a : Nat) : List Byte → TableMem
  | [] => m
  | b :: bs => (m.writeByte a b).writeBytes (a + 1) bs

/-- The table memory seen from offset `a` up: what lies lower is not listed (it is used for offsets from `a` only). -/
def TableMem.above (m : TableMem) (a : Nat) : TableMem :=
  { m with cells := m.cells.dropWhile fun c => decide (c.1 < a) }

/-- R66: the 32-bit word at offset `a`, little-endian lanes. -/
def TableMem.readWord (m : TableMem) (a : Nat) : Limb := BitVec.ofNat 32 (bytesVal (m.readBytes a 4))

/-- R66: store a 32-bit word at offset `a`, little-endian lanes. -/
def TableMem.writeWord (m : TableMem) (a : Nat) (w : Limb) : TableMem := m.writeBytes a (toBytes 4 w.toNat)

/-- R41: the bus offset of limb `i` of entry `e`: 0x10000 + 32·e + 4·i. -/
def tabOffset (e : Nat) (i : Fin 8) : Nat := Config.tabBase + 32 * e + 4 * i.val

/-- R14, R41: TAB[e], 256 bits. -/
def TableMem.entry (m : TableMem) (e : Nat) : Felt :=
  let a := Config.tabBase + 32 * e
  BitVec.ofNat 256 (bytesVal ((m.above a).readBytes a 32))

/-! ### Field registers -/

/-- R14: read `x[n]` of a register file; a range never leaves F0 .. F15 in a legal command (R95). -/
def regAt (x : Vector Felt 16) (n : Nat) : Felt := x[n]?.getD 0

/-- `x[n] <- v`. -/
def setReg (x : Vector Felt 16) (n : Nat) (v : Felt) : Vector Felt 16 := x.setIfInBounds n v

/-! ### Views (R37, R39, R46) -/

/-- A flag as a 32-bit number. -/
def bit32 (b : Bool) : Limb := (BitVec.ofBool b).setWidth 32

/-- R39: what a read of STATUS returns. -/
def State.statusWord (s : State) : Limb :=
  bit32 s.busy ||| bit32 s.done <<< 1 ||| bit32 s.c <<< 2 ||| bit32 s.lt <<< 3 ||| bit32 s.eq <<< 4
    ||| bit32 s.esticky <<< 5 ||| bit32 s.overrun <<< 6 ||| bit32 s.tlocked <<< 7 ||| s.err.setWidth 32 <<< 8

/-- R37: what a read of CTRL returns. -/
def State.ctrlWord (s : State) : Limb := bit32 s.ie

/-- R46, R320: irq = CTRL.IE ∧ STATUS.DONE. -/
def State.irq (s : State) : Bool := s.ie && s.done

/-! ### Acceptance (R40) -/

/-- R40: the core accepts the word `w`: CMDREG, BUSY, DONE and the operand snapshot. -/
def State.accept (s : State) (w : Limb) : State :=
  { s with cmdReg := w, busy := true, done := false, snap := { x := s.x, c := s.c } }

/-- R39, R40, R322: a CMD write while BUSY = 1 is dropped and recorded. -/
def State.setOverrun (s : State) : State := { s with overrun := true }

/-! ### Completion (R316) -/

/-- R14, R316: the results a command stages. `regs` lists register writes, `flagC` a new C, `flagCmp` new LT and EQ,
`lock` is TLOCK's lock. -/
structure Staged where
  regs    : List (Nat × Felt) := []
  flagC   : Option Bool := none
  flagCmp : Option (Bool × Bool) := none
  lock    : Bool := false
  deriving DecidableEq, Repr

/-- Stage one register write. -/
def stageReg (rd : Reg) (v : Felt) : Staged := { regs := [(rd.val, v)] }

/-- Number the register writes of a range from `rd` up. -/
def rangeWrites : Nat → List Felt → List (Nat × Felt)
  | _, [] => []
  | n, v :: vs => (n, v) :: rangeWrites (n + 1) vs

/-- Stage writes of x[RD], x[RD+1], … (R32). -/
def stageRange (rd : Reg) (vs : List Felt) : Staged := { regs := rangeWrites rd.val vs }

/-- Perform register writes in order. -/
def writeRegs (x : Vector Felt 16) : List (Nat × Felt) → Vector Felt 16
  | [] => x
  | (n, v) :: rest => writeRegs (setReg x n v) rest

/-- R316: commit the staged register writes, flag writes and the lock. -/
def State.commit (s : State) (st : Staged) : State :=
  { s with
    x := writeRegs s.x st.regs
    c := st.flagC.getD s.c
    lt := (st.flagCmp.map (·.1)).getD s.lt
    eq := (st.flagCmp.map (·.2)).getD s.eq
    tlocked := s.tlocked || st.lock }

/-- R310: the code of an error. -/
def CmdError.code : CmdError → BitVec 4
  | .illegal => 1
  | .range => 2
  | .divZero => 3
  | .noTable => 4
  | .internal => 5

/-- R316: a completion without error: ERR <- 0, DONE <- 1, BUSY <- 0. -/
def State.finishOk (s : State) : State := { s with err := 0, done := true, busy := false }

/-- R313, R316, R319: a completion with an error, the core's "trap entry": ERR <- e, ESTICKY <- 1, DONE <- 1, BUSY <- 0,
and nothing else. -/
def State.finishError (s : State) (e : CmdError) : State :=
  { s with err := e.code, esticky := true, done := true, busy := false }

/-- R316: the state after a command whose run gave `r`. -/
def State.settle (s : State) (r : Except CmdError Staged) : State :=
  match r with
  | .ok st => (s.commit st).finishOk
  | .error e => s.finishError e

/-- R316, R318: complete a command whose run gave `r`; a run that meets code 5 is a fault, not a result. -/
def complete (s : State) (r : Except CmdError Staged) : Host.Outcome State Fault Refusal :=
  match r with
  | .error .internal => .fault .internal
  | r => .next (s.settle r)

/-! ### Acknowledging a completion (R39, R319): the write-1-to-clear bits -/

/-- R39: a write to STATUS clears the W1C bits (DONE, ESTICKY, OVERRUN) whose data bit is 1 and nothing else. -/
def State.writeStatus (s : State) (w : Limb) : State :=
  { s with
    done := s.done && !w.getLsbD 1
    esticky := s.esticky && !w.getLsbD 5
    overrun := s.overrun && !w.getLsbD 6 }

/-- R37: a write to CTRL sets IE from bit 0; the rest is ignored. -/
def State.writeCtrl (s : State) (w : Limb) : State := { s with ie := w.getLsbD 0 }

/-! ### Reset (R340, R341) -/

/-- R340: reset is taken. Every piece of state gets its reset value (R47), a command in flight is abandoned, and the
table memory holds a new draw (R341). The machine's parameters (R7) and the moves still to come stay. -/
def State.takeReset (s : State) : State :=
  { State.reset with
    tab := { draw := s.tab.draw + 1, cells := [] }
    params := s.params
    rstN := false
    events := s.events }

/-- R340: `rst_n` returns to 1. -/
def State.releaseReset (s : State) : State := { s with rstN := true }

end Sys2Proof.Machine
end

