-- ==== Sys2Proof/Machine/Bus.lean ====
section
/-! DEFINITION. The bus target (spec/20_memory.md): the address map (R62, R63), reads and writes of the control
registers (spec/10_state.md R36 to R40), of the two register views (R64, R65) and of the table memory (R66), and the
access rules (R61, R67, R68). -/

namespace Sys2Proof.Machine

/-- R62: what an aligned offset names. -/
inductive Target where
  | id
  | version
  | ctrl
  | status
  | cmd
  /-- limb `i` of register `r` in the little-endian view (R64) -/
  | regLE (r : Reg) (i : Fin 8)
  /-- word `j` of register `r` in the big-endian view (R65) -/
  | regBE (r : Reg) (j : Fin 8)
  /-- limb `i` of table entry `e` (R66) -/
  | tab (e : Nat) (i : Fin 8)
  /-- a reserved offset (R63) -/
  | reserved
  deriving DecidableEq, Repr

/-- The register whose 32-byte slot, of a window of 16 slots, holds byte `o` of the window. -/
def slotReg (o : Nat) : Reg := Fin.ofNat 16 (o / 32)

/-- The word, of a 32-byte slot, that holds byte `o`. -/
def slotWord (o : Nat) : Fin 8 := Fin.ofNat 8 (o / 4)

/-- R36, R62: the address map, on the offset of an aligned word. -/
def targetOf (a : Nat) : Target :=
  if a = 0x000 then .id
  else if a = 0x004 then .version
  else if a = 0x008 then .ctrl
  else if a = 0x00C then .status
  else if a = 0x010 then .cmd
  else if 0x01000 ≤ a ∧ a < 0x01200 then .regLE (slotReg (a - 0x01000)) (slotWord (a - 0x01000))
  else if 0x01400 ≤ a ∧ a < 0x01600 then .regBE (slotReg (a - 0x01400)) (slotWord (a - 0x01400))
  else if Config.tabBase ≤ a ∧ a < Config.tabEnd then
    .tab ((a - Config.tabBase) / 32) (slotWord (a - Config.tabBase))
  else .reserved

/-- R61, R68: the core takes aligned 32-bit accesses only. -/
def accessOk (addr : BusAddr) (size : Nat) : Bool := decide (size = 4) && decide (addr.toNat % 4 = 0)

/-- R65: limb 7−j. -/
def mirror (j : Fin 8) : Fin 8 := Fin.ofNat 8 (7 - j.val)

/-- R36 to R40, R63 to R67: what an aligned 32-bit read of a target returns. -/
def State.readTarget (s : State) : Target → Limb × BusResp
  | .id => (Config.idWord, .ok)
  | .version => (Config.versionWord, .ok)
  | .ctrl => (s.ctrlWord, .ok)
  | .status => (s.statusWord, .ok)
  | .cmd => (s.cmdReg, .ok)
  | .regLE r i => (limb i (regAt s.x r.val), .ok)
  | .regBE r j => (bswap32 (limb (mirror j) (regAt s.x r.val)), .ok)
  | .tab e i => (s.tab.readWord (tabOffset e i), .ok)
  | .reserved => (0, .err)

/-- R64: `limb_i(x[r]) <- w`. -/
def State.writeLimb (s : State) (r : Reg) (i : Fin 8) (w : Limb) : State :=
  { s with x := setReg s.x r.val (setLimb i w (regAt s.x r.val)) }

/-- R36 to R40, R63 to R67: the effect and the response of an aligned 32-bit write of a target. -/
def State.writeTarget (s : State) (w : Limb) : Target → State × BusResp
  | .id => (s, .ok)
  | .version => (s, .ok)
  | .ctrl => (s.writeCtrl w, .ok)
  | .status => (s.writeStatus w, .ok)
  | .cmd => if s.busy then (s.setOverrun, .ok) else (s.accept w, .ok)
  | .regLE r i => if s.busy then (s, .err) else (s.writeLimb r i w, .ok)
  | .regBE r j => if s.busy then (s, .err) else (s.writeLimb r (mirror j) (bswap32 w), .ok)
  | .tab e i =>
    if s.tlocked || s.busy then (s, .err)
    else ({ s with tab := s.tab.writeWord (tabOffset e i) w }, .ok)
  | .reserved => (s, .err)

/-- Put the bus port's answer where the host sees it (R60). -/
def State.reply (s : State) (a : BusAnswer) : State := { s with answer := some a }

/-- R61: MemRead(addr, size). -/
def State.busRead (s : State) (addr : BusAddr) (size : Nat) : State :=
  if accessOk addr size then
    let (d, r) := s.readTarget (targetOf addr.toNat)
    s.reply (.read d r)
  else s.reply (.read 0 .err)

/-- R61: MemWrite(addr, size, data). -/
def State.busWrite (s : State) (addr : BusAddr) (size : Nat) (data : Limb) : State :=
  if accessOk addr size then
    let (s', r) := s.writeTarget data (targetOf addr.toNat)
    s'.reply (.write r)
  else s.reply (.write .err)

end Sys2Proof.Machine
end

