-- ==== Sys2Proof/Machine/FieldOps.lean ====
section
/-! DEFINITION. The field datapaths the command families share: the REDC pipeline (spec/41_montgomery.md R151), the
modular add, subtract and halving datapaths (spec/42_modular_addsub.md R182, R184, R187), the inverter
(spec/43_inverse.md R200), and the domain conversions (spec/44_poseidon1.md R229). -/

namespace Sys2Proof.Machine

/-! ### The REDC pipeline (R151) -/

/-- R151, the carry propagation of one iteration, from limb i+8 up: the word carry of the last multiply enters the first
limb, a carry bit runs on; the bit that leaves the top limb is returned. Log entry 6: R120 types add_with_carry's
third argument as a bit, so the word carry enters as the second operand. -/
def propagateCarry (carry : Limb) : List Limb → List Limb × Bool
  | [] => ([], decide (carry ≠ 0))
  | a :: as =>
    let (s, c) := addWithCarry a carry false
    let (ss, cout) := ripple c as
    (s :: ss, cout)
where
  /-- `(A[k], c) <- add_with_carry(A[k], 0, c)` for the limbs left. -/
  ripple (c : Bool) : List Limb → List Limb × Bool
    | [] => ([], c)
    | a :: as =>
      let (s, c1) := addWithCarry a 0 c
      let (ss, cout) := ripple c1 as
      (s :: ss, cout)

/-- R151, one iteration's row: add m·p into the accumulator from limb i up, then propagate the carry; returns the
limbs from i up and the carry beyond the top limb. -/
def addRow (m : Limb) (carry : Limb) : List Limb → List Limb → List Limb × Bool
  | pk :: ps, a :: as =>
    let (lo, hi) := mulAddAddWiden m pk a carry
    let (rest, cout) := addRow m hi ps as
    (lo :: rest, cout)
  | _, as => propagateCarry carry as

/-- R151, the iterations left: `acc` is the accumulator from limb i up. After an iteration limb i is 0 and no later
iteration reads it, so the next one starts at limb i+1. What is left after the last is A[8..16]. -/
def redcLoop : Nat → List Limb → Except CmdError (List Limb)
  | 0, acc => .ok acc
  | n + 1, acc =>
    match acc with
    | [] => .error .internal
    | a :: _ =>
      let (row, cout) := addRow (mulTrunc a Config.q) 0 Config.pLimbs acc
      if cout then .error .internal else redcLoop n row.tail

/-- R151: the final subtraction on the 9-limb top, "if it is ≥ p, subtract p once"; limbs 0 to 7 of the result. -/
def redcFinal (t : List Limb) : List Limb :=
  let p9 := Config.pLimbs ++ [0]
  if vcmp t p9 ≠ .lt then (vsub t p9 false).1.take 8 else t.take 8

/-- R151: redc_pipeline on the 16 limbs of T, in the 17-limb accumulator. -/
def redcLimbs (t : List Limb) : Except CmdError Felt := do
  let top ← redcLoop 8 (t ++ [0])
  return ofLimbs (redcFinal top)

/-- R151, R153: redc_pipeline(cat(hi, lo)). -/
def redcPipeline (lo hi : Felt) : Except CmdError Felt := redcLimbs (limbs8 lo ++ limbs8 hi)

/-- R154: redc_pipeline(multiply(a, b)). -/
def mmulPath (a b : Felt) : Except CmdError Felt := redcLimbs (multiply (limbs8 a) (limbs8 b))

/-- R155: redc_pipeline(square(a)). -/
def msqrPath (a : Felt) : Except CmdError Felt := redcLimbs (square (limbs8 a))

/-- R156, R229: tomont(a) = redc_pipeline(multiply(a, R2)). -/
def tomontPath (a : Felt) : Except CmdError Felt := mmulPath a Config.r2

/-- R157, R229: frommont(a) = redc_pipeline(zext_512(a)). -/
def frommontPath (a : Felt) : Except CmdError Felt := redcPipeline a 0

/-- R158: the canonical product, two reductions. -/
def fmulPath (a b : Felt) : Except CmdError Felt := do
  let t ← mmulPath a b
  mmulPath t Config.r2

/-- R159: the canonical square, two reductions. -/
def fsqrPath (a : Felt) : Except CmdError Felt := do
  let t ← msqrPath a
  mmulPath t Config.r2

/-! ### Modular add, subtract, negate, halve (42_modular_addsub.md) -/

/-- R182: the modular-add datapath. -/
def modadd (a b : Felt) : Felt :=
  let (s, c) := add256 a b false
  if c = true ∨ cmp256 s pFelt ≠ .lt then (sub256 s pFelt false).1 else s

/-- R184: the modular-subtract datapath. -/
def modsub (a b : Felt) : Felt :=
  let (d, bo) := sub256 a b false
  if bo then (add256 d pFelt false).1 else d

/-- R186: `(a = 0) ? 0 : vsub(p, a, 0).diff`. -/
def modneg (a : Felt) : Felt := if a = 0 then 0 else (sub256 pFelt a false).1

/-- R187: the field-halving datapath. -/
def modhalf (a : Felt) : Felt :=
  let h := a >>> 1
  if a.getLsbD 0 then (add256 h Config.half false).1 else h

/-! ### The inverter (R200) -/

/-- R200, an inner loop: while `u` is even, `u <- u >> 1; x <- half(x)`. `fuel` bounds the halvings; a nonzero 256-bit
`u` is odd after fewer than 256. -/
def halveWhileEven : (fuel : Nat) → (u x : Felt) → Felt × Felt
  | 0, u, x => (u, x)
  | n + 1, u, x => if u.getLsbD 0 then (u, x) else halveWhileEven n (u >>> 1) (modhalf x)

/-- R200, the outer loop on the tracks (x, u) and (y, v). `fuel` bounds its passes (log entry 8): R201 bounds them by
508 and one, and a loop that outlives the bound is code 5 (R318). -/
def invLoop : (fuel : Nat) → (u v x y : Felt) → Except CmdError Felt
  | 0, _, _, _, _ => .error .internal
  | n + 1, u, v, x, y =>
    if u = 1 then .ok x
    else if v = 1 then .ok y
    else
      let (u, x) := halveWhileEven 256 u x
      let (v, y) := halveWhileEven 256 v y
      if cmp256 u v ≠ .lt then invLoop n (sub256 u v false).1 v (modsub x y) y
      else invLoop n u (sub256 v u false).1 x (modsub y x)

/-- The bound on the outer loop's passes: R201 gives at most 508 subtractions and a final one; twice that. -/
def invFuel : Nat := 1024

/-- R200: inverse(a), for canonical nonzero `a`: u = a, v = p, x = 1, y = 0. -/
def inversePath (a : Felt) : Except CmdError Felt := invLoop invFuel a pFelt 1 0

/-! ### Range check and domain conversion -/

/-- R10: canonical, `v < p`, as the datapath compares it (R180). -/
def isCanonical (v : Felt) : Bool := decide (cmp256 v pFelt = .lt)

/-- R180: range_check(v1, …, vn). -/
def rangeCheck : List Felt → Except CmdError Unit
  | [] => .ok ()
  | v :: vs => if isCanonical v then rangeCheck vs else .error .range

/-- R229: a permutation operand enters as a Montgomery representative. -/
def enterDomain (d : Domain) (v : Felt) : Except CmdError Felt :=
  match d with
  | .canonical => tomontPath v
  | .montgomery => .ok v

/-- R229: a permutation result leaves in the operands' domain. -/
def leaveDomain (d : Domain) (v : Felt) : Except CmdError Felt :=
  match d with
  | .canonical => frommontPath v
  | .montgomery => .ok v

end Sys2Proof.Machine
end

