-- ==== Sys2Proof/Machine/Operands.lean ====
section
/-! DEFINITION. Every operand form of the commands: a register operand and a register range, read from the snapshot
(spec/10_state.md R14, R33; spec/30_encoding.md R91), the immediate W as a constant (spec/46_control.md R292) or a
width (R92), the carry-in (spec/40_limb_vector.md R122, R123), and the legality of operand values (R95). -/

namespace Sys2Proof.Machine

/-- R14, R33: `x[r]` inside a command: the value the register held when the command was accepted. -/
def State.operand (s : State) (r : Reg) : Felt := regAt s.snap.x r.val

/-- The registers `n, n+1, …` of a register file, `len` of them. -/
def rangeRegs (x : Vector Felt 16) (n : Nat) : (len : Nat) → List Felt
  | 0 => []
  | len + 1 => regAt x n :: rangeRegs x (n + 1) len

/-- R91: the range operand `x[r], …, x[r+len−1]` of the snapshot. -/
def State.operandRange (s : State) (r : Reg) (len : Nat) : List Felt := rangeRegs s.snap.x r.val len

/-- R122, R123: `(CI = 1) ? C : 0`, with the C of the snapshot (R353). -/
def State.carryIn (s : State) (ci : Bool) : Bool := if ci then s.snap.c else false

/-- R292: K[W]. -/
def konstValue : Konst → Felt
  | .zero => 0
  | .one => 1
  | .r1 => Config.r1
  | .r2 => Config.r2
  | .r3 => Config.r3
  | .p => pFelt
  | .q => Config.q.setWidth 256
  | .half => Config.half

/-- R94 (d), R95: a command whose operand values are not legal ends with ILLEGAL. -/
def requireLegal (i : Instr) : Except CmdError Unit := if i.wellFormed then .ok () else .error .illegal

/-- R232: the permutation commands run only when the tables are locked. -/
def State.requireTables (s : State) : Except CmdError Unit := if s.tlocked then .ok () else .error .noTable

end Sys2Proof.Machine
end

