-- ==== Sys2Proof/Machine/Control.lean ====
section
/-! DEFINITION. The control commands (spec/46_control.md): NOP, MOV, LDK, TLOCK. -/

namespace Sys2Proof.Machine

/-- R290: NOP has no effect; it completes like any other command. -/
def execNop (s : State) : Host.Outcome State Fault Refusal := complete s (.ok {})

/-- R291: MOV, x[RD] <- x[RA], unchecked. -/
def execMov (rd ra : Reg) (s : State) : Host.Outcome State Fault Refusal :=
  complete s (.ok (stageReg rd (s.operand ra)))

/-- R292: LDK, x[RD] <- K[W]. -/
def execLdk (rd : Reg) (k : Konst) (s : State) : Host.Outcome State Fault Refusal :=
  complete s (.ok (stageReg rd (konstValue k)))

/-- R293: every one of the 2322 table entries is canonical. -/
def TableMem.allCanonical (m : TableMem) : Bool := (List.range Config.ntab).all fun e => isCanonical (m.entry e)

/-- R293: TLOCK's run: no effect when locked; RANGE if an entry is `≥ p`; else the lock. -/
def tlockRun (s : State) : Except CmdError Staged :=
  if s.tlocked then .ok {}
  else if s.tab.allCanonical then .ok { lock := true }
  else .error .range

/-- R293: TLOCK. Its run meets no datapath condition (code 5), so it always settles. -/
def execTlock (s : State) : Host.Outcome State Fault Refusal := .next (s.settle (tlockRun s))

end Sys2Proof.Machine
end

