-- ==== Sys2Proof/Machine/Inverse.lean ====
section
/-! DEFINITION. The inverter commands (spec/43_inverse.md): FINV, FDIV, MINV. RANGE is checked before DIVZERO (R312). -/

namespace Sys2Proof.Machine

/-- R202 to R204: the zero check on the operand to invert. -/
def requireNonzero (v : Felt) : Except CmdError Unit := if v = 0 then .error .divZero else .ok ()

/-- R202: FINV. -/
def execFinv (rd ra : Reg) (s : State) : Host.Outcome State Fault Refusal :=
  complete s do
    rangeCheck [s.operand ra]
    requireNonzero (s.operand ra)
    let v ← inversePath (s.operand ra)
    return stageReg rd v

/-- R203: FDIV, RA by RB; the product is FMUL's datapath. -/
def execFdiv (rd ra rb : Reg) (s : State) : Host.Outcome State Fault Refusal :=
  complete s do
    rangeCheck [s.operand ra, s.operand rb]
    requireNonzero (s.operand rb)
    let t ← inversePath (s.operand rb)
    let v ← fmulPath (s.operand ra) t
    return stageReg rd v

/-- R204: MINV, redc_pipeline(multiply(inverse(X), R3)). -/
def execMinv (rd ra : Reg) (s : State) : Host.Outcome State Fault Refusal :=
  complete s do
    rangeCheck [s.operand ra]
    requireNonzero (s.operand ra)
    let t ← inversePath (s.operand ra)
    let v ← mmulPath t Config.r3
    return stageReg rd v

end Sys2Proof.Machine
end

