-- ==== Sys2Proof/Machine/Flags.lean ====
section
/-! DEFINITION. The flag computations (spec/10_state.md R35): C from the carry or borrow of ADDC and SUBB
(spec/40_limb_vector.md R122, R123), LT and EQ from CMP (R124). No other command writes a flag. -/

namespace Sys2Proof.Machine

/-- R122, R123: stage the result of a carrying operation: x[RD] and C. -/
def stageCarry (rd : Reg) (r : Felt × Bool) : Staged := { regs := [(rd.val, r.1)], flagC := some r.2 }

/-- R124: LT <- (r = LESS), EQ <- (r = EQUAL). -/
def stageCompare (r : Ordering) : Staged := { flagCmp := some (decide (r = .lt), decide (r = .eq)) }

end Sys2Proof.Machine
end

