-- ==== Sys2Proof/Machine/LimbVector.lean ====
section
/-! DEFINITION. The limb-vector commands (spec/40_limb_vector.md): ADDC, SUBB, CMP, MULW. They are raw: no range
check (R180). -/

namespace Sys2Proof.Machine

/-- R122: ADDC{.C}, x[RD] and C from the sum with carry. -/
def execAddc (rd ra rb : Reg) (ci : Bool) (s : State) : Host.Outcome State Fault Refusal :=
  complete s (.ok (stageCarry rd (add256 (s.operand ra) (s.operand rb) (s.carryIn ci))))

/-- R123: SUBB{.C}, x[RD] and C from the difference with borrow. -/
def execSubb (rd ra rb : Reg) (ci : Bool) (s : State) : Host.Outcome State Fault Refusal :=
  complete s (.ok (stageCarry rd (sub256 (s.operand ra) (s.operand rb) (s.carryIn ci))))

/-- R124: CMP, LT and EQ from the unsigned comparison. -/
def execCmp (ra rb : Reg) (s : State) : Host.Outcome State Fault Refusal :=
  complete s (.ok (stageCompare (cmp256 (s.operand ra) (s.operand rb))))

/-- R125: the two halves of the 512-bit product, low half first. -/
def mulHalves (a b : Felt) : List Felt :=
  let t := multiply (limbs8 a) (limbs8 b)
  [ofLimbs (t.take 8), ofLimbs (t.drop 8)]

/-- R125: MULW, x[RD] <- t[255:0], x[RD+1] <- t[511:256]; ILLEGAL when RD = 15 (R95). -/
def execMulw (rd ra rb : Reg) (s : State) : Host.Outcome State Fault Refusal :=
  complete s do
    requireLegal (.mulw rd ra rb)
    return stageRange rd (mulHalves (s.operand ra) (s.operand rb))

end Sys2Proof.Machine
end

