-- ==== Sys2Proof/Machine/ModAddSub.lean ====
section
/-! DEFINITION. The modular add/subtract commands (spec/42_modular_addsub.md): FCHK, FADD, FSUB, FNEG, FHALF. None
writes a flag; each serves both domains (R189). -/

namespace Sys2Proof.Machine

/-- R181: FCHK, the range check alone. -/
def execFchk (ra : Reg) (s : State) : Host.Outcome State Fault Refusal :=
  complete s do
    rangeCheck [s.operand ra]
    return {}

/-- R183: FADD. -/
def execFadd (rd ra rb : Reg) (s : State) : Host.Outcome State Fault Refusal :=
  complete s do
    rangeCheck [s.operand ra, s.operand rb]
    return stageReg rd (modadd (s.operand ra) (s.operand rb))

/-- R185: FSUB. -/
def execFsub (rd ra rb : Reg) (s : State) : Host.Outcome State Fault Refusal :=
  complete s do
    rangeCheck [s.operand ra, s.operand rb]
    return stageReg rd (modsub (s.operand ra) (s.operand rb))

/-- R186: FNEG. -/
def execFneg (rd ra : Reg) (s : State) : Host.Outcome State Fault Refusal :=
  complete s do
    rangeCheck [s.operand ra]
    return stageReg rd (modneg (s.operand ra))

/-- R188: FHALF. -/
def execFhalf (rd ra : Reg) (s : State) : Host.Outcome State Fault Refusal :=
  complete s do
    rangeCheck [s.operand ra]
    return stageReg rd (modhalf (s.operand ra))

end Sys2Proof.Machine
end

