-- ==== Sys2Proof/Machine/Montgomery.lean ====
section
/-! DEFINITION. The Montgomery family (spec/41_montgomery.md): REDC (raw), MMUL, MSQR, TOMONT, FROMMONT, FMUL, FSQR. -/

namespace Sys2Proof.Machine

/-- R153: REDC, raw reduction of T = cat(x[RB], x[RA]); no range check. -/
def execRedc (rd ra rb : Reg) (s : State) : Host.Outcome State Fault Refusal :=
  complete s do
    let v ← redcPipeline (s.operand ra) (s.operand rb)
    return stageReg rd v

/-- R154: MMUL. -/
def execMmul (rd ra rb : Reg) (s : State) : Host.Outcome State Fault Refusal :=
  complete s do
    rangeCheck [s.operand ra, s.operand rb]
    let v ← mmulPath (s.operand ra) (s.operand rb)
    return stageReg rd v

/-- R155: MSQR. -/
def execMsqr (rd ra : Reg) (s : State) : Host.Outcome State Fault Refusal :=
  complete s do
    rangeCheck [s.operand ra]
    let v ← msqrPath (s.operand ra)
    return stageReg rd v

/-- R156: TOMONT. -/
def execTomont (rd ra : Reg) (s : State) : Host.Outcome State Fault Refusal :=
  complete s do
    rangeCheck [s.operand ra]
    let v ← tomontPath (s.operand ra)
    return stageReg rd v

/-- R157: FROMMONT. -/
def execFrommont (rd ra : Reg) (s : State) : Host.Outcome State Fault Refusal :=
  complete s do
    rangeCheck [s.operand ra]
    let v ← frommontPath (s.operand ra)
    return stageReg rd v

/-- R158: FMUL. -/
def execFmul (rd ra rb : Reg) (s : State) : Host.Outcome State Fault Refusal :=
  complete s do
    rangeCheck [s.operand ra, s.operand rb]
    let v ← fmulPath (s.operand ra) (s.operand rb)
    return stageReg rd v

/-- R159: FSQR. -/
def execFsqr (rd ra : Reg) (s : State) : Host.Outcome State Fault Refusal :=
  complete s do
    rangeCheck [s.operand ra]
    let v ← fsqrPath (s.operand ra)
    return stageReg rd v

end Sys2Proof.Machine
end

