-- ==== Sys2Proof/Machine/TableLayout.lean ====
section
/-! DEFINITION. Where the constant tables lie in the table memory (spec/10_state.md R41) and the widths and round
counts of the permutations (spec/44_poseidon1.md R220, spec/45_poseidon2.md R260). -/

namespace Sys2Proof.Machine

/-- R220: the state widths of Poseidon v1. -/
inductive P1Width where
  | t2 | t3 | t4 | t5
  deriving DecidableEq, Repr

/-- R260: the state widths of Poseidon2. -/
inductive P2Width where
  | t2 | t3 | t4
  deriving DecidableEq, Repr

/-- R220: T. -/
def P1Width.t : P1Width → Nat
  | .t2 => 2 | .t3 => 3 | .t4 => 4 | .t5 => 5

/-- R220: NP(T). -/
def P1Width.np : P1Width → Nat
  | .t2 => 56 | .t3 => 57 | .t4 => 56 | .t5 => 60

/-- R260: T. -/
def P2Width.t : P2Width → Nat
  | .t2 => 2 | .t3 => 3 | .t4 => 4

/-- R95, R230: the width an immediate of P1PERM names. -/
def p1WidthOf : Nat → Option P1Width
  | 2 => some .t2 | 3 => some .t3 | 4 => some .t4 | 5 => some .t5
  | _ => none

/-- R95, R269: the width an immediate of P2PERM names. -/
def p2WidthOf : Nat → Option P2Width
  | 2 => some .t2 | 3 => some .t3 | 4 => some .t4
  | _ => none

/-- R41: base entry of the round constants C of Poseidon v1. -/
def P1Width.baseC : P1Width → Nat
  | .t2 => 0 | .t3 => 248 | .t4 => 632 | .t5 => 1144

/-- R41: base entry of the matrix M. -/
def P1Width.baseM : P1Width → Nat
  | .t2 => 72 | .t3 => 329 | .t4 => 720 | .t5 => 1244

/-- R41: base entry of the matrix P. -/
def P1Width.baseP : P1Width → Nat
  | .t2 => 76 | .t3 => 338 | .t4 => 736 | .t5 => 1269

/-- R41: base entry of the sparse coefficients S. -/
def P1Width.baseS : P1Width → Nat
  | .t2 => 80 | .t3 => 347 | .t4 => 752 | .t5 => 1294

/-- R41: base entry of the initial round constants RCI of Poseidon2. -/
def baseRCI : P2Set → P2Width → Nat
  | .old, .t2 => 1834 | .old, .t3 => 1906 | .old, .t4 => 1986
  | .new, .t2 => 2078 | .new, .t3 => 2150 | .new, .t4 => 2230

/-- R41: base entry of the internal round constants RCN. -/
def baseRCN : P2Set → P2Width → Nat
  | .old, .t2 => 1842 | .old, .t3 => 1918 | .old, .t4 => 2002
  | .new, .t2 => 2086 | .new, .t3 => 2162 | .new, .t4 => 2246

/-- R41: base entry of the final round constants RCF. -/
def baseRCF : P2Set → P2Width → Nat
  | .old, .t2 => 1898 | .old, .t3 => 1974 | .old, .t4 => 2058
  | .new, .t2 => 2142 | .new, .t3 => 2218 | .new, .t4 => 2302

/-- R41, R266: base entry of the T = 4 diagonal DIAG. -/
def baseDIAG : P2Set → Nat
  | .old => 2074 | .new => 2318

end Sys2Proof.Machine
end

