-- ==== Sys2Proof/Machine/PermOps.lean ====
section
/-! DEFINITION. The datapaths of the two permutation sequencers (spec/44_poseidon1.md R223 to R228,
spec/45_poseidon2.md R262 to R268). `tab` is the table memory's entries; a state is a list of Montgomery
representatives. Each permutation is the run of its sequencer over its schedule of phases and round counters
(R221, R261). -/

namespace Sys2Proof.Machine

/-- R223: the S-box datapath. -/
def sbox (a : Felt) : Except CmdError Felt := do
  let a2 ← msqrPath a
  let a4 ← msqrPath a2
  mmulPath a4 a

/-- R225, R227, R265: add the constants at entries `base, base+1, …` to the elements. -/
def addConsts (tab : Nat → Felt) (base : Nat) : List Felt → List Felt
  | [] => []
  | v :: vs => modadd v (tab base) :: addConsts tab (base + 1) vs

/-- R224, R226: `acc + Σ_j coef(j)·s[j]` over the elements from index `j` up. -/
def dotFrom (coef : Nat → Felt) (j : Nat) (acc : Felt) : List Felt → Except CmdError Felt
  | [] => .ok acc
  | v :: vs => do
    let m ← mmulPath (coef j) v
    dotFrom coef (j + 1) (modadd acc m) vs

/-- R224: mix(A, s) for the T×T array at entry `base`: out[i] = Σ_j A[j·T + i]·s[j]. -/
def mix (tab : Nat → Felt) (base T : Nat) (s : List Felt) : Except CmdError (List Felt) :=
  (List.range T).mapM fun i => dotFrom (fun j => tab (base + (j * T + i))) 0 0 s

/-! ### Poseidon v1 -/

/-- R221: the phases of the Poseidon v1 sequencer. -/
inductive P1Phase where
  | ark0 | fullA | partialRound | fullB
  deriving DecidableEq, Repr

/-- R225: initial constant addition. -/
def p1Ark0 (tab : Nat → Felt) (w : P1Width) (s : List Felt) : List Felt := addConsts tab w.baseC s

/-- R225: initial full round `r`. -/
def p1FullA (tab : Nat → Felt) (w : P1Width) (r : Nat) (s : List Felt) : Except CmdError (List Felt) := do
  let s ← s.mapM sbox
  let s := addConsts tab (w.baseC + ((r + 1) * w.t)) s
  mix tab (if r < 3 then w.baseM else w.baseP) w.t s

/-- R226: the elements 1 .. T−1 of the sparse layer, `S[e]·s0 + s_j`, from entry `e` up. -/
def sparseTail (tab : Nat → Felt) (s0 : Felt) (e : Nat) : List Felt → Except CmdError (List Felt)
  | [] => .ok []
  | v :: vs => do
    let m ← mmulPath (tab e) s0
    let rest ← sparseTail tab s0 (e + 1) vs
    return modadd m v :: rest

/-- R226: partial round `r`; element 0 alone passes the S-box. -/
def p1Partial (tab : Nat → Felt) (w : P1Width) (r : Nat) : List Felt → Except CmdError (List Felt)
  | [] => .ok []
  | v :: rest => do
    let y ← sbox v
    let s0 := modadd y (tab (w.baseC + (5 * w.t + r)))
    let b := w.baseS + (2 * w.t - 1) * r
    let t0 ← dotFrom (fun j => tab (b + j)) 0 0 (s0 :: rest)
    let rest' ← sparseTail tab s0 (b + w.t) rest
    return t0 :: rest'

/-- R227: final full round `r`; round 3 adds no constant. -/
def p1FullB (tab : Nat → Felt) (w : P1Width) (r : Nat) (s : List Felt) : Except CmdError (List Felt) := do
  let s ← s.mapM sbox
  let s := if r < 3 then addConsts tab (w.baseC + (5 * w.t + w.np + r * w.t)) s else s
  mix tab w.baseM w.t s

/-- R221, R228: one round of the sequencer, by its phase and round counter. -/
def p1Round (tab : Nat → Felt) (w : P1Width) (s : List Felt) : P1Phase × Nat → Except CmdError (List Felt)
  | (.ark0, _) => .ok (p1Ark0 tab w s)
  | (.fullA, r) => p1FullA tab w r s
  | (.partialRound, r) => p1Partial tab w r s
  | (.fullB, r) => p1FullB tab w r s

/-- R228: the phases and round counters of one permutation, in order. -/
def p1Schedule (w : P1Width) : List (P1Phase × Nat) :=
  (.ark0, 0) :: ((List.range 4).map fun r => (.fullA, r)) ++ ((List.range w.np).map fun r => (.partialRound, r))
    ++ ((List.range 4).map fun r => (.fullB, r))

/-- R228: perm1(T, s). -/
def perm1 (tab : Nat → Felt) (w : P1Width) (s : List Felt) : Except CmdError (List Felt) :=
  (p1Schedule w).foldlM (p1Round tab w) s

/-! ### Poseidon2 -/

/-- R261: the phases of the Poseidon2 sequencer. -/
inductive P2Phase where
  | mix0 | extA | intRound | extB
  deriving DecidableEq, Repr

/-- R262: multiplication by a small integer `k`, by `k − 1` chained modadds. -/
def smallMul : Nat → Felt → Felt
  | 0, _ => 0
  | 1, v => v
  | k + 2, v => modadd (smallMul (k + 1) v) v

/-- R262: `acc + Σ_j k_j·s[j]` for a row of integer coefficients. -/
def rowSum (acc : Felt) (ks : List Nat) (vs : List Felt) : Felt :=
  (ks.zip vs).foldl (fun a kv => modadd a (smallMul kv.1 kv.2)) acc

/-- R262: the rows of a matrix of coefficients. -/
def rowLists {n : Nat} (m : Vector (Vector Nat n) n) : List (List Nat) := m.toList.map Vector.toList

/-- R262: the rows of ME_T. -/
def meRows (prm : Config.P2Params) : P2Width → List (List Nat)
  | .t2 => rowLists prm.me2
  | .t3 => rowLists prm.me3
  | .t4 => rowLists prm.me4

/-- R262: the external linear layer ME_T. -/
def meLayer (prm : Config.P2Params) (w : P2Width) (s : List Felt) : List Felt :=
  (meRows prm w).map fun row => rowSum 0 row s

/-- R264, R265: S-box and constant on one element, in the configured order. -/
def sboxArk (order : Config.ArkOrder) (v rc : Felt) : Except CmdError Felt :=
  match order with
  | .sboxThenAdd => do
    let y ← sbox v
    return modadd y rc
  | .addThenSbox => sbox (modadd v rc)

/-- R265: S-box and constants on every element, constants from entry `e` up. -/
def sboxArkAll (order : Config.ArkOrder) (tab : Nat → Felt) (e : Nat) : List Felt → Except CmdError (List Felt)
  | [] => .ok []
  | v :: vs => do
    let y ← sboxArk order v (tab e)
    let rest ← sboxArkAll order tab (e + 1) vs
    return y :: rest

/-- R265: an external round with the constants from entry `e` up. -/
def p2Ext (prm : Config.P2Params) (tab : Nat → Felt) (w : P2Width) (e : Nat) (s : List Felt) :
    Except CmdError (List Felt) := do
  let s ← sboxArkAll prm.arkOrder tab e s
  return meLayer prm w s

/-- R266: diag_T[i]·v: an integer multiple for T = 2 and T = 3, a Montgomery product with a table entry for T = 4. -/
def diagMul (tab : Nat → Felt) (set : P2Set) (w : P2Width) (i : Nat) (v : Felt) : Except CmdError Felt :=
  match w with
  | .t2 => .ok (smallMul (if i = 1 then 2 else 1) v)
  | .t3 => .ok (smallMul (if i = 2 then 2 else 1) v)
  | .t4 => mmulPath (tab (baseDIAG set + i)) v

/-- R267: the internal linear layer's outputs from element `i` up: sum + diag_T[i]·s[i]. -/
def diagLayer (tab : Nat → Felt) (set : P2Set) (w : P2Width) (sum : Felt) (i : Nat) :
    List Felt → Except CmdError (List Felt)
  | [] => .ok []
  | v :: vs => do
    let m ← diagMul tab set w i v
    let rest ← diagLayer tab set w sum (i + 1) vs
    return modadd sum m :: rest

/-- R267: internal round `r`. -/
def p2Int (prm : Config.P2Params) (tab : Nat → Felt) (set : P2Set) (w : P2Width) (r : Nat) :
    List Felt → Except CmdError (List Felt)
  | [] => .ok []
  | v :: rest => do
    let s0 ← sboxArk prm.arkOrder v (tab (baseRCN set w + r))
    diagLayer tab set w (rest.foldl modadd s0) 0 (s0 :: rest)

/-- R261, R268: one round of the sequencer, by its phase and round counter. -/
def p2Round (prm : Config.P2Params) (tab : Nat → Felt) (set : P2Set) (w : P2Width) (s : List Felt) :
    P2Phase × Nat → Except CmdError (List Felt)
  | (.mix0, _) => .ok (meLayer prm w s)
  | (.extA, r) => p2Ext prm tab w (baseRCI set w + r * w.t) s
  | (.intRound, r) => p2Int prm tab set w r s
  | (.extB, r) => p2Ext prm tab w (baseRCF set w + r * w.t) s

/-- R268: the phases and round counters of one permutation, in order; the same for every set and width (R260). -/
def p2Schedule : List (P2Phase × Nat) :=
  (.mix0, 0) :: ((List.range 4).map fun r => (.extA, r)) ++ ((List.range 56).map fun r => (.intRound, r))
    ++ ((List.range 4).map fun r => (.extB, r))

/-- R268: perm2(σ, T, s). -/
def perm2 (prm : Config.P2Params) (tab : Nat → Felt) (set : P2Set) (w : P2Width) (s : List Felt) :
    Except CmdError (List Felt) :=
  p2Schedule.foldlM (p2Round prm tab set w) s

end Sys2Proof.Machine
end

