-- ==== Sys2Proof/Machine/Poseidon1.lean ====
section
/-! DEFINITION. The Poseidon v1 commands (spec/44_poseidon1.md): P1PERM, P1COMP. The checks come in the order ILLEGAL,
NOTABLE, RANGE (R312). -/

namespace Sys2Proof.Machine

/-- R95: the width a legal immediate names; any other is ILLEGAL. -/
def requireP1Width (n : Nat) : Except CmdError P1Width :=
  match p1WidthOf n with
  | some w => .ok w
  | none => .error .illegal

/-- R230: P1PERM{.M}. -/
def execP1perm (rd ra : Reg) (w : Fin 8) (d : Domain) (s : State) : Host.Outcome State Fault Refusal :=
  complete s do
    requireLegal (.p1perm rd ra w d)
    let width ← requireP1Width w.val
    s.requireTables
    let ins := s.operandRange ra width.t
    rangeCheck ins
    let st ← ins.mapM (enterDomain d)
    let st ← perm1 s.tab.entry width st
    let outs ← st.mapM (leaveDomain d)
    return stageRange rd outs

/-- R231: P1COMP{.M}: a zero element, then the k inputs, at width k+1; element 0 of the output. -/
def execP1comp (rd ra : Reg) (w : Fin 8) (d : Domain) (s : State) : Host.Outcome State Fault Refusal :=
  complete s do
    requireLegal (.p1comp rd ra w d)
    let width ← requireP1Width (w.val + 1)
    s.requireTables
    let ins := s.operandRange ra w.val
    rangeCheck ins
    let st ← ins.mapM (enterDomain d)
    let st ← perm1 s.tab.entry width (0 :: st)
    let out ← leaveDomain d (st.headD 0)
    return stageReg rd out

end Sys2Proof.Machine
end

