-- ==== Sys2Proof/Machine/Poseidon2.lean ====
section
/-! DEFINITION. The Poseidon2 command (spec/45_poseidon2.md): P2PERM. The checks come in the order ILLEGAL, NOTABLE,
RANGE (R312). -/

namespace Sys2Proof.Machine

/-- R95: the width a legal immediate names; any other is ILLEGAL. -/
def requireP2Width (n : Nat) : Except CmdError P2Width :=
  match p2WidthOf n with
  | some w => .ok w
  | none => .error .illegal

/-- R269: P2PERM.OLD{.M} and P2PERM.NEW{.M}, at the machine's parameters (R7). -/
def execP2perm (rd ra : Reg) (w : Fin 8) (d : Domain) (set : P2Set) (s : State) : Host.Outcome State Fault Refusal :=
  complete s do
    requireLegal (.p2perm rd ra w d set)
    let width ← requireP2Width w.val
    s.requireTables
    let ins := s.operandRange ra width.t
    rangeCheck ins
    let st ← ins.mapM (enterDomain d)
    let st ← perm2 s.params s.tab.entry set width st
    let outs ← st.mapM (leaveDomain d)
    return stageRange rd outs

end Sys2Proof.Machine
end

