-- ==== Sys2Proof/Machine/Dispatch.lean ====
section
/-! DEFINITION. `exec`: the completion of a command (spec/60_exceptions.md R316), one arm per command. -/

namespace Sys2Proof.Machine

-- R316: run the accepted command's rule on the snapshot and commit, or report its error.
def exec (i : Instr) (s : State) : Host.Outcome State Fault Refusal :=
  match i with
  | .nop => Sys2Proof.Machine.execNop s
  | .mov rd ra => Sys2Proof.Machine.execMov rd ra s
  | .ldk rd k => Sys2Proof.Machine.execLdk rd k s
  | .addc rd ra rb ci => Sys2Proof.Machine.execAddc rd ra rb ci s
  | .subb rd ra rb ci => Sys2Proof.Machine.execSubb rd ra rb ci s
  | .cmp ra rb => Sys2Proof.Machine.execCmp ra rb s
  | .mulw rd ra rb => Sys2Proof.Machine.execMulw rd ra rb s
  | .redc rd ra rb => Sys2Proof.Machine.execRedc rd ra rb s
  | .fchk ra => Sys2Proof.Machine.execFchk ra s
  | .fadd rd ra rb => Sys2Proof.Machine.execFadd rd ra rb s
  | .fsub rd ra rb => Sys2Proof.Machine.execFsub rd ra rb s
  | .fneg rd ra => Sys2Proof.Machine.execFneg rd ra s
  | .fhalf rd ra => Sys2Proof.Machine.execFhalf rd ra s
  | .mmul rd ra rb => Sys2Proof.Machine.execMmul rd ra rb s
  | .msqr rd ra => Sys2Proof.Machine.execMsqr rd ra s
  | .tomont rd ra => Sys2Proof.Machine.execTomont rd ra s
  | .frommont rd ra => Sys2Proof.Machine.execFrommont rd ra s
  | .fmul rd ra rb => Sys2Proof.Machine.execFmul rd ra rb s
  | .fsqr rd ra => Sys2Proof.Machine.execFsqr rd ra s
  | .finv rd ra => Sys2Proof.Machine.execFinv rd ra s
  | .fdiv rd ra rb => Sys2Proof.Machine.execFdiv rd ra rb s
  | .minv rd ra => Sys2Proof.Machine.execMinv rd ra s
  | .p1perm rd ra w d => Sys2Proof.Machine.execP1perm rd ra w d s
  | .p1comp rd ra w d => Sys2Proof.Machine.execP1comp rd ra w d s
  | .p2perm rd ra w d set => Sys2Proof.Machine.execP2perm rd ra w d set s
  | .tlock => Sys2Proof.Machine.execTlock s

end Sys2Proof.Machine
end

