-- ==== Sys2Proof/Machine/Engine.lean ====
section
/-! DEFINITION. The moves of the machine: the engine's *complete* (spec/60_exceptions.md R316), the host's accesses
(spec/20_memory.md R61) and the two edges of reset (spec/70_reset_and_hazards.md R340); and a command placed in flight. -/

namespace Sys2Proof.Machine

/-- R311, R316: complete the command in flight: decode CMDREG, and run the command or report ILLEGAL. -/
def completeInFlight (s : State) : Host.Outcome State Fault Refusal :=
  match decode s.cmdReg with
  | .ok i => exec i s
  | .error _ => .next (s.finishError .illegal)

/-- R316, R331, R340: the engine's turn. It completes when a command is in flight and the core is not held in reset;
otherwise no step of it is enabled and nothing changes. -/
def engineTurn (s : State) : Host.Outcome State Fault Refusal :=
  if s.rstN && s.busy then completeInFlight s else .next s

/-- R340, U11: a host access; the host has no move against a core held in reset. -/
def hostTurn (s : State) (after : State) : Host.Outcome State Fault Refusal :=
  if s.rstN then .next after else .refused .accessInReset

/-- One event, on the state whose event list no longer holds it. -/
def runEvent (e : Event) (s : State) : Host.Outcome State Fault Refusal :=
  match e with
  | .read addr size => hostTurn s (s.busRead addr size)
  | .write addr size data => hostTurn s (s.busWrite addr size data)
  | .engine => engineTurn s
  | .resetLow => .next (if s.rstN then s.takeReset else s)
  | .resetHigh => .next s.releaseReset

/-- The word of an instruction's `nbits` low bits, the bits above 0 (R90: one 32-bit word). -/
def tableWord (nbits w : Nat) : Limb := BitVec.ofNat 32 (w % 2 ^ nbits)

/-- The word accepted by an idle core out of reset (R40) whose engine has the next turn. -/
def State.placeCommand (s : State) (w : Limb) : State :=
  { (s.accept w) with rstN := true, events := .engine :: s.events }

end Sys2Proof.Machine
end

