-- ==== Sys2Proof/Machine/Step.lean ====
section
/-! DEFINITION. One step of the machine. -/

namespace Sys2Proof.Machine

/-- R12: one atomic step: the next move of `events`, oldest first; with none left, the engine's turn (R316: when BUSY
stays 1, complete is eventually taken). -/
def step (s : State) : Host.Outcome State Fault Refusal :=
  match s.events with
  | [] => engineTurn s
  | e :: rest => runEvent e { s with events := rest }

/-- The state in which the very next step completes the command word `w` (log entry 10): the word accepted as by a CMD
write (R40), out of reset, and the engine's turn next. -/
def State.withFetchWord (s : State) (nbits w : Nat) : State := s.placeCommand (tableWord nbits w)

end Sys2Proof.Machine
end

