-- ==== Sys2Proof/Machine/FieldForm.lean ====
section
/-! DEFINITION. The field-value forms of the datapaths, on integers modulo p: what a register value stands for
(spec/00_scope.md R10, spec/10_state.md R42), REDC as spec/41_montgomery.md R150 defines it, and the functions Perm1_T
(spec/44_poseidon1.md R228) and Perm2_{σ,T} (spec/45_poseidon2.md R268). The machine never calls them; the
statements about the datapaths are in their terms. -/

namespace Sys2Proof.Machine

/-- R10: canonical. -/
abbrev Canonical (v : Felt) : Prop := v.toNat < Config.p

/-- R150: `r` is REDC(T): M is the multiple in [0, R) with T + M·p ≡ 0 (mod R), t = (T + M·p)/R, and p is subtracted
once if t ≥ p. -/
def IsRedc (T r : Nat) : Prop :=
  ∃ M, M < 2 ^ 256 ∧ (T + M * Config.p) % 2 ^ 256 = 0 ∧
    r = if Config.p ≤ (T + M * Config.p) / 2 ^ 256 then (T + M * Config.p) / 2 ^ 256 - Config.p
        else (T + M * Config.p) / 2 ^ 256

/-- R⁻¹ mod p, R = 2^256 (spec/95_test_vectors.md, Notation; R150 with T = 1). -/
def rInv : Nat := 0x15ebf95182c5551cc8260de4aeb85d5d090ef5a9e111ec87dc5ba0056db1194e

/-- R10, R42: the field value a Montgomery representative stands for, val(E) = E·R⁻¹ mod p. -/
@[irreducible] def montVal (e : Nat) : Nat := e * rInv % Config.p

/-- R10, R229: the field value of a permutation operand in a domain. -/
def domainVal : Domain → Nat → Nat
  | .canonical, v => v % Config.p
  | .montgomery, v => montVal v

/-- R10: every element is canonical. -/
abbrev AllCanonical (l : List Felt) : Prop := ∀ v ∈ l, Canonical v

/-- R42, R293: every entry of the table memory is canonical. -/
abbrev TablesCanonical (tab : Nat → Felt) : Prop := ∀ e < Config.ntab, Canonical (tab e)

/-- R42: val(TAB[e]). -/
abbrev entryVal (tab : Nat → Felt) (e : Nat) : Nat := montVal (tab e).toNat

/-- The field values of a list of Montgomery representatives. -/
def montVals (l : List Felt) : List Nat := l.map fun v => montVal v.toNat

/-- R229: the field values of a list of permutation operands or results. -/
def domainVals (d : Domain) (l : List Felt) : List Nat := l.map fun v => domainVal d v.toNat

/-- R15: a +p b. -/
@[irreducible] def fAdd (a b : Nat) : Nat := (a + b) % Config.p
/-- R15: a ·p b. -/
@[irreducible] def fMul (a b : Nat) : Nat := a * b % Config.p
/-- R11, R223: x ↦ x^5. -/
@[irreducible] def fPow5 (a : Nat) : Nat := a ^ 5 % Config.p

/-- Constants `c base, c (base+1), …` added to the elements. -/
def fAddConsts (c : Nat → Nat) (base : Nat) : List Nat → List Nat
  | [] => []
  | v :: vs => fAdd v (c base) :: fAddConsts c (base + 1) vs

/-- Σ_j coef(j)·s_j over the elements from index `j` up. -/
def fDot (coef : Nat → Nat) (j : Nat) : List Nat → Nat
  | [] => 0
  | v :: vs => fAdd (fMul (coef j) v) (fDot coef (j + 1) vs)

/-- R224: out[i] = Σ_j A[j·T + i]·s[j]. -/
def fMix (c : Nat → Nat) (base T : Nat) (s : List Nat) : List Nat :=
  (List.range T).map fun i => fDot (fun j => c (base + (j * T + i))) 0 s

/-- R226: s_j' = S[e]·s_0 + s_j. -/
def fSparseTail (c : Nat → Nat) (s0 : Nat) (e : Nat) : List Nat → List Nat
  | [] => []
  | v :: vs => fAdd (fMul (c e) s0) v :: fSparseTail c s0 (e + 1) vs

/-- R226: a partial round. -/
def fP1Partial (c : Nat → Nat) (w : P1Width) (r : Nat) : List Nat → List Nat
  | [] => []
  | v :: rest =>
    let s0 := fAdd (fPow5 v) (c (w.baseC + (5 * w.t + r)))
    let b := w.baseS + (2 * w.t - 1) * r
    fDot (fun j => c (b + j)) 0 (s0 :: rest) :: fSparseTail c s0 (b + w.t) rest

/-- R225, R226, R227: one round, by its phase and counter. -/
def fP1Round (c : Nat → Nat) (w : P1Width) (s : List Nat) : P1Phase × Nat → List Nat
  | (.ark0, _) => fAddConsts c w.baseC s
  | (.fullA, r) =>
    fMix c (if r < 3 then w.baseM else w.baseP) w.t (fAddConsts c (w.baseC + ((r + 1) * w.t)) (s.map fPow5))
  | (.partialRound, r) => fP1Partial c w r s
  | (.fullB, r) =>
    fMix c w.baseM w.t
      (if r < 3 then fAddConsts c (w.baseC + (5 * w.t + w.np + r * w.t)) (s.map fPow5) else s.map fPow5)

/-- R228: Perm1_T, with `c e` the field value of table entry `e`. -/
def fPerm1 (c : Nat → Nat) (w : P1Width) (s : List Nat) : List Nat := (p1Schedule w).foldl (fP1Round c w) s

/-- R262: Σ_j k_j·s_j for a row of integer coefficients. -/
def fRowSum : List Nat → List Nat → Nat
  | k :: ks, v :: vs => fAdd (fMul k v) (fRowSum ks vs)
  | _, _ => 0

/-- R262: ME_T. -/
def fMeLayer (prm : Config.P2Params) (w : P2Width) (s : List Nat) : List Nat :=
  (meRows prm w).map fun row => fRowSum row s

/-- R264: S-box and constant in the configured order. -/
def fSboxArk (order : Config.ArkOrder) (v rc : Nat) : Nat :=
  match order with
  | .sboxThenAdd => fAdd (fPow5 v) rc
  | .addThenSbox => fPow5 (fAdd v rc)

/-- R265: the same on every element, constants from entry `e` up. -/
def fSboxArkAll (order : Config.ArkOrder) (c : Nat → Nat) (e : Nat) : List Nat → List Nat
  | [] => []
  | v :: vs => fSboxArk order v (c e) :: fSboxArkAll order c (e + 1) vs

/-- R266: diag_T[i]. -/
def fDiag (c : Nat → Nat) (set : P2Set) (w : P2Width) (i : Nat) : Nat :=
  match w with
  | .t2 => if i = 1 then 2 else 1
  | .t3 => if i = 2 then 2 else 1
  | .t4 => c (baseDIAG set + i)

/-- R267: out[i] = sum + diag[i]·s[i]. -/
def fDiagLayer (c : Nat → Nat) (set : P2Set) (w : P2Width) (sum : Nat) (i : Nat) : List Nat → List Nat
  | [] => []
  | v :: vs => fAdd sum (fMul (fDiag c set w i) v) :: fDiagLayer c set w sum (i + 1) vs

/-- R267: an internal round. -/
def fP2Int (prm : Config.P2Params) (c : Nat → Nat) (set : P2Set) (w : P2Width) (r : Nat) : List Nat → List Nat
  | [] => []
  | v :: rest =>
    let s0 := fSboxArk prm.arkOrder v (c (baseRCN set w + r))
    fDiagLayer c set w (rest.foldl fAdd s0) 0 (s0 :: rest)

/-- R265, R267, R268: one round, by its phase and counter. -/
def fP2Round (prm : Config.P2Params) (c : Nat → Nat) (set : P2Set) (w : P2Width) (s : List Nat) :
    P2Phase × Nat → List Nat
  | (.mix0, _) => fMeLayer prm w s
  | (.extA, r) => fMeLayer prm w (fSboxArkAll prm.arkOrder c (baseRCI set w + r * w.t) s)
  | (.intRound, r) => fP2Int prm c set w r s
  | (.extB, r) => fMeLayer prm w (fSboxArkAll prm.arkOrder c (baseRCF set w + r * w.t) s)

/-- R268: Perm2_{σ,T}, with `c e` the field value of table entry `e`. -/
def fPerm2 (prm : Config.P2Params) (c : Nat → Nat) (set : P2Set) (w : P2Width) (s : List Nat) : List Nat :=
  p2Schedule.foldl (fP2Round prm c set w) s

end Sys2Proof.Machine
end

