-- ==== Sys2Proof/Safety.lean ====
section
/-! DEFINITION. What counts as a safe run, in the terms the statements use: the invariant of the machine, the steps that
may stop, what each command may write (spec/10_state.md R32, R35), and the operands it range-checks
(spec/42_modular_addsub.md R180). -/

namespace Sys2Proof

open Machine

/-! ### What a command may write -/

/-- R32: the registers a command writes, by number. -/
def Instr.destinations : Instr → List Nat
  | .nop | .cmp _ _ | .fchk _ | .tlock => []
  | .mov rd _ | .ldk rd _ | .addc rd _ _ _ | .subb rd _ _ _ | .redc rd _ _ | .fadd rd _ _ | .fsub rd _ _ | .fneg rd _
  | .fhalf rd _ | .mmul rd _ _ | .msqr rd _ | .tomont rd _ | .frommont rd _ | .fmul rd _ _ | .fsqr rd _ | .finv rd _
  | .fdiv rd _ _ | .minv rd _ | .p1comp rd _ _ _ => [rd.val]
  | .mulw rd _ _ => [rd.val, rd.val + 1]
  | .p1perm rd _ w _ | .p2perm rd _ w _ _ => List.range' rd.val w.val

/-- R35: the commands that write C. -/
def Instr.writesCarry : Instr → Bool
  | .addc _ _ _ _ | .subb _ _ _ _ => true
  | .nop | .mov _ _ | .ldk _ _ | .cmp _ _ | .mulw _ _ _ | .redc _ _ _ | .fchk _ | .fadd _ _ _ | .fsub _ _ _ | .fneg _ _
  | .fhalf _ _ | .mmul _ _ _ | .msqr _ _ | .tomont _ _ | .frommont _ _ | .fmul _ _ _ | .fsqr _ _ | .finv _ _
  | .fdiv _ _ _ | .minv _ _ | .p1perm _ _ _ _ | .p1comp _ _ _ _ | .p2perm _ _ _ _ _ | .tlock => false

/-- R35: the command that writes LT and EQ. -/
def Instr.writesCompare : Instr → Bool
  | .cmp _ _ => true
  | .nop | .mov _ _ | .ldk _ _ | .addc _ _ _ _ | .subb _ _ _ _ | .mulw _ _ _ | .redc _ _ _ | .fchk _ | .fadd _ _ _
  | .fsub _ _ _ | .fneg _ _ | .fhalf _ _ | .mmul _ _ _ | .msqr _ _ | .tomont _ _ | .frommont _ _ | .fmul _ _ _
  | .fsqr _ _ | .finv _ _ | .fdiv _ _ _ | .minv _ _ | .p1perm _ _ _ _ | .p1comp _ _ _ _ | .p2perm _ _ _ _ _
  | .tlock => false

/-- R293: the command that locks the tables. -/
def Instr.locks : Instr → Bool
  | .tlock => true
  | .nop | .mov _ _ | .ldk _ _ | .addc _ _ _ _ | .subb _ _ _ _ | .cmp _ _ | .mulw _ _ _ | .redc _ _ _ | .fchk _
  | .fadd _ _ _ | .fsub _ _ _ | .fneg _ _ | .fhalf _ _ | .mmul _ _ _ | .msqr _ _ | .tomont _ _ | .frommont _ _
  | .fmul _ _ _ | .fsqr _ _ | .finv _ _ | .fdiv _ _ _ | .minv _ _ | .p1perm _ _ _ _ | .p1comp _ _ _ _
  | .p2perm _ _ _ _ _ => false

/-- R232: the commands that read the table memory. -/
def Instr.usesTables : Instr → Bool
  | .p1perm _ _ _ _ | .p1comp _ _ _ _ | .p2perm _ _ _ _ _ => true
  | .nop | .mov _ _ | .ldk _ _ | .addc _ _ _ _ | .subb _ _ _ _ | .cmp _ _ | .mulw _ _ _ | .redc _ _ _ | .fchk _
  | .fadd _ _ _ | .fsub _ _ _ | .fneg _ _ | .fhalf _ _ | .mmul _ _ _ | .msqr _ _ | .tomont _ _ | .frommont _ _
  | .fmul _ _ _ | .fsqr _ _ | .finv _ _ | .fdiv _ _ _ | .minv _ _ | .tlock => false

/-- R180: the registers whose values a command range-checks, in order; the raw commands, MOV, LDK, NOP and TLOCK check
none. -/
def Instr.checked : Instr → List Nat
  | .fchk ra | .fneg _ ra | .fhalf _ ra | .msqr _ ra | .tomont _ ra | .frommont _ ra | .fsqr _ ra | .finv _ ra
  | .minv _ ra => [ra.val]
  | .fadd _ ra rb | .fsub _ ra rb | .mmul _ ra rb | .fmul _ ra rb | .fdiv _ ra rb => [ra.val, rb.val]
  | .p1perm _ ra w _ | .p1comp _ ra w _ | .p2perm _ ra w _ _ => List.range' ra.val w.val
  | .nop | .mov _ _ | .ldk _ _ | .addc _ _ _ _ | .subb _ _ _ _ | .cmp _ _ | .mulw _ _ _ | .redc _ _ _ | .tlock => []

/-- R202 to R204: the register whose value a command inverts. -/
def Instr.inverted : Instr → Option Nat
  | .finv _ ra | .minv _ ra => some ra.val
  | .fdiv _ _ rb => some rb.val
  | .nop | .mov _ _ | .ldk _ _ | .addc _ _ _ _ | .subb _ _ _ _ | .cmp _ _ | .mulw _ _ _ | .redc _ _ _ | .fchk _
  | .fadd _ _ _ | .fsub _ _ _ | .fneg _ _ | .fhalf _ _ | .mmul _ _ _ | .msqr _ _ | .tomont _ _ | .frommont _ _
  | .fmul _ _ _ | .fsqr _ _ | .p1perm _ _ _ _ | .p1comp _ _ _ _ | .p2perm _ _ _ _ _ | .tlock => none

namespace Machine

/-! ### How a command ends -/

/-- R316: a completion without error that leaves the register file `x` and changes nothing else. -/
def State.wrote (s : State) (x : Vector Felt 16) : State := { s with x := x, err := 0, done := true, busy := false }

/-- R313, R316: a completion with the error code `code`. -/
def State.erred (s : State) (code : BitVec 4) : State :=
  { s with err := code, esticky := true, done := true, busy := false }

/-- R310, R312: the code a command reports, by the conditions that hold in the snapshot, the table memory and TLOCKED, in
the order ILLEGAL, NOTABLE, RANGE, DIVZERO; 0 if none holds. -/
def State.errorCode (s : State) (i : Instr) : BitVec 4 :=
  if i.wellFormed = false then 1
  else if i.usesTables = true ∧ s.tlocked = false then 4
  else if ∃ r ∈ i.checked, Config.p ≤ (regAt s.snap.x r).toNat then 2
  else if i.locks = true ∧ s.tlocked = false ∧ ∃ e ∈ List.range Config.ntab, Config.p ≤ (s.tab.entry e).toNat then 2
  else if ∃ r ∈ i.inverted.toList, regAt s.snap.x r = 0 then 3
  else 0

/-! ### The invariant -/

/-- What every state of a run satisfies. -/
structure Inv (s : State) : Prop where
  /-- The table memory keeps its canonical form. -/
  tabForm : s.tab.wf = true
  /-- R40: acceptance clears DONE, and completion clears BUSY. -/
  notBoth : s.busy = true → s.done = false
  /-- R33: no register or C changes between acceptance and completion, so the snapshot equals them. -/
  snapshot : s.busy = true → s.snap = { x := s.x, c := s.c }
  /-- R42: after a successful lock, every entry is canonical. -/
  lockedCanonical : s.tlocked = true → ∀ e < Config.ntab, Canonical (s.tab.entry e)
  /-- R310: codes 5 to 15 are never produced. -/
  errCode : s.err.toNat ≤ 4
  /-- R35: LT and EQ are never both 1. -/
  ltOrEq : ¬ (s.lt = true ∧ s.eq = true)
  /-- R340, R47: a core held in reset has the reset value in every piece of its state. -/
  heldInReset : s.rstN = false →
    s = { State.reset with
      tab := { draw := s.tab.draw, cells := [] }, params := s.params, rstN := false, events := s.events }

/-- A safe step: no fault (R318). -/
def StepSafe (s : State) : Prop := ∀ f, step s ≠ .fault f

/-- R340, R357: the next move is a host access. -/
def hostMovesNext (s : State) : Bool :=
  match s.events with
  | .read _ _ :: _ => true
  | .write _ _ _ :: _ => true
  | _ => false

/-- R316: the next move is the engine's turn, by the event list or because no event is left, and a command is in flight
in a core out of reset. -/
def engineCompletesNext (s : State) : Prop :=
  s.rstN = true ∧ s.busy = true ∧ (s.events = [] ∨ ∃ rest, s.events = .engine :: rest)

/-- R347: a run is over: no move is left, no command is in flight. -/
def RunOver (s : State) : Prop := s.events = [] ∧ s.busy = false

end Machine

end Sys2Proof
end

