-- ==== Sys2Proof/Certificates/Slice0/Obligations.lean ====
section
/-! DEFINITION. The statements for the provers, in the order of OBLIGATIONS.json. Each docstring names the rules of spec/
its statement formalises. -/

open Sys2Proof Sys2Proof.Machine

/-- O1. R98, R290 to R293: words the spec writes out. R94 (a) with R93: OP 0x08 is unassigned; R94 (c): NOP uses no
field. A sanity statement. -/
def Obligations.DecodesTheSpecsExampleWords : Prop :=
  decode 0x00300032 = .ok (.p2perm 0 0 3 .canonical .old) ∧ decode 0x02010203 = .ok (.addc 2 0 1 true) ∧
  decode 0x00001301 = .ok (.mov 3 1) ∧ decode 0x00200002 = .ok (.ldk 0 .r1) ∧ decode 0x00000000 = .ok .nop ∧
  decode 0x0000003F = .ok .tlock ∧ decode 0x00000008 = .error .unassignedOpcode ∧
  decode 0x00000100 = .error .unusedField

/-- O2. R90, R93, R96: no bit of an encoding is dropped. -/
def Obligations.DecodeOfEncode : Prop :=
  ∀ i : Instr, i.wellFormed = true → decode (encode i) = .ok i

/-- O3. R94: "Every word is either exactly one row of rule R93 satisfying rule R95, or illegal", read from the word.
-/
def Obligations.EncodeOfDecode : Prop :=
  ∀ (w : Limb) (i : Instr), decode w = .ok i → i.wellFormed = true ∧ encode i = w

/-- O4. R94 (a) to (d), with the ranges of clause (a) as the spec lists them. -/
def Obligations.IllegalWordsAreThoseOfTheFourClauses : Prop :=
  ∀ w : Limb, (∃ e, decode w = .error e) ↔
    ((0x08 ≤ (opField w).toNat ∧ (opField w).toNat ≤ 0x0F) ∨ (0x15 ≤ (opField w).toNat ∧ (opField w).toNat ≤ 0x17) ∨
      (opField w).toNat = 0x1E ∨ (opField w).toNat = 0x1F ∨ (0x23 ≤ (opField w).toNat ∧ (opField w).toNat ≤ 0x2F) ∨
      (0x33 ≤ (opField w).toNat ∧ (opField w).toNat ≤ 0x3E) ∨ 0x40 ≤ (opField w).toNat) ∨
    rsvField w ≠ 0 ∨
    (∃ row ∈ opRows, row.op = opField w ∧ w &&& row.mask ≠ row.mtch) ∨
    (∃ row ∈ opRows, row.op = opField w ∧ (row.build w).wellFormed = false)

/-- O5. R12, R316: *complete* runs decode(CMDREG). The event list and `withFetchWord` are the model's (log entries 1
and 10). -/
def Obligations.StepRunsTheDecodedCommand : Prop :=
  (∀ (s : State) (i : Instr), s.rstN = true → s.busy = true → decode s.cmdReg = .ok i → s.events = [] →
    step s = exec i s) ∧
  (∀ (s : State) (i : Instr) (rest : List Event), s.rstN = true → s.busy = true → decode s.cmdReg = .ok i →
    s.events = .engine :: rest → step s = exec i { s with events := rest }) ∧
  (∀ (s : State) (nbits w : Nat) (i : Instr), decode (tableWord nbits w) = .ok i →
    step (s.withFetchWord nbits w) = exec i { (s.accept (tableWord nbits w)) with rstN := true }) ∧
  (∀ (s : State) (addr : BusAddr) (size : Nat) (rest : List Event), s.rstN = true → s.events = .read addr size :: rest →
    step s = .next ({ s with events := rest }.busRead addr size)) ∧
  (∀ (s : State) (addr : BusAddr) (size : Nat) (data : Limb) (rest : List Event), s.rstN = true →
    s.events = .write addr size data :: rest → step s = .next ({ s with events := rest }.busWrite addr size data))

/-- O6. R311, over every 32-bit word. -/
def Obligations.EveryWordExecutesOrIsIllegal : Prop :=
  (∀ (s : State) (w : Limb), s.busy = false → s.busWrite 0x010 4 w = (s.accept w).reply (.write .ok)) ∧
  (∀ (s : State), s.rstN = true → s.busy = true →
    (∃ i, decode s.cmdReg = .ok i ∧ engineTurn s = exec i s) ∨
    (∃ e, decode s.cmdReg = .error e ∧
      engineTurn s = .next { s with err := 1, esticky := true, done := true, busy := false })) ∧
  (∀ (s : State) (w : Limb), (s.erred 1).busWrite 0x010 4 w = ((s.erred 1).accept w).reply (.write .ok))

/-- O7. R312, R313 with R310 and R316; `State.errorCode` writes the conditions from R94, R180, R202 to R204, R232 and
R293. That a TERM which breaks R95 ends with ILLEGAL is the model's choice of log entry 9: R94 and R95 speak of words.
-/
def Obligations.FirstErrorIsReportedAndNothingIsCommitted : Prop :=
  (∀ (i : Instr) (s : State), s.errorCode i ≠ 0 → exec i s = .next (s.erred (s.errorCode i))) ∧
  (∀ (i : Instr) (s : State), s.errorCode i = 0 → ∃ t, exec i s = .next t ∧ t.err = 0 ∧ t.done = true ∧ t.busy = false ∧
    t.esticky = s.esticky ∧ t.overrun = s.overrun) ∧
  (∀ (s : State) (addr : BusAddr) (size : Nat) (data : Limb),
    (s.busRead addr size).err = s.err ∧ (s.busWrite addr size data).err = s.err)

/-- O8. R316: "`run` is total ... and it is a function of the snapshot, the table memory and TLOCKED alone", of one
machine: the parameters of R7 are its configuration. -/
def Obligations.CompletionDependsOnSnapshotTablesAndLock : Prop :=
  ∀ (i : Instr) (s t : State), s.snap = t.snap → s.tab = t.tab → s.tlocked = t.tlocked → s.params = t.params →
    ∃ r, exec i s = .next (s.settle r) ∧ exec i t = .next (t.settle r)

/-- O9. R316, R317. -/
def Obligations.ACommandInFlightCompletes : Prop :=
  ∀ (s : State), s.rstN = true → s.busy = true → (s.events = [] ∨ ∃ rest, s.events = .engine :: rest) →
    ∃ t, step s = .next t ∧ t.busy = false ∧ t.done = true ∧
      t.esticky = (s.esticky || decide (t.err ≠ 0)) ∧ t.overrun = s.overrun ∧ t.ie = s.ie ∧ t.cmdReg = s.cmdReg ∧
      t.tab = s.tab ∧ t.answer = s.answer

/-- O10. R152, R201, R318: the impossible-by-construction conditions are impossible. R340, R357: "the host has no move
against a core held in reset"; that the model refuses such a move is its own choice, log entry 11 (DEDUCED). -/
def Obligations.NoStepFaultsAndOnlyAHostAccessInResetIsRefused : Prop :=
  (∀ s : State, StepSafe s) ∧
  (∀ (s : State) (r : Refusal), step s = .refused r ↔ (s.rstN = false ∧ hostMovesNext s = true ∧ r = .accessInReset))

/-- O11. The values are those of R47. `Inv.tabForm`, the canonical form of the table memory over a draw, is the
model's choice of log entries 4 and 3. -/
def Obligations.InvariantHoldsAtReset : Prop :=
  Inv State.reset

/-- O12. The invariant over every event, every bus access and every command. The model's choices in it: `Inv.tabForm`
(log entry 4); in `Inv.heldInReset`, that the values are taken at the low edge (log entry 12) and, through
`State.reset`, the snapshot's contents (log entry 2), the draw (log entry 3) and the bus answer (log entry 13). -/
def Obligations.EveryStepKeepsTheInvariant : Prop :=
  ∀ s t : State, Inv s → step s = .next t → Inv t

/-- O13. R32, frame of the registers. -/
def Obligations.CommandsWriteOnlyTheirDestinations : Prop :=
  ∀ (i : Instr) (s t : State), exec i s = .next t → ∀ n, n ∉ i.destinations → regAt t.x n = regAt s.x n

/-- O14. R35, frame of the flags and the lock. -/
def Obligations.CommandsWriteOnlyTheirFlags : Prop :=
  ∀ (i : Instr) (s t : State), exec i s = .next t →
    (i.writesCarry = false → t.c = s.c) ∧ (i.writesCompare = false → t.lt = s.lt ∧ t.eq = s.eq) ∧
    (i.locks = false → t.tlocked = s.tlocked) ∧ (s.tlocked = true → t.tlocked = true) ∧
    (t.err ≠ 0 → t.c = s.c ∧ t.lt = s.lt ∧ t.eq = s.eq ∧ t.tlocked = s.tlocked)

/-- O15. Frame of the rest of the state. -/
def Obligations.CommandsLeaveTheRestUnchanged : Prop :=
  ∀ (i : Instr) (s t : State), exec i s = .next t →
    (∀ a, t.tab.readByte a = s.tab.readByte a) ∧ t.tab = s.tab ∧ t.ie = s.ie ∧ t.cmdReg = s.cmdReg ∧
    t.overrun = s.overrun ∧ t.snap = s.snap ∧ t.params = s.params ∧ t.rstN = s.rstN ∧ t.answer = s.answer ∧ t.events = s.events ∧
    t.done = true ∧ t.busy = false

/-- O16. R290. -/
def Obligations.NopResult : Prop :=
  encode .nop = 0x00000000 ∧ decode 0x00000000 = .ok .nop ∧
  (∀ w : Limb, opField w = 0x00 → w ≠ 0 → ∃ e, decode w = .error e) ∧
  ∀ s : State, exec .nop s = .next { s with err := 0, done := true, busy := false } ∧
    (∀ t, exec .nop s = .next t → t.irq = s.ie)

/-- O17. R291. -/
def Obligations.MovResult : Prop :=
  (∀ rd ra : Reg, opField (encode (.mov rd ra)) = 0x01) ∧ encode (.mov 3 1) = 0x00001301 ∧
  ∀ (rd ra : Reg) (s : State), exec (.mov rd ra) s = .next (s.wrote (setReg s.x rd.val (s.operand ra))) ∧
    (s.snap.x = s.x → rd = ra → setReg s.x rd.val (s.operand ra) = s.x)

/-- O18. R292, with R8 and R9; every W. -/
def Obligations.LdkResult : Prop :=
  (∀ (rd : Reg) (k : Konst), opField (encode (.ldk rd k)) = 0x02 ∧ (wField (encode (.ldk rd k))) = wOfKonst k) ∧
  encode (.ldk 0 .r1) = 0x00200002 ∧ (∀ w : Fin 8, wOfKonst (konstOfW w) = w) ∧ ¬ Canonical (konstValue .p) ∧
  ∀ (rd : Reg) (k : Konst) (s : State), ∃ v : Felt, exec (.ldk rd k) s = .next (s.wrote (setReg s.x rd.val v)) ∧
    (wOfKonst k = 0 → v.toNat = 0) ∧ (wOfKonst k = 1 → v.toNat = 1) ∧ (wOfKonst k = 2 → v.toNat = 2 ^ 256 % Config.p) ∧
    (wOfKonst k = 3 → v.toNat = 2 ^ 256 * 2 ^ 256 % Config.p) ∧
    (wOfKonst k = 4 → v.toNat = 2 ^ 256 * 2 ^ 256 % Config.p * 2 ^ 256 % Config.p) ∧
    (wOfKonst k = 5 → v.toNat = Config.p) ∧
    (wOfKonst k = 6 → v.toNat = 0xefffffff ∧ (Config.p * v.toNat + 1) % 2 ^ 32 = 0) ∧
    (wOfKonst k = 7 → v.toNat = (Config.p + 1) / 2)

/-- O19. R293; the scan is over every entry, written or not. -/
def Obligations.TlockResult : Prop :=
  encode .tlock = 0x0000003F ∧ (∀ w : Limb, opField w = 0x3F → w ≠ 0x0000003F → ∃ e, decode w = .error e) ∧
  (∀ s : State, s.tlocked = true → exec .tlock s = .next (s.wrote s.x)) ∧
  (∀ s : State, s.tlocked = false → (∀ e < 2322, Canonical (s.tab.entry e)) →
    exec .tlock s = .next { s.wrote s.x with tlocked := true }) ∧
  (∀ s : State, s.tlocked = false → (∃ e < 2322, ¬ Canonical (s.tab.entry e)) →
    exec .tlock s = .next (s.erred 2) ∧ (s.erred 2).tlocked = false)

/-- O20. R122: unsigned, modulo 2^256, any operands. -/
def Obligations.AddcResult : Prop :=
  (∀ (rd ra rb : Reg) (ci : Bool), opField (encode (.addc rd ra rb ci)) = 0x03) ∧
  ∀ (rd ra rb : Reg) (ci : Bool) (s : State) (cin : Nat), cin = (if ci = true ∧ s.snap.c = true then 1 else 0) →
    exec (.addc rd ra rb ci) s = .next
      { s.wrote (setReg s.x rd.val (BitVec.ofNat 256 ((s.operand ra).toNat + (s.operand rb).toNat + cin))) with
        c := decide (2 ^ 256 ≤ (s.operand ra).toNat + (s.operand rb).toNat + cin) }

/-- O21. R123. -/
def Obligations.SubbResult : Prop :=
  (∀ (rd ra rb : Reg) (ci : Bool), opField (encode (.subb rd ra rb ci)) = 0x04) ∧
  ∀ (rd ra rb : Reg) (ci : Bool) (s : State) (bin : Nat), bin = (if ci = true ∧ s.snap.c = true then 1 else 0) →
    exec (.subb rd ra rb ci) s = .next
      { s.wrote (setReg s.x rd.val (BitVec.ofNat 256 ((s.operand ra).toNat + 2 ^ 256 - ((s.operand rb).toNat + bin)))) with
        c := decide ((s.operand ra).toNat < (s.operand rb).toNat + bin) }

/-- O22. R124. -/
def Obligations.CmpResult : Prop :=
  (∀ ra rb : Reg, opField (encode (.cmp ra rb)) = 0x05) ∧
  ∀ (ra rb : Reg) (s : State), exec (.cmp ra rb) s = .next
    { s.wrote s.x with
      lt := decide ((s.operand ra).toNat < (s.operand rb).toNat)
      eq := decide ((s.operand ra).toNat = (s.operand rb).toNat) }

/-- O23. R125; the operands are the snapshot's, so RA and RB may be RD or RD+1. -/
def Obligations.MulwResult : Prop :=
  (∀ rd ra rb : Reg, opField (encode (.mulw rd ra rb)) = 0x06) ∧
  (∀ (rd ra rb : Reg) (s : State), rd.val ≤ 14 → exec (.mulw rd ra rb) s = .next (s.wrote
    (setReg (setReg s.x rd.val (BitVec.ofNat 256 ((s.operand ra).toNat * (s.operand rb).toNat))) (rd.val + 1)
      (BitVec.ofNat 256 ((s.operand ra).toNat * (s.operand rb).toNat / 2 ^ 256))))) ∧
  (∀ (rd ra rb : Reg) (s : State), rd.val = 15 → exec (.mulw rd ra rb) s = .next (s.erred 1))

/-- O24. R150, R153: any 512-bit input, canonical or not. -/
def Obligations.RedcResult : Prop :=
  (∀ rd ra rb : Reg, opField (encode (.redc rd ra rb)) = 0x07) ∧
  (∀ T M N : Nat, M < 2 ^ 256 → N < 2 ^ 256 → (T + M * Config.p) % 2 ^ 256 = 0 → (T + N * Config.p) % 2 ^ 256 = 0 → M = N) ∧
  (∀ T r : Nat, IsRedc T r → 2 ^ 256 * r % Config.p = T % Config.p ∧ (T < Config.p * 2 ^ 256 → r < Config.p)) ∧
  ∀ (rd ra rb : Reg) (s : State), ∃ v : Felt,
    exec (.redc rd ra rb) s = .next (s.wrote (setReg s.x rd.val v)) ∧
    IsRedc ((s.operand rb).toNat * 2 ^ 256 + (s.operand ra).toNat) v.toNat

/-- O25. R154. -/
def Obligations.MmulResult : Prop :=
  (∀ rd ra rb : Reg, opField (encode (.mmul rd ra rb)) = 0x18) ∧
  (∀ (rd ra rb : Reg) (s : State), Canonical (s.operand ra) → Canonical (s.operand rb) → ∃ v : Felt,
    exec (.mmul rd ra rb) s = .next (s.wrote (setReg s.x rd.val v)) ∧ Canonical v ∧
    v.toNat = (s.operand ra).toNat * (s.operand rb).toNat * rInv % Config.p ∧
    IsRedc ((s.operand ra).toNat * (s.operand rb).toNat) v.toNat ∧
    montVal v.toNat = montVal (s.operand ra).toNat * montVal (s.operand rb).toNat % Config.p) ∧
  (∀ (rd ra rb : Reg) (s : State), ¬ (Canonical (s.operand ra) ∧ Canonical (s.operand rb)) →
    exec (.mmul rd ra rb) s = .next (s.erred 2)) ∧
  2 ^ 256 * rInv % Config.p = 1

/-- O26. R155. -/
def Obligations.MsqrResult : Prop :=
  (∀ rd ra : Reg, opField (encode (.msqr rd ra)) = 0x19) ∧
  (∀ (rd ra : Reg) (s : State), Canonical (s.operand ra) → ∃ v : Felt,
    exec (.msqr rd ra) s = .next (s.wrote (setReg s.x rd.val v)) ∧ Canonical v ∧
    v.toNat = (s.operand ra).toNat * (s.operand ra).toNat * rInv % Config.p) ∧
  (∀ (rd ra : Reg) (s : State), ¬ Canonical (s.operand ra) → exec (.msqr rd ra) s = .next (s.erred 2)) ∧
  (∀ (rd ra : Reg) (s : State), exec (.msqr rd ra) s = exec (.mmul rd ra ra) s)

/-- O27. R156. -/
def Obligations.TomontResult : Prop :=
  (∀ rd ra : Reg, opField (encode (.tomont rd ra)) = 0x1A) ∧
  (∀ (rd ra : Reg) (s : State), Canonical (s.operand ra) → ∃ v : Felt,
    exec (.tomont rd ra) s = .next (s.wrote (setReg s.x rd.val v)) ∧ Canonical v ∧
    v.toNat = (s.operand ra).toNat * 2 ^ 256 % Config.p ∧ montVal v.toNat = (s.operand ra).toNat) ∧
  (∀ (rd ra : Reg) (s : State), ¬ Canonical (s.operand ra) → exec (.tomont rd ra) s = .next (s.erred 2))

/-- O28. R157. -/
def Obligations.FrommontResult : Prop :=
  (∀ rd ra : Reg, opField (encode (.frommont rd ra)) = 0x1B) ∧
  (∀ (rd ra : Reg) (s : State), Canonical (s.operand ra) → ∃ v : Felt,
    exec (.frommont rd ra) s = .next (s.wrote (setReg s.x rd.val v)) ∧ Canonical v ∧
    v.toNat = montVal (s.operand ra).toNat ∧ v.toNat = (s.operand ra).toNat * rInv % Config.p ∧
    (∀ x, x < Config.p → (s.operand ra).toNat = x * 2 ^ 256 % Config.p → v.toNat = x)) ∧
  (∀ (rd ra : Reg) (s : State), ¬ Canonical (s.operand ra) → exec (.frommont rd ra) s = .next (s.erred 2))

/-- O29. R158. -/
def Obligations.FmulResult : Prop :=
  (∀ rd ra rb : Reg, opField (encode (.fmul rd ra rb)) = 0x1C) ∧
  (∀ (rd ra rb : Reg) (s : State), Canonical (s.operand ra) → Canonical (s.operand rb) → ∃ v : Felt,
    exec (.fmul rd ra rb) s = .next (s.wrote (setReg s.x rd.val v)) ∧ Canonical v ∧
    v.toNat = (s.operand ra).toNat * (s.operand rb).toNat % Config.p) ∧
  (∀ (rd ra rb : Reg) (s : State), ¬ (Canonical (s.operand ra) ∧ Canonical (s.operand rb)) →
    exec (.fmul rd ra rb) s = .next (s.erred 2))

/-- O30. R159. -/
def Obligations.FsqrResult : Prop :=
  (∀ rd ra : Reg, opField (encode (.fsqr rd ra)) = 0x1D) ∧
  (∀ (rd ra : Reg) (s : State), Canonical (s.operand ra) → ∃ v : Felt,
    exec (.fsqr rd ra) s = .next (s.wrote (setReg s.x rd.val v)) ∧ Canonical v ∧
    v.toNat = (s.operand ra).toNat * (s.operand ra).toNat % Config.p) ∧
  (∀ (rd ra : Reg) (s : State), ¬ Canonical (s.operand ra) → exec (.fsqr rd ra) s = .next (s.erred 2)) ∧
  (∀ (rd ra : Reg) (s : State), exec (.fsqr rd ra) s = exec (.fmul rd ra ra) s)

/-- O31. R181. -/
def Obligations.FchkResult : Prop :=
  (∀ ra : Reg, opField (encode (.fchk ra)) = 0x10) ∧
  (∀ (ra : Reg) (s : State), (s.operand ra).toNat < Config.p → exec (.fchk ra) s = .next (s.wrote s.x)) ∧
  (∀ (ra : Reg) (s : State), Config.p ≤ (s.operand ra).toNat → exec (.fchk ra) s = .next (s.erred 2))

/-- O32. R183. -/
def Obligations.FaddResult : Prop :=
  (∀ rd ra rb : Reg, opField (encode (.fadd rd ra rb)) = 0x11) ∧
  (∀ (rd ra rb : Reg) (s : State), Canonical (s.operand ra) → Canonical (s.operand rb) → ∃ v : Felt,
    exec (.fadd rd ra rb) s = .next (s.wrote (setReg s.x rd.val v)) ∧ Canonical v ∧
    v.toNat = ((s.operand ra).toNat + (s.operand rb).toNat) % Config.p) ∧
  (∀ (rd ra rb : Reg) (s : State), ¬ (Canonical (s.operand ra) ∧ Canonical (s.operand rb)) →
    exec (.fadd rd ra rb) s = .next (s.erred 2))

/-- O33. R185. -/
def Obligations.FsubResult : Prop :=
  (∀ rd ra rb : Reg, opField (encode (.fsub rd ra rb)) = 0x12) ∧
  (∀ (rd ra rb : Reg) (s : State), Canonical (s.operand ra) → Canonical (s.operand rb) → ∃ v : Felt,
    exec (.fsub rd ra rb) s = .next (s.wrote (setReg s.x rd.val v)) ∧ Canonical v ∧
    v.toNat = ((s.operand ra).toNat + Config.p - (s.operand rb).toNat) % Config.p) ∧
  (∀ (rd ra rb : Reg) (s : State), ¬ (Canonical (s.operand ra) ∧ Canonical (s.operand rb)) →
    exec (.fsub rd ra rb) s = .next (s.erred 2))

/-- O34. R186. -/
def Obligations.FnegResult : Prop :=
  (∀ rd ra : Reg, opField (encode (.fneg rd ra)) = 0x13) ∧
  (∀ (rd ra : Reg) (s : State), Canonical (s.operand ra) → ∃ v : Felt,
    exec (.fneg rd ra) s = .next (s.wrote (setReg s.x rd.val v)) ∧ Canonical v ∧
    v.toNat = (if (s.operand ra).toNat = 0 then 0 else Config.p - (s.operand ra).toNat)) ∧
  (∀ (rd ra : Reg) (s : State), ¬ Canonical (s.operand ra) → exec (.fneg rd ra) s = .next (s.erred 2))

/-- O35. R188. -/
def Obligations.FhalfResult : Prop :=
  (∀ rd ra : Reg, opField (encode (.fhalf rd ra)) = 0x14) ∧
  (∀ (rd ra : Reg) (s : State), Canonical (s.operand ra) → ∃ v : Felt,
    exec (.fhalf rd ra) s = .next (s.wrote (setReg s.x rd.val v)) ∧ Canonical v ∧
    2 * v.toNat % Config.p = (s.operand ra).toNat ∧
    v.toNat = (if (s.operand ra).toNat % 2 = 0 then (s.operand ra).toNat / 2 else ((s.operand ra).toNat + Config.p) / 2)) ∧
  (∀ (rd ra : Reg) (s : State), ¬ Canonical (s.operand ra) → exec (.fhalf rd ra) s = .next (s.erred 2))

/-- O36. R202. -/
def Obligations.FinvResult : Prop :=
  (∀ rd ra : Reg, opField (encode (.finv rd ra)) = 0x20) ∧
  (∀ (rd ra : Reg) (s : State), Canonical (s.operand ra) → s.operand ra ≠ 0 → ∃ v : Felt,
    exec (.finv rd ra) s = .next (s.wrote (setReg s.x rd.val v)) ∧ Canonical v ∧
    (s.operand ra).toNat * v.toNat % Config.p = 1) ∧
  (∀ (rd ra : Reg) (s : State), ¬ Canonical (s.operand ra) → exec (.finv rd ra) s = .next (s.erred 2)) ∧
  (∀ (rd ra : Reg) (s : State), s.operand ra = 0 → exec (.finv rd ra) s = .next (s.erred 3))

/-- O37. R203. -/
def Obligations.FdivResult : Prop :=
  (∀ rd ra rb : Reg, opField (encode (.fdiv rd ra rb)) = 0x21) ∧
  (∀ (rd ra rb : Reg) (s : State), Canonical (s.operand ra) → Canonical (s.operand rb) → s.operand rb ≠ 0 → ∃ v : Felt,
    exec (.fdiv rd ra rb) s = .next (s.wrote (setReg s.x rd.val v)) ∧ Canonical v ∧
    (∃ t, t < Config.p ∧ (s.operand rb).toNat * t % Config.p = 1 ∧ v.toNat = (s.operand ra).toNat * t % Config.p) ∧
    (s.operand rb).toNat * v.toNat % Config.p = (s.operand ra).toNat) ∧
  (∀ (rd ra rb : Reg) (s : State), ¬ (Canonical (s.operand ra) ∧ Canonical (s.operand rb)) →
    exec (.fdiv rd ra rb) s = .next (s.erred 2)) ∧
  (∀ (rd ra rb : Reg) (s : State), Canonical (s.operand ra) → s.operand rb = 0 →
    exec (.fdiv rd ra rb) s = .next (s.erred 3))

/-- O38. R204. -/
def Obligations.MinvResult : Prop :=
  (∀ rd ra : Reg, opField (encode (.minv rd ra)) = 0x22) ∧
  (∀ (rd ra : Reg) (s : State), Canonical (s.operand ra) → s.operand ra ≠ 0 → ∃ v : Felt,
    exec (.minv rd ra) s = .next (s.wrote (setReg s.x rd.val v)) ∧ Canonical v ∧
    montVal (s.operand ra).toNat * montVal v.toNat % Config.p = 1 ∧
    (∀ a, (s.operand ra).toNat = a * 2 ^ 256 % Config.p → ∃ b, b < Config.p ∧ a * b % Config.p = 1 ∧
      v.toNat = b * 2 ^ 256 % Config.p)) ∧
  (∀ (rd ra : Reg) (s : State), ¬ Canonical (s.operand ra) → exec (.minv rd ra) s = .next (s.erred 2)) ∧
  (∀ (rd ra : Reg) (s : State), s.operand ra = 0 → exec (.minv rd ra) s = .next (s.erred 3))

/-- O39. R228 to R230. Perm1_T is `fPerm1`, written from the field-value form of R223 to R228; the layout is the
spec's (spec/93 G4). -/
def Obligations.P1permResult : Prop :=
  (∀ (rd ra : Reg) (w : Fin 8) (d : Domain), opField (encode (.p1perm rd ra w d)) = 0x30) ∧
  ∀ (rd ra : Reg) (w : Fin 8) (d : Domain) (width : P1Width) (s : State),
    (Instr.p1perm rd ra w d).wellFormed = true → p1WidthOf w.val = some width → s.tlocked = true →
    TablesCanonical s.tab.entry → AllCanonical (s.operandRange ra w.val) →
    ∃ outs : List Felt, outs.length = w.val ∧ AllCanonical outs ∧
      domainVals d outs = fPerm1 (entryVal s.tab.entry) width (domainVals d (s.operandRange ra w.val)) ∧
      ∃ x, exec (.p1perm rd ra w d) s = .next (s.wrote x) ∧
        (∀ k, (h : k < outs.length) → regAt x (rd.val + k) = outs[k]) ∧
        (∀ n, n < rd.val ∨ rd.val + w.val ≤ n → regAt x n = regAt s.x n)

/-- O40. R231. -/
def Obligations.P1compResult : Prop :=
  (∀ (rd ra : Reg) (w : Fin 8) (d : Domain), opField (encode (.p1comp rd ra w d)) = 0x31) ∧
  ∀ (rd ra : Reg) (w : Fin 8) (d : Domain) (width : P1Width) (s : State),
    (Instr.p1comp rd ra w d).wellFormed = true → p1WidthOf (w.val + 1) = some width → s.tlocked = true →
    TablesCanonical s.tab.entry → AllCanonical (s.operandRange ra w.val) →
    ∃ v : Felt, exec (.p1comp rd ra w d) s = .next (s.wrote (setReg s.x rd.val v)) ∧ Canonical v ∧
      some (domainVal d v.toNat) =
        (fPerm1 (entryVal s.tab.entry) width (0 :: domainVals d (s.operandRange ra w.val))).head?

/-- O41. R268, R269 at every value of the parameters of R7, with the defaults of R262 and R264 at reset. That the
parameters are a field of State is the model's choice of log entry 5. -/
def Obligations.P2permResult : Prop :=
  (∀ (rd ra : Reg) (w : Fin 8) (d : Domain) (set : P2Set), opField (encode (.p2perm rd ra w d set)) = 0x32) ∧
  (∀ s t : State, step s = .next t → t.params = s.params) ∧
  State.reset.params =
    { me2 := #v[#v[2, 1], #v[1, 2]]
      me3 := #v[#v[2, 1, 1], #v[1, 2, 1], #v[1, 1, 2]]
      me4 := #v[#v[5, 7, 1, 3], #v[4, 6, 1, 1], #v[1, 3, 5, 7], #v[1, 1, 4, 6]]
      arkOrder := .sboxThenAdd } ∧
  ∀ (rd ra : Reg) (w : Fin 8) (d : Domain) (set : P2Set) (width : P2Width) (s : State),
    (Instr.p2perm rd ra w d set).wellFormed = true → p2WidthOf w.val = some width → s.tlocked = true →
    TablesCanonical s.tab.entry → AllCanonical (s.operandRange ra w.val) →
    ∃ outs : List Felt, outs.length = w.val ∧ AllCanonical outs ∧
      domainVals d outs =
        fPerm2 s.params (entryVal s.tab.entry) set width (domainVals d (s.operandRange ra w.val)) ∧
      ∃ x, exec (.p2perm rd ra w d set) s = .next (s.wrote x) ∧
        (∀ k, (h : k < outs.length) → regAt x (rd.val + k) = outs[k]) ∧
        (∀ n, n < rd.val ∨ rd.val + w.val ≤ n → regAt x n = regAt s.x n)

/-- O42. R232, with R293 and R312. -/
def Obligations.PermutationsNeedLockedTables : Prop :=
  (∀ (i : Instr) (s : State), i.usesTables = true → i.wellFormed = true → s.tlocked = false →
    exec i s = .next (s.erred 4)) ∧
  (∀ (i : Instr) (s t : State), s.tlocked = true → exec i s = .next t → t.err ≠ 4) ∧
  (∀ (s : State), Inv s → s.tlocked = true → TablesCanonical s.tab.entry) ∧
  (∀ (i : Instr) (s t : State), exec i s = .next t → t.tab = s.tab)

/-- O43. R160: "`from_mont(mul_mont(to_mont(x), to_mont(y))) = canonical_mul(x,y)`"; R157's round trip. -/
def Obligations.MontgomeryAgreesWithCanonicalProduct : Prop :=
  (∀ x y : Felt, Canonical x → Canonical y →
    (do let a ← tomontPath x
        let b ← tomontPath y
        let m ← mmulPath a b
        frommontPath m) = fmulPath x y) ∧
  (∀ x : Felt, Canonical x → (do let a ← tomontPath x; frommontPath a) = .ok x)

/-- O44. R189. -/
def Obligations.AddAndHalfLawsHoldInBothDomains : Prop :=
  (∀ x : Felt, Canonical x → modadd x 0 = x ∧ modadd x (modneg x) = 0 ∧ modadd (modhalf x) (modhalf x) = x ∧
    modhalf (modadd x x) = x) ∧
  (∀ x y : Felt, Canonical x → Canonical y → modadd x y = modadd y x) ∧
  (∀ x y z : Felt, Canonical x → Canonical y → Canonical z → modadd (modadd x y) z = modadd x (modadd y z)) ∧
  (∀ x y : Felt, Canonical x → Canonical y →
    montVal (modadd x y).toNat = (montVal x.toNat + montVal y.toNat) % Config.p ∧
    (montVal (modsub x y).toNat + montVal y.toNat) % Config.p = montVal x.toNat ∧
    (montVal (modneg x).toNat + montVal x.toNat) % Config.p = 0 ∧
    2 * montVal (modhalf x).toNat % Config.p = montVal x.toNat)

/-- O45. R37, R38. -/
def Obligations.IdVersionAndCtrlAccesses : Prop :=
  ∀ (s : State) (w : Limb),
    s.busRead 0x000 4 = { s with answer := some (.read 0x424E3534 .ok) } ∧
    s.busRead 0x004 4 = { s with answer := some (.read 0x00010000 .ok) } ∧
    s.busWrite 0x000 4 w = { s with answer := some (.write .ok) } ∧
    s.busWrite 0x004 4 w = { s with answer := some (.write .ok) } ∧
    s.busWrite 0x008 4 w = { s with ie := w.getLsbD 0, answer := some (.write .ok) } ∧
    s.busRead 0x008 4 = { s with answer := some (.read (if s.ie then 1 else 0) .ok) } ∧
    State.reset.ie = false ∧ (s.ie = true → s.irq = s.done)

/-- O46. R39: "A write to STATUS has no effect except on the W1C bits whose write-data bit is 1." -/
def Obligations.StatusReadsItsBitsAndClearsOnWrite : Prop :=
  (∀ s : State, ∃ d : Limb, s.busRead 0x00C 4 = { s with answer := some (.read d .ok) } ∧
    d.getLsbD 0 = s.busy ∧ d.getLsbD 1 = s.done ∧ d.getLsbD 2 = s.c ∧ d.getLsbD 3 = s.lt ∧ d.getLsbD 4 = s.eq ∧
    d.getLsbD 5 = s.esticky ∧ d.getLsbD 6 = s.overrun ∧ d.getLsbD 7 = s.tlocked ∧ d.extractLsb' 8 4 = s.err ∧
    d.extractLsb' 12 20 = 0) ∧
  ∀ (s : State) (w : Limb), s.busWrite 0x00C 4 w =
    { s with
      done := if w.getLsbD 1 then false else s.done
      esticky := if w.getLsbD 5 then false else s.esticky
      overrun := if w.getLsbD 6 then false else s.overrun
      answer := some (.write .ok) }

/-- O47. R40. -/
def Obligations.CmdWriteIsAcceptedOrDropped : Prop :=
  (∀ (s : State) (w : Limb), s.busy = false → s.busWrite 0x010 4 w =
    { s with
      cmdReg := w, busy := true, done := false, snap := { x := s.x, c := s.c }, answer := some (.write .ok) }) ∧
  (∀ (s : State) (w : Limb), s.busy = true → s.busWrite 0x010 4 w =
    { s with overrun := true, answer := some (.write .ok) }) ∧
  (∀ s : State, s.busRead 0x010 4 = { s with answer := some (.read s.cmdReg .ok) }) ∧ State.reset.cmdReg = 0

/-- O48. R64, R67. -/
def Obligations.RegisterViewLittleEndian : Prop :=
  ∀ (s : State) (r : Reg) (i : Fin 8) (a : BusAddr) (w : Limb), a.toNat = 0x01000 + 32 * r.val + 4 * i.val →
    s.busRead a 4 = { s with answer := some (.read (limb i (regAt s.x r.val)) .ok) } ∧
    (s.busy = true → s.busWrite a 4 w = { s with answer := some (.write .err) }) ∧
    (s.busy = false → ∃ x, s.busWrite a 4 w = { s with x := x, answer := some (.write .ok) } ∧
      limb i (regAt x r.val) = w ∧ (∀ j, j ≠ i → limb j (regAt x r.val) = limb j (regAt s.x r.val)) ∧
      (∀ n, n ≠ r.val → regAt x n = regAt s.x n))

/-- O49. R65, R67. -/
def Obligations.RegisterViewBigEndian : Prop :=
  (∀ (w : Limb) (k : Fin 4), (bswap32 w).extractLsb' (8 * k.val) 8 = w.extractLsb' (24 - 8 * k.val) 8) ∧
  ∀ (s : State) (r : Reg) (i j : Fin 8) (a : BusAddr) (w : Limb), i.val + j.val = 7 →
    a.toNat = 0x01400 + 32 * r.val + 4 * j.val →
    s.busRead a 4 = { s with answer := some (.read (bswap32 (limb i (regAt s.x r.val))) .ok) } ∧
    (s.busy = true → s.busWrite a 4 w = { s with answer := some (.write .err) }) ∧
    (s.busy = false → ∃ x, s.busWrite a 4 w = { s with x := x, answer := some (.write .ok) } ∧
      limb i (regAt x r.val) = bswap32 w ∧ (∀ k, k ≠ i → limb k (regAt x r.val) = limb k (regAt s.x r.val)) ∧
      (∀ n, n ≠ r.val → regAt x n = regAt s.x n))

/-- O50. R66. The canonical form `TableMem.wf`, a premise of the write and kept by it, is the model's choice of log
entry 4; every step keeps it. -/
def Obligations.TableViewReadsAndWrites : Prop :=
  ∀ (s : State) (e : Nat) (i : Fin 8) (a : BusAddr) (w : Limb), e < 2322 → a.toNat = 0x10000 + 32 * e + 4 * i.val →
    s.busRead a 4 = { s with answer := some (.read (limb i (s.tab.entry e)) .ok) } ∧
    (∀ k < 32, (s.tab.entry e).extractLsb' (8 * k) 8 = s.tab.readByte (0x10000 + 32 * e + k)) ∧
    (s.tlocked = true ∨ s.busy = true → s.busWrite a 4 w = { s with answer := some (.write .err) }) ∧
    (s.tlocked = false → s.busy = false → s.tab.wf = true → ∃ m,
      s.busWrite a 4 w = { s with tab := m, answer := some (.write .ok) } ∧ m.wf = true ∧
      limb i (m.entry e) = w ∧ (∀ j, j ≠ i → limb j (m.entry e) = limb j (s.tab.entry e)) ∧
      (∀ e', e' ≠ e → m.entry e' = s.tab.entry e') ∧
      (∀ b, b < a.toNat ∨ a.toNat + 4 ≤ b → m.readByte b = s.tab.readByte b))

/-- O51. R63 with the map of R62, and R68. -/
def Obligations.ReservedMisalignedAndNarrowAccessesAnswerErr : Prop :=
  ∀ (s : State) (a : BusAddr) (size : Nat) (w : Limb),
    (size ≠ 4 ∨ a.toNat % 4 ≠ 0 ∨ (0x014 ≤ a.toNat ∧ a.toNat < 0x1000) ∨ (0x1200 ≤ a.toNat ∧ a.toNat < 0x1400) ∨
      (0x1600 ≤ a.toNat ∧ a.toNat < 0x10000) ∨ 0x22240 ≤ a.toNat) →
    s.busRead a size = { s with answer := some (.read 0 .err) } ∧
    s.busWrite a size w = { s with answer := some (.write .err) }

/-- O52. R69: "Reads have no side effects at any address". -/
def Obligations.ReadsHaveNoSideEffect : Prop :=
  ∀ (s : State) (a : BusAddr) (size : Nat), ∃ d r, s.busRead a size = { s with answer := some (.read d r) } ∧
    (s.busRead a size).busRead a size = s.busRead a size

/-- O53. R67, R75: "No write to any window changes the command in flight"; R314. -/
def Obligations.AccessesWhileBusy : Prop :=
  (∀ (s : State) (a : BusAddr) (size : Nat) (w : Limb), s.busy = true →
    (s.busWrite a size w).x = s.x ∧ (s.busWrite a size w).c = s.c ∧ (s.busWrite a size w).lt = s.lt ∧
    (s.busWrite a size w).eq = s.eq ∧ (s.busWrite a size w).err = s.err ∧ (s.busWrite a size w).tlocked = s.tlocked ∧
    (s.busWrite a size w).tab = s.tab ∧ (s.busWrite a size w).cmdReg = s.cmdReg ∧
    (s.busWrite a size w).snap = s.snap ∧ (s.busWrite a size w).busy = true) ∧
  (∀ (s : State) (a : BusAddr) (size : Nat) (w : Limb), (s.busWrite a size w).answer = some (.write .err) →
    s.busWrite a size w = { s with answer := some (.write .err) })

/-- O54. R77, as one write after another through the model's write of a limb. -/
def Obligations.RegisterRoundTripThroughBothViews : Prop :=
  ∀ (s : State) (r : Reg) (ws : Fin 8 → Limb) (order : List (Fin 8)), s.busy = false → (∀ i, i ∈ order) →
    (∀ i, ((order.foldl (fun t j => (t.writeTarget (ws j) (.regLE r j)).1) s).readTarget (.regLE r i)) = (ws i, .ok)) ∧
    (∀ i, ((order.foldl (fun t j => (t.writeTarget (ws j) (.regBE r j)).1) s).readTarget (.regBE r i)) = (ws i, .ok)) ∧
    (∀ i j : Fin 8, i.val + j.val = 7 →
      ((order.foldl (fun t k => (t.writeTarget (ws k) (.regBE r k)).1) s).readTarget (.regLE r i)) =
        (bswap32 (ws j), .ok))

/-- O55. R320. -/
def Obligations.InterruptFollowsDoneUnderEnable : Prop :=
  (∀ s : State, s.irq = (s.ie && s.done)) ∧
  (∀ (i : Instr) (s t : State), exec i s = .next t → t.irq = s.ie) ∧
  (∀ (s : State) (w : Limb), w.getLsbD 1 = true → (s.busWrite 0x00C 4 w).irq = false) ∧
  (∀ (s : State) (w : Limb), s.busy = false → (s.busWrite 0x010 4 w).irq = false) ∧
  (∀ (s : State) (w : Limb), w.getLsbD 0 = false →
    (s.busWrite 0x008 4 w).irq = false ∧ (s.busWrite 0x008 4 w).done = s.done) ∧
  (∀ (s : State) (w : Limb), w.getLsbD 0 = true → (s.busWrite 0x008 4 w).irq = s.done) ∧
  (∀ (s : State) (w : Limb), s.busy = true → (s.busWrite 0x010 4 w).irq = s.irq)

/-- O56. R39: "cleared only by writing 1", "cleared only by reset". -/
def Obligations.StickyBitsStayUntilCleared : Prop :=
  ∀ s t : State, step s = .next t →
    (s.overrun = true → t.overrun = true ∨ (∃ rest, s.events = .resetLow :: rest) ∨
      ∃ rest w, s.events = .write 0x00C 4 w :: rest ∧ w.getLsbD 6 = true) ∧
    (s.esticky = true → t.esticky = true ∨ (∃ rest, s.events = .resetLow :: rest) ∨
      ∃ rest w, s.events = .write 0x00C 4 w :: rest ∧ w.getLsbD 5 = true) ∧
    (s.tlocked = true → t.tlocked = true ∨ (∃ rest, s.events = .resetLow :: rest))

/-- O57. R43. -/
def Obligations.LockedTablesNeverChange : Prop :=
  (∀ s t : State, step s = .next t → t.tab ≠ s.tab → (∃ rest, s.events = .resetLow :: rest) ∨
    (s.tlocked = false ∧ s.busy = false ∧
      ∃ rest a w, s.events = .write a 4 w :: rest ∧ 0x10000 ≤ a.toNat ∧ a.toNat < 0x22240)) ∧
  (∀ (s : State) (e : Nat) (i : Fin 8) (a : BusAddr) (w : Limb), e < 2322 → a.toNat = 0x10000 + 32 * e + 4 * i.val →
    (s.tlocked = true → s.busWrite a 4 w = { s with answer := some (.write .err) }) ∧
    ∃ d, s.busRead a 4 = { s with answer := some (.read d .ok) })

/-- O58. R35: "No other command reads or writes any flag"; R32, R67, R353. `engineCompletesNext` is the engine's turn
of R316, in the event list of log entry 1. -/
def Obligations.WhoWritesTheRegistersAndFlags : Prop :=
  ∀ s t : State, step s = .next t → (∃ rest, s.events = .resetLow :: rest) ∨
    ((∀ n, regAt t.x n ≠ regAt s.x n →
      (s.rstN = true ∧ s.busy = false ∧ ∃ rest a w, s.events = .write a 4 w :: rest ∧
        ((0x01000 ≤ a.toNat ∧ a.toNat < 0x01200) ∨ (0x01400 ≤ a.toNat ∧ a.toNat < 0x01600))) ∨
      (engineCompletesNext s ∧ t.busy = false ∧ ∃ i, decode s.cmdReg = .ok i ∧ n ∈ i.destinations)) ∧
    (t.c ≠ s.c → engineCompletesNext s ∧ t.busy = false ∧ ∃ i, decode s.cmdReg = .ok i ∧ i.writesCarry = true) ∧
    (t.lt ≠ s.lt ∨ t.eq ≠ s.eq →
      engineCompletesNext s ∧ t.busy = false ∧ ∃ i, decode s.cmdReg = .ok i ∧ i.writesCompare = true))

/-- O59. R47. The values of the snapshot, of the draw counter and of the bus answer are the model's (log entries 2, 3,
13) and not stated. That the values stand right after the low edge, the last clause, is the model's choice of log
entry 12. -/
def Obligations.ResetStateValues : Prop :=
  (∀ n < 16, regAt State.reset.x n = 0) ∧ State.reset.ie = false ∧ State.reset.busy = false ∧
  State.reset.done = false ∧ State.reset.c = false ∧ State.reset.lt = false ∧ State.reset.eq = false ∧
  State.reset.esticky = false ∧ State.reset.overrun = false ∧ State.reset.tlocked = false ∧ State.reset.err = 0 ∧
  (State.reset.busRead 0x010 4).answer = some (.read 0 .ok) ∧
  (State.reset.busRead 0x000 4).answer = some (.read 0x424E3534 .ok) ∧
  (State.reset.busRead 0x004 4).answer = some (.read 0x00010000 .ok) ∧ State.reset.irq = false ∧
  (∀ a, State.reset.tab.readByte a = Config.tableReset State.reset.tab.draw a) ∧
  (∀ (s t : State) (rest : List Event), s.rstN = true → s.events = .resetLow :: rest → step s = .next t →
    (∀ n < 16, regAt t.x n = 0) ∧ t.c = false ∧ t.lt = false ∧ t.eq = false ∧ t.tlocked = false)

/-- O60. R340, R341. The model's choices in it: the values are taken at the low edge (log entry 12), the draws are
numbered (log entry 3), and, through `State.reset`, the contents of the idle snapshot (log entry 2) and no bus answer
(log entry 13); the parameters of R7 stay (log entry 5). -/
def Obligations.ResetAbandonsTheCommandAndClears : Prop :=
  (∀ (s : State) (rest : List Event), s.rstN = true → s.events = .resetLow :: rest → step s = .next
    { State.reset with
      tab := { draw := s.tab.draw + 1, cells := [] }, params := s.params, rstN := false, events := rest }) ∧
  (∀ (s : State) (rest : List Event), s.rstN = false → (s.events = .engine :: rest ∨ s.events = .resetLow :: rest) →
    step s = .next { s with events := rest }) ∧
  (∀ (s : State) (rest : List Event), s.events = .resetHigh :: rest →
    step s = .next { s with rstN := true, events := rest }) ∧
  (∀ s : State, s.busy = false → s.events = [] → step s = .next s)
end

