-- ==== Sys2Proof/Laws/Limbs.lean ====
section
/-! SUPPORT. What the limb datapath computes: each word primitive and vector sub-operation (spec/40_limb_vector.md
R120, R121) as an equation between integers. -/

namespace Sys2Proof.Laws

open Sys2Proof.Machine

/-! ### Word primitives -/

theorem addWithCarry_val (a b : Limb) (c : Bool) :
    (addWithCarry a b c).1.toNat + 2 ^ 32 * (addWithCarry a b c).2.toNat = a.toNat + b.toNat + c.toNat := by
  have ha := a.isLt
  have hb := b.isLt
  have hc : c.toNat ≤ 1 := Bool.toNat_le c
  simp only [addWithCarry, BitVec.toNat_ofNat]
  by_cases h : 2 ^ 32 ≤ a.toNat + b.toNat + c.toNat
  · simp only [h, decide_true, Bool.toNat_true]; omega
  · simp only [h, decide_false, Bool.toNat_false]; omega

theorem subWithBorrow_val (a b : Limb) (c : Bool) :
    (subWithBorrow a b c).1.toNat + b.toNat + c.toNat = a.toNat + 2 ^ 32 * (subWithBorrow a b c).2.toNat := by
  have ha := a.isLt
  have hb := b.isLt
  have hc : c.toNat ≤ 1 := Bool.toNat_le c
  simp only [subWithBorrow, BitVec.toNat_ofNat]
  by_cases h : a.toNat < b.toNat + c.toNat
  · simp only [h, decide_true, Bool.toNat_true]; omega
  · simp only [h, decide_false, Bool.toNat_false]; omega

theorem loHi_val {t : Nat} (h : t < 2 ^ 64) : (loHi t).1.toNat + 2 ^ 32 * (loHi t).2.toNat = t := by
  simp only [loHi, BitVec.toNat_ofNat]
  omega

theorem limb_mul_le (a b : Limb) : a.toNat * b.toNat ≤ (2 ^ 32 - 1) * (2 ^ 32 - 1) :=
  Nat.mul_le_mul (by have := a.isLt; omega) (by have := b.isLt; omega)

theorem mulAddWiden_val (a b c : Limb) :
    (mulAddWiden a b c).1.toNat + 2 ^ 32 * (mulAddWiden a b c).2.toNat = a.toNat * b.toNat + c.toNat :=
  loHi_val (by have := limb_mul_le a b; have := c.isLt; omega)

theorem mulAddAddWiden_val (a b c d : Limb) :
    (mulAddAddWiden a b c d).1.toNat + 2 ^ 32 * (mulAddAddWiden a b c d).2.toNat
      = a.toNat * b.toNat + c.toNat + d.toNat :=
  loHi_val (by have := limb_mul_le a b; have := c.isLt; have := d.isLt; omega)

theorem mulWiden_val (a b : Limb) :
    (mulWiden a b).1.toNat + 2 ^ 32 * (mulWiden a b).2.toNat = a.toNat * b.toNat :=
  loHi_val (by have := limb_mul_le a b; omega)

/-! ### Limb vectors as integers -/

@[simp] theorem limbsVal_nil : limbsVal [] = 0 := rfl

@[simp] theorem limbsVal_cons (a : Limb) (as : List Limb) :
    limbsVal (a :: as) = a.toNat + 2 ^ 32 * limbsVal as := rfl

@[simp] theorem toLimbs_length (n v : Nat) : (toLimbs n v).length = n := by
  induction n generalizing v with
  | zero => rfl
  | succ n ih => simp [toLimbs, ih]

theorem pow32_succ (n : Nat) : 2 ^ (32 * (n + 1)) = 2 ^ 32 * 2 ^ (32 * n) := by
  rw [← pow_add]; congr 1; omega

theorem limbsVal_toLimbs (n v : Nat) : limbsVal (toLimbs n v) = v % 2 ^ (32 * n) := by
  induction n generalizing v with
  | zero => simp [toLimbs, Nat.mod_one]
  | succ n ih => rw [toLimbs, limbsVal_cons, ih, BitVec.toNat_ofNat, pow32_succ, Nat.mod_mul]

theorem limbsVal_lt (l : List Limb) : limbsVal l < 2 ^ (32 * l.length) := by
  induction l with
  | nil => simp
  | cons a as ih =>
    have ha := a.isLt
    rw [List.length_cons, pow32_succ, limbsVal_cons]
    nlinarith [Nat.succ_le_of_lt ih]

theorem limbsVal_append (l m : List Limb) :
    limbsVal (l ++ m) = limbsVal l + 2 ^ (32 * l.length) * limbsVal m := by
  induction l with
  | nil => simp
  | cons a as ih => rw [List.cons_append, limbsVal_cons, ih, limbsVal_cons, List.length_cons, pow32_succ]; ring

theorem limbsVal_take_drop (n : Nat) (l : List Limb) (h : n ≤ l.length) :
    limbsVal l = limbsVal (l.take n) + 2 ^ (32 * n) * limbsVal (l.drop n) := by
  conv_lhs => rw [← List.take_append_drop n l]
  rw [limbsVal_append, List.length_take, Nat.min_eq_left h]

theorem limbsVal_take (n : Nat) (l : List Limb) (h : n ≤ l.length) :
    limbsVal (l.take n) = limbsVal l % 2 ^ (32 * n) := by
  have hlt := limbsVal_lt (l.take n)
  rw [List.length_take, Nat.min_eq_left h] at hlt
  rw [limbsVal_take_drop n l h, Nat.add_mul_mod_self_left, Nat.mod_eq_of_lt hlt]

@[simp] theorem limbs8_length (v : Felt) : (limbs8 v).length = 8 := toLimbs_length 8 _

@[simp] theorem limbsVal_limbs8 (v : Felt) : limbsVal (limbs8 v) = v.toNat := by
  rw [limbs8, limbsVal_toLimbs]; exact Nat.mod_eq_of_lt v.isLt

@[simp] theorem toNat_ofLimbs (l : List Limb) : (ofLimbs l).toNat = limbsVal l % 2 ^ 256 := by
  rw [ofLimbs, BitVec.toNat_ofNat]

/-! ### Vector sub-operations -/

/-- R121: vadd is the exact sum, its top bit the carry out. -/
theorem vadd_val (a b : List Limb) (c : Bool) (h : a.length = b.length) :
    limbsVal (vadd a b c).1 + 2 ^ (32 * a.length) * (vadd a b c).2.toNat
      = limbsVal a + limbsVal b + c.toNat := by
  induction a generalizing b c with
  | nil => cases b <;> simp_all [vadd]
  | cons x xs ih =>
    cases b with
    | nil => simp at h
    | cons y ys =>
      have hw := addWithCarry_val x y c
      have hr := ih ys (addWithCarry x y c).2 (by simpa using h)
      simp only [vadd, limbsVal_cons, List.length_cons, pow32_succ]
      nlinarith

theorem vadd_length (a b : List Limb) (c : Bool) (h : a.length = b.length) :
    (vadd a b c).1.length = a.length := by
  induction a generalizing b c with
  | nil => cases b <;> simp_all [vadd]
  | cons x xs ih =>
    cases b with
    | nil => simp at h
    | cons y ys => simpa [vadd] using ih ys (addWithCarry x y c).2 (by simpa using h)

/-- R121: vsub is the exact difference, its top bit the borrow out. -/
theorem vsub_val (a b : List Limb) (c : Bool) (h : a.length = b.length) :
    limbsVal (vsub a b c).1 + limbsVal b + c.toNat
      = limbsVal a + 2 ^ (32 * a.length) * (vsub a b c).2.toNat := by
  induction a generalizing b c with
  | nil => cases b <;> simp_all [vsub]
  | cons x xs ih =>
    cases b with
    | nil => simp at h
    | cons y ys =>
      have hw := subWithBorrow_val x y c
      have hr := ih ys (subWithBorrow x y c).2 (by simpa using h)
      simp only [vsub, limbsVal_cons, List.length_cons, pow32_succ]
      nlinarith

theorem vsub_length (a b : List Limb) (c : Bool) (h : a.length = b.length) :
    (vsub a b c).1.length = a.length := by
  induction a generalizing b c with
  | nil => cases b <;> simp_all [vsub]
  | cons x xs ih =>
    cases b with
    | nil => simp at h
    | cons y ys => simpa [vsub] using ih ys (subWithBorrow x y c).2 (by simpa using h)

/-- R121: the short-circuiting comparison equals the integer comparison. -/
theorem vcmp_eq_compare (a b : List Limb) (h : a.length = b.length) :
    vcmp a b = compare (limbsVal a) (limbsVal b) := by
  induction a generalizing b with
  | nil => cases b <;> simp_all [vcmp]
  | cons x xs ih =>
    cases b with
    | nil => simp at h
    | cons y ys =>
      have hx := x.isLt
      have hy := y.isLt
      simp only [vcmp, ih ys (by simpa using h), limbsVal_cons]
      rcases lt_trichotomy (limbsVal xs) (limbsVal ys) with hlt | heq | hgt
      · rw [compare_lt_iff_lt.2 hlt, eq_comm, compare_lt_iff_lt]; omega
      · rw [compare_eq_iff_eq.2 heq, heq]
        rcases lt_trichotomy x.toNat y.toNat with h1 | h1 | h1
        · simp only [compare_lt_iff_lt.2 h1]; rw [eq_comm, compare_lt_iff_lt]; omega
        · simp only [h1]
          rw [compare_eq_iff_eq.2 rfl, compare_eq_iff_eq.2 rfl]
        · simp only [compare_gt_iff_gt.2 h1]; rw [eq_comm, compare_gt_iff_gt]; omega
      · rw [compare_gt_iff_gt.2 hgt, eq_comm, compare_gt_iff_gt]; omega

theorem scaleFrom_val (c s : Limb) (a : List Limb) :
    limbsVal (scaleFrom c s a) = limbsVal a * s.toNat + c.toNat := by
  induction a generalizing c with
  | nil => simp [scaleFrom]
  | cons x xs ih =>
    have hw := mulAddWiden_val x s c
    simp only [scaleFrom, limbsVal_cons, ih]
    nlinarith

/-- R121: scale(a, s) = a·s exactly. -/
theorem scale_val (a : List Limb) (s : Limb) : limbsVal (scale a s) = limbsVal a * s.toNat := by
  simp [scale, scaleFrom_val]

theorem scaleAddFrom_spec (c : Limb) (w a : List Limb) (s : Limb) (h : w.length = a.length) :
    limbsVal (scaleAddFrom c w a s) = limbsVal w + limbsVal a * s.toNat + c.toNat
      ∧ (scaleAddFrom c w a s).length = a.length + 1 := by
  induction a generalizing c w with
  | nil => cases w <;> simp_all [scaleAddFrom]
  | cons x xs ih =>
    cases w with
    | nil => simp at h
    | cons y ys =>
      have hw := mulAddAddWiden_val x s y c
      have hr := ih (mulAddAddWiden x s y c).2 ys (by simpa using h)
      simp only [scaleAddFrom, limbsVal_cons, List.length_cons]
      exact ⟨by rw [hr.1]; nlinarith, by rw [hr.2]⟩

/-- R121: scale_add(acc, a, s) = acc + a·s exactly, one limb longer. -/
theorem scaleAdd_spec (w a : List Limb) (s : Limb) (h : w.length = a.length) :
    limbsVal (scaleAdd w a s) = limbsVal w + limbsVal a * s.toNat ∧ (scaleAdd w a s).length = a.length + 1 := by
  simpa [scaleAdd] using scaleAddFrom_spec 0 w a s h

theorem multiplyFrom_spec (win a b : List Limb) (h : win.length = a.length) :
    limbsVal (multiplyFrom win a b) = limbsVal win + limbsVal a * limbsVal b
      ∧ (multiplyFrom win a b).length = a.length + b.length := by
  induction b generalizing win with
  | nil => simp [multiplyFrom, h]
  | cons y ys ih =>
    obtain ⟨hv, hl⟩ := scaleAdd_spec win a y h
    cases hs : scaleAdd win a y with
    | nil => rw [hs] at hl; simp at hl
    | cons v0 rest =>
      rw [hs] at hv hl
      obtain ⟨ihv, ihl⟩ := ih rest (by simpa using hl)
      simp only [multiplyFrom, hs, limbsVal_cons, List.length_cons, ihv, ihl] at hv ⊢
      exact ⟨by nlinarith, by omega⟩

theorem limbsVal_zeros (l : List Limb) : limbsVal (l.map fun _ => (0 : Limb)) = 0 := by
  induction l with
  | nil => rfl
  | cons a as ih => simp only [List.map_cons, limbsVal_cons, ih]; rfl

/-- R121: multiply(a, b) = a·b exactly, N+M limbs. -/
theorem multiply_spec (a b : List Limb) :
    limbsVal (multiply a b) = limbsVal a * limbsVal b ∧ (multiply a b).length = a.length + b.length := by
  have h := multiplyFrom_spec (a.map fun _ => 0) a b (by simp)
  rw [limbsVal_zeros, Nat.zero_add] at h
  exact h

/-! ### The 256-bit operations -/

/-- R121, R122: the 256-bit sum and its carry out. -/
theorem add256_spec (a b : Felt) (c : Bool) :
    (add256 a b c).1.toNat = (a.toNat + b.toNat + c.toNat) % 2 ^ 256
      ∧ (add256 a b c).2 = decide (2 ^ 256 ≤ a.toNat + b.toNat + c.toNat) := by
  have h := vadd_val (limbs8 a) (limbs8 b) c (by simp)
  have hl := limbsVal_lt (vadd (limbs8 a) (limbs8 b) c).1
  rw [vadd_length _ _ _ (by simp)] at hl
  simp only [limbs8_length, limbsVal_limbs8] at h hl
  simp only [add256, toNat_ofLimbs]
  generalize (vadd (limbs8 a) (limbs8 b) c).2 = cc at *
  cases cc <;> simp only [Bool.toNat_false, Bool.toNat_true] at h
  · exact ⟨by omega, by rw [eq_comm, decide_eq_false_iff_not]; omega⟩
  · exact ⟨by omega, by rw [eq_comm, decide_eq_true_iff]; omega⟩

/-- R121, R123: the 256-bit difference and its borrow out. -/
theorem sub256_spec (a b : Felt) (c : Bool) :
    (sub256 a b c).1.toNat = (a.toNat + 2 ^ 256 - (b.toNat + c.toNat)) % 2 ^ 256
      ∧ (sub256 a b c).2 = decide (a.toNat < b.toNat + c.toNat) := by
  have h := vsub_val (limbs8 a) (limbs8 b) c (by simp)
  have hl := limbsVal_lt (vsub (limbs8 a) (limbs8 b) c).1
  have hb := b.isLt
  have ha := a.isLt
  have hc : c.toNat ≤ 1 := Bool.toNat_le c
  rw [vsub_length _ _ _ (by simp)] at hl
  simp only [limbs8_length, limbsVal_limbs8] at h hl
  simp only [sub256, toNat_ofLimbs]
  generalize (vsub (limbs8 a) (limbs8 b) c).2 = cc at *
  cases cc <;> simp only [Bool.toNat_false, Bool.toNat_true] at h
  · exact ⟨by omega, by rw [eq_comm, decide_eq_false_iff_not]; omega⟩
  · exact ⟨by omega, by rw [eq_comm, decide_eq_true_iff]; omega⟩

/-- R121, R124: the 256-bit comparison. -/
theorem cmp256_eq_compare (a b : Felt) : cmp256 a b = compare a.toNat b.toNat := by
  rw [cmp256, vcmp_eq_compare _ _ (by simp), limbsVal_limbs8, limbsVal_limbs8]

theorem cmp256_eq_lt (a b : Felt) : cmp256 a b = .lt ↔ a.toNat < b.toNat := by
  rw [cmp256_eq_compare, compare_lt_iff_lt]

theorem cmp256_eq_eq (a b : Felt) : cmp256 a b = .eq ↔ a = b := by
  rw [cmp256_eq_compare, compare_eq_iff_eq, BitVec.toNat_inj]

theorem pLimbs_val : limbsVal Config.pLimbs = Config.p := by decide

@[simp] theorem pFelt_toNat : pFelt.toNat = Config.p := by decide

theorem p_lt_pow254 : Config.p < 2 ^ 254 := by decide

end Sys2Proof.Laws
end

