-- ==== Sys2Proof/Laws/Redc.lean ====
section
/-! SUPPORT. The REDC datapath (spec/41_montgomery.md R151) computes REDC as R150 defines it, for every 512-bit input,
and never carries beyond limb 16 (R152). -/

namespace Sys2Proof.Laws

open Sys2Proof.Machine

theorem ripple_val (c : Bool) (a : List Limb) :
    limbsVal (propagateCarry.ripple c a).1 + 2 ^ (32 * a.length) * (propagateCarry.ripple c a).2.toNat
        = limbsVal a + c.toNat
      ∧ (propagateCarry.ripple c a).1.length = a.length := by
  induction a generalizing c with
  | nil => simp [propagateCarry.ripple]
  | cons x xs ih =>
    have hw := addWithCarry_val x 0 c
    have hr := ih (addWithCarry x 0 c).2
    simp only [propagateCarry.ripple, limbsVal_cons, List.length_cons, pow32_succ, hr.2, and_true]
    have h0 : (0 : Limb).toNat = 0 := rfl
    nlinarith

theorem propagateCarry_val (c : Limb) (a : List Limb) (h : a ≠ []) :
    limbsVal (propagateCarry c a).1 + 2 ^ (32 * a.length) * (propagateCarry c a).2.toNat = limbsVal a + c.toNat
      ∧ (propagateCarry c a).1.length = a.length := by
  cases a with
  | nil => exact absurd rfl h
  | cons x xs =>
    have hw := addWithCarry_val x c false
    have hr := ripple_val (addWithCarry x c false).2 xs
    simp only [propagateCarry, limbsVal_cons, List.length_cons, pow32_succ, hr.2, and_true]
    simp only [Bool.toNat_false] at hw
    nlinarith

/-- R151: an iteration's row adds m·p exactly; its top bit is the carry beyond the accumulator. -/
theorem addRow_val (m c : Limb) (ps a : List Limb) (h : ps.length < a.length) :
    limbsVal (addRow m c ps a).1 + 2 ^ (32 * a.length) * (addRow m c ps a).2.toNat
        = limbsVal a + m.toNat * limbsVal ps + c.toNat
      ∧ (addRow m c ps a).1.length = a.length := by
  induction ps generalizing c a with
  | nil =>
    have hne : a ≠ [] := by rintro rfl; simp at h
    simpa [addRow] using propagateCarry_val c a hne
  | cons y ys ih =>
    cases a with
    | nil => simp at h
    | cons x xs =>
      have hw := mulAddAddWiden_val m y x c
      have hr := ih (mulAddAddWiden m y x c).2 xs (by simpa using h)
      simp only [addRow, limbsVal_cons, List.length_cons, pow32_succ, hr.2, and_true]
      nlinarith

/-- R151: "After iteration i, limb A[i] is 0": the low limb plus m·p vanishes modulo 2^32. -/
theorem redc_digit (a v : Nat) :
    (a % 2 ^ 32 + 2 ^ 32 * v + (a % 2 ^ 32 * Config.q.toNat % 2 ^ 32) * Config.p) % 2 ^ 32 = 0 := by
  have hp : Config.p = 2 ^ 32 * (Config.p / 2 ^ 32) + 0xf0000001 := by decide
  have hq : Config.q.toNat = 0xefffffff := by decide
  rw [hq, hp]
  generalize Config.p / 2 ^ 32 = k
  generalize a % 2 ^ 32 = x
  have hm : x * 0xefffffff = 2 ^ 32 * (x * 0xefffffff / 2 ^ 32) + x * 0xefffffff % 2 ^ 32 := (Nat.div_add_mod _ _).symm
  generalize x * 0xefffffff / 2 ^ 32 = d at hm
  generalize x * 0xefffffff % 2 ^ 32 = m at hm ⊢
  have hmk : m * (2 ^ 32 * k + 0xf0000001) = 2 ^ 32 * (m * k) + 0xf0000001 * m := by ring
  rw [hmk]
  omega

/-- R151, R152: the loop's invariant. It never carries out, and it adds the M of R150. -/
theorem redcLoop_spec (n : Nat) (acc : List Limb) (hl : acc.length = n + 9)
    (hb : limbsVal acc + Config.p * 2 ^ (32 * n) < 2 ^ (32 * (n + 9)) + Config.p) :
    ∃ top M, redcLoop n acc = .ok top ∧ top.length = 9 ∧ M < 2 ^ (32 * n)
      ∧ limbsVal acc + M * Config.p = 2 ^ (32 * n) * limbsVal top := by
  induction n generalizing acc with
  | zero => exact ⟨acc, 0, rfl, hl, by simp, by simp⟩
  | succ n ih =>
    cases acc with
    | nil => simp at hl
    | cons a rest =>
      obtain ⟨hv, hrl⟩ := addRow_val (mulTrunc a Config.q) 0 Config.pLimbs (a :: rest)
        (by rw [hl]; show 8 < _; omega)
      rw [hl, pLimbs_val] at hv
      rw [hl] at hrl
      have ha := a.isLt
      have hdig := redc_digit a.toNat (limbsVal rest)
      rw [Nat.mod_eq_of_lt ha] at hdig
      have hm : (mulTrunc a Config.q).toNat = a.toNat * Config.q.toNat % 2 ^ 32 := by
        simp [mulTrunc]
      rw [← hm] at hdig
      have hmlt := (mulTrunc a Config.q).isLt
      have h0 : (0 : Limb).toNat = 0 := rfl
      rw [h0, Nat.add_zero] at hv
      have hstep : ∀ k : Nat, 2 ^ (32 * (k + 1)) = 2 ^ 32 * 2 ^ (32 * k) := pow32_succ
      have hnp : 0 < 2 ^ (32 * n) := by positivity
      rw [show n + 1 + 9 = (n + 9) + 1 by ring, hstep (n + 9)] at hb hv
      rw [hstep n] at hb
      have hmp : (mulTrunc a Config.q).toNat * Config.p + Config.p ≤ 2 ^ 32 * Config.p := by
        have := Nat.mul_le_mul_right Config.p (show (mulTrunc a Config.q).toNat + 1 ≤ 2 ^ 32 by omega)
        nlinarith
      have hpn : Config.p ≤ Config.p * 2 ^ (32 * n) := Nat.le_mul_of_pos_right _ hnp
      cases hc : (addRow (mulTrunc a Config.q) 0 Config.pLimbs (a :: rest)).2 with
      | true =>
        exfalso
        rw [hc, Bool.toNat_true, Nat.mul_one] at hv
        have : 2 ^ 32 * Config.p ≤ Config.p * (2 ^ 32 * 2 ^ (32 * n)) := by nlinarith
        omega
      | false =>
        rw [hc, Bool.toNat_false, Nat.mul_zero, Nat.add_zero] at hv
        cases hrow : (addRow (mulTrunc a Config.q) 0 Config.pLimbs (a :: rest)).1 with
        | nil => rw [hrow] at hrl; simp at hrl
        | cons z tail =>
          rw [hrow, limbsVal_cons] at hv
          rw [hrow] at hrl
          rw [limbsVal_cons] at hv hb
          have hz := z.isLt
          have hz0 : z.toNat = 0 := by omega
          rw [hz0, Nat.zero_add] at hv
          obtain ⟨top, M, h1, h2, h3, h4⟩ := ih tail (by simpa using hrl) (by nlinarith)
          refine ⟨top, (mulTrunc a Config.q).toNat + 2 ^ 32 * M, ?_, h2, ?_, ?_⟩
          · simp only [redcLoop, hc, Bool.false_eq_true, if_false, hrow, List.tail_cons]; exact h1
          · rw [hstep n]; nlinarith
          · rw [hstep n, limbsVal_cons]; nlinarith

theorem redcFinal_val (t : List Limb) (hl : t.length = 9) (hb : limbsVal t < 2 ^ 256 + Config.p) :
    limbsVal (redcFinal t) = if Config.p ≤ limbsVal t then limbsVal t - Config.p else limbsVal t := by
  have hp9 : limbsVal (Config.pLimbs ++ [0]) = Config.p := by decide
  have hlen : (Config.pLimbs ++ [0] : List Limb).length = 9 := by decide
  have hlt := p_lt_pow254
  have hcmp := vcmp_eq_compare t (Config.pLimbs ++ [0]) (by rw [hl, hlen])
  rw [hp9] at hcmp
  unfold redcFinal
  simp only [hcmp, ne_eq, compare_lt_iff_lt, not_lt]
  split
  · have hv := vsub_val t (Config.pLimbs ++ [0]) false (by rw [hl, hlen])
    have hvl := vsub_length t (Config.pLimbs ++ [0]) false (by rw [hl, hlen])
    have hv2 := limbsVal_lt (vsub t (Config.pLimbs ++ [0]) false).1
    rw [hp9, hl, Bool.toNat_false] at hv
    rw [hvl, hl] at hv2
    rw [limbsVal_take 8 _ (by rw [hvl, hl]; omega)]
    cases hc : (vsub t (Config.pLimbs ++ [0]) false).2 <;>
      simp only [hc, Bool.toNat_false, Bool.toNat_true] at hv <;> omega
  · rw [limbsVal_take 8 _ (by rw [hl]; omega)]
    exact Nat.mod_eq_of_lt (by omega)

/-- R150 to R152: the pipeline answers, for every 16-limb input, and its answer is REDC. -/
theorem redcLimbs_spec (t : List Limb) (hl : t.length = 16) :
    ∃ r, redcLimbs t = .ok r ∧ IsRedc (limbsVal t) r.toNat := by
  have hp := p_lt_pow254
  have hT := limbsVal_lt t
  rw [hl] at hT
  have happ : limbsVal (t ++ [0]) = limbsVal t := by rw [limbsVal_append]; simp
  obtain ⟨top, M, h1, h2, h3, h4⟩ := redcLoop_spec 8 (t ++ [0]) (by simp [hl]) (by
    rw [happ]
    refine Nat.lt_of_lt_of_le (Nat.add_lt_add hT (Nat.mul_lt_mul_of_pos_right hp (by positivity))) ?_
    rw [show (2 : Nat) ^ (32 * (8 + 9)) = 2 ^ 32 * 2 ^ (32 * 16) by rw [← pow_add],
      show (2 : Nat) ^ 254 * 2 ^ (32 * 8) = 2 ^ 510 by rw [← pow_add]]
    have : (2 : Nat) ^ 510 ≤ 2 ^ (32 * 16) := Nat.pow_le_pow_right (by decide) (by decide)
    omega)
  rw [happ] at h4
  have hbound : limbsVal top < 2 ^ 256 + Config.p := by
    have : M * Config.p < 2 ^ 256 * Config.p := Nat.mul_lt_mul_of_pos_right h3 (by decide)
    have h5 : 2 ^ 256 * limbsVal top < 2 ^ 256 * (2 ^ 256 + Config.p) := by
      rw [show 2 ^ 256 * limbsVal top = 2 ^ (32 * 8) * limbsVal top from rfl, ← h4, Nat.mul_add,
        show 2 ^ 256 * 2 ^ 256 = 2 ^ (32 * 16) by rw [← pow_add]]
      exact Nat.add_lt_add hT this
    exact Nat.lt_of_mul_lt_mul_left h5
  refine ⟨ofLimbs (redcFinal top), by rw [redcLimbs, h1]; rfl, M, h3, ?_, ?_⟩
  · rw [h4]; exact Nat.mul_mod_right _ _
  · have hdiv : (limbsVal t + M * Config.p) / 2 ^ 256 = limbsVal top := by
      rw [h4]; exact Nat.mul_div_cancel_left _ (by positivity)
    rw [hdiv, toNat_ofLimbs, redcFinal_val top h2 hbound]
    apply Nat.mod_eq_of_lt
    split <;> omega

end Sys2Proof.Laws
end

