-- ==== Sys2Proof/Laws/Field.lean ====
section
/-! SUPPORT. What the field datapaths compute: one spec lemma per shared operation (spec/41_montgomery.md R153 to R159,
spec/42_modular_addsub.md R180 to R188). -/

namespace Sys2Proof.Laws

open Sys2Proof.Machine

/-- A run that has a result goes on with it. -/
@[simp] theorem ok_bind {ε α β : Type} (a : α) (f : α → Except ε β) : (Except.ok a >>= f) = f a := rfl

/-- A run that ends in an error ends there. -/
@[simp] theorem error_bind {ε α β : Type} (e : ε) (f : α → Except ε β) : (Except.error e >>= f) = .error e := rfl

theorem p_pos : 0 < Config.p := by decide

theorem radix_mul_rInv : 2 ^ 256 * rInv ≡ 1 [MOD Config.p] := by decide +kernel

/-- R150: REDC(T) ≡ T·R⁻¹ (mod p). -/
theorem isRedc_modEq {T r : Nat} (h : IsRedc T r) : r ≡ T * rInv [MOD Config.p] := by
  obtain ⟨M, -, hdiv, hr⟩ := h
  have hq : 2 ^ 256 * ((T + M * Config.p) / 2 ^ 256) = T + M * Config.p := Nat.mul_div_cancel' (Nat.dvd_of_mod_eq_zero hdiv)
  generalize (T + M * Config.p) / 2 ^ 256 = t at hq hr
  have hrt : r ≡ t [MOD Config.p] := by
    rw [hr]
    split
    · next hle => exact (Nat.modEq_iff_dvd' (Nat.sub_le _ _)).2 ⟨1, by omega⟩
    · exact Nat.ModEq.refl _
  have h1 : 2 ^ 256 * t ≡ T [MOD Config.p] := by
    rw [hq]; simp [Nat.ModEq, Nat.add_mul_mod_self_right]
  calc r ≡ t [MOD Config.p] := hrt
    _ = 1 * t := (Nat.one_mul t).symm
    _ ≡ 2 ^ 256 * rInv * t [MOD Config.p] := (radix_mul_rInv.symm).mul_right t
    _ = 2 ^ 256 * t * rInv := by ring
    _ ≡ T * rInv [MOD Config.p] := h1.mul_right rInv

/-- R150: if T < p·R the result is the canonical residue. -/
theorem isRedc_lt {T r : Nat} (h : IsRedc T r) (hT : T < Config.p * 2 ^ 256) : r < Config.p := by
  obtain ⟨M, hM, -, hr⟩ := h
  have hMp : M * Config.p < 2 ^ 256 * Config.p := Nat.mul_lt_mul_of_pos_right hM p_pos
  have ht : (T + M * Config.p) / 2 ^ 256 < 2 * Config.p := by
    rw [Nat.div_lt_iff_lt_mul (by positivity)]; nlinarith
  rw [hr]
  split <;> omega

theorem isRedc_eq {T r : Nat} (h : IsRedc T r) (hT : T < Config.p * 2 ^ 256) : r = T * rInv % Config.p := by
  have := isRedc_modEq h
  rwa [Nat.ModEq, Nat.mod_eq_of_lt (isRedc_lt h hT)] at this

/-! ### The pipeline on registers -/

/-- R153: the raw reduction of cat(hi, lo). -/
theorem redcPipeline_spec (lo hi : Felt) :
    ∃ r, redcPipeline lo hi = .ok r ∧ IsRedc (hi.toNat * 2 ^ 256 + lo.toNat) r.toNat := by
  obtain ⟨r, h1, h2⟩ := redcLimbs_spec (limbs8 lo ++ limbs8 hi) (by simp)
  refine ⟨r, h1, ?_⟩
  rw [limbsVal_append, limbs8_length, limbsVal_limbs8, limbsVal_limbs8] at h2
  rw [show hi.toNat * 2 ^ 256 + lo.toNat = lo.toNat + 2 ^ (32 * 8) * hi.toNat by rw [Nat.mul_comm, Nat.add_comm]]
  exact h2

theorem mmulPath_isRedc (a b : Felt) : ∃ r, mmulPath a b = .ok r ∧ IsRedc (a.toNat * b.toNat) r.toNat := by
  obtain ⟨hv, hl⟩ := multiply_spec (limbs8 a) (limbs8 b)
  obtain ⟨r, h1, h2⟩ := redcLimbs_spec (multiply (limbs8 a) (limbs8 b)) (by simp [hl])
  refine ⟨r, h1, ?_⟩
  rwa [hv, limbsVal_limbs8, limbsVal_limbs8] at h2

theorem mul_lt_redc_bound {a b : Felt} (h : Canonical a ∨ Canonical b) : a.toNat * b.toNat < Config.p * 2 ^ 256 := by
  have ha := a.isLt
  have hb := b.isLt
  rcases h with h | h
  · exact Nat.mul_lt_mul'' h hb
  · rw [Nat.mul_comm]; exact Nat.mul_lt_mul'' h ha

/-- R154: the Montgomery product, whenever one operand is canonical. -/
theorem mmulPath_spec (a b : Felt) (h : Canonical a ∨ Canonical b) :
    ∃ r, mmulPath a b = .ok r ∧ r.toNat = a.toNat * b.toNat * rInv % Config.p ∧ Canonical r := by
  obtain ⟨r, h1, h2⟩ := mmulPath_isRedc a b
  have hT := mul_lt_redc_bound h
  exact ⟨r, h1, isRedc_eq h2 hT, isRedc_lt h2 hT⟩

/-- R155: square has no path of its own. -/
theorem msqrPath_eq (a : Felt) : msqrPath a = mmulPath a a := rfl

/-- R157: conversion out of the Montgomery domain, for any register value. -/
theorem frommontPath_spec (a : Felt) :
    ∃ r, frommontPath a = .ok r ∧ r.toNat = montVal a.toNat ∧ Canonical r := by
  obtain ⟨r, h1, h2⟩ := redcPipeline_spec a 0
  have h0 : (0 : Felt).toNat = 0 := rfl
  rw [h0, Nat.zero_mul, Nat.zero_add] at h2
  have hT : a.toNat < Config.p * 2 ^ 256 :=
    Nat.lt_of_lt_of_le a.isLt (Nat.le_mul_of_pos_left _ p_pos)
  exact ⟨r, h1, by rw [montVal]; exact isRedc_eq h2 hT, isRedc_lt h2 hT⟩

theorem r2_canonical : Canonical Config.r2 := by decide
theorem r3_canonical : Canonical Config.r3 := by decide

theorem r2_mul_rInv : Config.r2.toNat * rInv ≡ 2 ^ 256 [MOD Config.p] := by decide +kernel
theorem r3_mul_rInv : Config.r3.toNat * rInv ≡ 2 ^ 512 [MOD Config.p] := by decide +kernel

/-- R156: conversion into the Montgomery domain. -/
theorem tomontPath_spec (a : Felt) :
    ∃ r, tomontPath a = .ok r ∧ r.toNat = a.toNat * 2 ^ 256 % Config.p ∧ Canonical r := by
  have hk := r2_mul_rInv
  obtain ⟨r, h1, h2, h3⟩ := mmulPath_spec a Config.r2 (Or.inr r2_canonical)
  refine ⟨r, h1, ?_, h3⟩
  rw [h2, Nat.mul_assoc]
  generalize Config.r2.toNat * rInv = k at hk
  exact hk.mul_left a.toNat

/-- R158: the two reductions give the canonical product. -/
theorem fmulPath_spec (a b : Felt) (h : Canonical a ∨ Canonical b) :
    ∃ r, fmulPath a b = .ok r ∧ r.toNat = a.toNat * b.toNat % Config.p ∧ Canonical r := by
  obtain ⟨t, h1, h2, h3⟩ := mmulPath_spec a b h
  obtain ⟨r, h4, h5, h6⟩ := mmulPath_spec t Config.r2 (Or.inl h3)
  refine ⟨r, by rw [fmulPath, h1, ok_bind, h4], ?_, h6⟩
  rw [h5, h2, Nat.mul_assoc]
  calc a.toNat * b.toNat * rInv % Config.p * (Config.r2.toNat * rInv)
      ≡ a.toNat * b.toNat * rInv * 2 ^ 256 [MOD Config.p] := (Nat.mod_modEq _ _).mul r2_mul_rInv
    _ = a.toNat * b.toNat * (2 ^ 256 * rInv) := by ring
    _ ≡ a.toNat * b.toNat * 1 [MOD Config.p] := radix_mul_rInv.mul_left _
    _ = a.toNat * b.toNat := Nat.mul_one _

/-- R159. -/
theorem fsqrPath_eq (a : Felt) : fsqrPath a = fmulPath a a := rfl

/-! ### Modular add, subtract, negate, halve -/

theorem isCanonical_iff (v : Felt) : isCanonical v = true ↔ Canonical v := by
  rw [isCanonical, decide_eq_true_iff, cmp256_eq_lt, pFelt_toNat]

theorem half_val : Config.half.toNat = (Config.p + 1) / 2 := by decide

/-- R182: on canonical operands, the sum modulo p. -/
theorem modadd_spec (a b : Felt) (ha : Canonical a) (hb : Canonical b) :
    (modadd a b).toNat = (a.toNat + b.toNat) % Config.p ∧ Canonical (modadd a b) := by
  have hp := p_lt_pow254
  obtain ⟨hs, hc⟩ := add256_spec a b false
  obtain ⟨hd, -⟩ := sub256_spec (add256 a b false).1 pFelt false
  unfold Canonical at *
  simp only [Bool.toNat_false, Nat.add_zero, pFelt_toNat] at hs hc hd
  have hcf : (add256 a b false).2 = false := by rw [hc, decide_eq_false_iff_not]; omega
  have hs' : (add256 a b false).1.toNat = a.toNat + b.toNat := by rw [hs]; exact Nat.mod_eq_of_lt (by omega)
  unfold modadd
  simp only [hcf, Bool.false_eq_true, false_or, ne_eq, cmp256_eq_lt, pFelt_toNat, hs']
  generalize Config.p = p at *
  split
  · rw [hd, hs']
    constructor
    · rw [Nat.mod_eq_sub_mod (show p ≤ a.toNat + b.toNat by omega), Nat.mod_eq_of_lt (show a.toNat + b.toNat - p < p by omega)]
      omega
    · omega
  · rw [hs']
    exact ⟨(Nat.mod_eq_of_lt (by omega)).symm, by omega⟩

/-- R184: on canonical operands, the difference modulo p. -/
theorem modsub_spec (a b : Felt) (ha : Canonical a) (hb : Canonical b) :
    (modsub a b).toNat = (a.toNat + Config.p - b.toNat) % Config.p ∧ Canonical (modsub a b) := by
  have hp := p_lt_pow254
  obtain ⟨hd, hbo⟩ := sub256_spec a b false
  obtain ⟨hs, -⟩ := add256_spec (sub256 a b false).1 pFelt false
  unfold Canonical at *
  simp only [Bool.toNat_false, Nat.add_zero, pFelt_toNat] at hs hd hbo
  unfold modsub
  simp only [hbo, decide_eq_true_eq]
  generalize Config.p = p at *
  split
  · rw [hs, hd]
    constructor
    · rw [Nat.mod_eq_of_lt (show a.toNat + p - b.toNat < p by omega)]; omega
    · omega
  · rw [hd]
    constructor
    · rw [show a.toNat + p - b.toNat = a.toNat - b.toNat + p by omega, Nat.add_mod_right,
        Nat.mod_eq_of_lt (show a.toNat - b.toNat < p by omega)]
      omega
    · omega

/-- R186: on a canonical operand, the negative modulo p. -/
theorem modneg_spec (a : Felt) (ha : Canonical a) :
    (modneg a).toNat = (Config.p - a.toNat) % Config.p ∧ Canonical (modneg a) := by
  have hp := p_lt_pow254
  obtain ⟨hd, -⟩ := sub256_spec pFelt a false
  unfold Canonical at *
  simp only [Bool.toNat_false, Nat.add_zero, pFelt_toNat] at hd
  unfold modneg
  split
  · next h => subst h; exact ⟨by decide, by decide⟩
  · next h =>
    have h0 : a.toNat ≠ 0 := fun h' => h (BitVec.eq_of_toNat_eq h')
    rw [hd]
    generalize Config.p = p at *
    exact ⟨by rw [Nat.mod_eq_of_lt (show p - a.toNat < p by omega)]; omega, by omega⟩

/-- R187: on a canonical operand, half of it modulo p: twice the result is the operand. -/
theorem modhalf_spec (a : Felt) (ha : Canonical a) :
    2 * (modhalf a).toNat % Config.p = a.toNat ∧ Canonical (modhalf a)
      ∧ (modhalf a).toNat = if a.toNat % 2 = 0 then a.toNat / 2 else (a.toNat + Config.p) / 2 := by
  have hp := p_lt_pow254
  have hodd : Config.p % 2 = 1 := by decide
  have hsh : (a >>> 1).toNat = a.toNat / 2 := by rw [BitVec.toNat_ushiftRight, Nat.shiftRight_one]
  obtain ⟨hs, -⟩ := add256_spec (a >>> 1) Config.half false
  rw [hsh, half_val] at hs
  unfold Canonical at *
  simp only [Bool.toNat_false, Nat.add_zero] at hs
  have hbit : a.getLsbD 0 = decide (a.toNat % 2 = 1) := by
    rw [BitVec.getLsbD, Nat.testBit_zero]
  unfold modhalf
  simp only [hbit, decide_eq_true_eq]
  generalize Config.p = p at *
  split
  · next h =>
    rw [hs, if_neg (by omega)]
    refine ⟨?_, by omega, by omega⟩
    rw [Nat.mod_eq_of_lt (show a.toNat / 2 + (p + 1) / 2 < 2 ^ 256 by omega),
      show 2 * (a.toNat / 2 + (p + 1) / 2) = a.toNat + p by omega, Nat.add_mod_right, Nat.mod_eq_of_lt ha]
  · next h =>
    rw [hsh, if_pos (by omega)]
    refine ⟨?_, by omega, rfl⟩
    rw [Nat.mod_eq_of_lt (by omega)]; omega

/-! ### The range check (R180) -/

theorem rangeCheck_ok (l : List Felt) (h : ∀ v ∈ l, Canonical v) : rangeCheck l = .ok () := by
  induction l with
  | nil => rfl
  | cons a as ih =>
    rw [rangeCheck, if_pos ((isCanonical_iff a).2 (h a (by simp)))]
    exact ih fun v hv => h v (by simp [hv])

theorem rangeCheck_error (l : List Felt) (h : ∃ v ∈ l, ¬ Canonical v) : rangeCheck l = .error .range := by
  induction l with
  | nil => simp at h
  | cons a as ih =>
    by_cases hc : Canonical a
    · rw [rangeCheck, if_pos ((isCanonical_iff a).2 hc)]
      obtain ⟨v, hv, hn⟩ := h
      rcases List.mem_cons.1 hv with rfl | hv
      · exact absurd hc hn
      · exact ih ⟨v, hv, hn⟩
    · rw [rangeCheck, if_neg (by rw [isCanonical_iff]; exact hc)]

theorem rangeCheck_cases (l : List Felt) :
    (rangeCheck l = .ok () ∧ ∀ v ∈ l, Canonical v) ∨ (rangeCheck l = .error .range ∧ ∃ v ∈ l, ¬ Canonical v) := by
  by_cases h : ∀ v ∈ l, Canonical v
  · exact Or.inl ⟨rangeCheck_ok l h, h⟩
  · have h' : ∃ v ∈ l, ¬ Canonical v := by simpa using h
    exact Or.inr ⟨rangeCheck_error l h', h'⟩

end Sys2Proof.Laws
end

