-- ==== Sys2Proof/Laws/Prime.lean ====
section
/-! SUPPORT. The field modulus is prime, as spec/00_scope.md R8 states of it: by Lucas's criterion, down a tree of the
prime factors of p − 1. The inverter needs it (spec/43_inverse.md R201). -/

namespace Sys2Proof.Laws

/-- a^e mod n by repeated squaring; `fuel` bounds the bits of `e`. -/
def powMod (n : Nat) : (fuel a e : Nat) → Nat
  | 0, _, _ => 1 % n
  | k + 1, a, e =>
    if e = 0 then 1 % n
    else
      let h := powMod n k (a * a % n) (e / 2)
      if e % 2 = 1 then a * h % n else h

theorem powMod_eq (n k a e : Nat) (he : e < 2 ^ k) : powMod n k a e = a ^ e % n := by
  induction k generalizing a e with
  | zero => simp_all [powMod]
  | succ k ih =>
    rw [powMod]
    split
    · next h => simp [h]
    · have hh : powMod n k (a * a % n) (e / 2) ≡ a ^ (2 * (e / 2)) [MOD n] := by
        rw [ih _ _ (by rw [pow_succ] at he; omega), pow_mul, pow_two]
        exact (Nat.mod_modEq _ _).trans ((Nat.mod_modEq _ _).pow _)
      have hlt : powMod n k (a * a % n) (e / 2) = powMod n k (a * a % n) (e / 2) % n := by
        rw [ih _ _ (by rw [pow_succ] at he; omega), Nat.mod_mod]
      simp only
      split
      · rw [show a ^ e = a * a ^ (2 * (e / 2)) by rw [← pow_succ']; congr 1; omega]
        exact hh.mul_left a
      · rw [hlt, show a ^ e = a ^ (2 * (e / 2)) by congr 1; omega]
        exact hh

/-- `a` has order n − 1 modulo `n`, tested at the factors `fs` of n − 1. -/
def orderTest (n a : Nat) (fs : List Nat) : Bool :=
  decide (1 < n) && decide (n < 2 ^ 256) && decide (fs.prod = n - 1) && decide (powMod n 256 a (n - 1) = 1)
    && fs.all fun q => decide (powMod n 256 a ((n - 1) / q) ≠ 1)

/-- Lucas's criterion on natural numbers. -/
theorem prime_of_order (n a : Nat) (fs : List Nat) (h : orderTest n a fs = true) (hfs : ∀ q ∈ fs, q.Prime) :
    n.Prime := by
  simp only [orderTest, Bool.and_eq_true, decide_eq_true_eq, List.all_eq_true] at h
  obtain ⟨⟨⟨⟨hn, hlt⟩, hprod⟩, hone⟩, hne⟩ := h
  have hcast : ∀ e < 2 ^ 256, ((a : ZMod n) ^ e = 1) ↔ powMod n 256 a e = 1 := fun e he => by
    rw [← Nat.cast_pow, show (1 : ZMod n) = ((1 : Nat) : ZMod n) by simp, ZMod.natCast_eq_natCast_iff',
      Nat.mod_eq_of_lt hn, powMod_eq _ _ _ _ he]
  refine lucas_primality n (a : ZMod n) ((hcast _ (by omega)).2 hone) fun q hq hdvd => ?_
  rw [← hprod] at hdvd
  obtain ⟨r, hr, hqr⟩ := (hq.prime.dvd_prod_iff).1 hdvd
  have hrq : q = r := ((Nat.prime_dvd_prime_iff_eq hq (hfs r hr))).1 hqr
  rw [Ne, hcast _ (Nat.lt_of_le_of_lt (Nat.div_le_self _ _) (by omega)), hrq]
  exact hne r hr

theorem prime_12048837557 : Nat.Prime 12048837557 :=
  prime_of_order _ 2 [2, 2, 7, 7, 661, 93001] (by decide +kernel) (by simp; norm_num)

theorem prime_5156902474397 : Nat.Prime 5156902474397 :=
  prime_of_order _ 2 [2, 2, 107, 12048837557] (by decide +kernel) (by simp [prime_12048837557]; norm_num)

theorem prime_1670836401704629 : Nat.Prime 1670836401704629 :=
  prime_of_order _ 2 [2, 2, 3, 3, 3, 3, 5156902474397] (by decide +kernel) (by simp [prime_5156902474397]; norm_num)

theorem prime_405928799 : Nat.Prime 405928799 :=
  prime_of_order _ 22 [2, 11, 3691, 4999] (by decide +kernel) (by simp; norm_num)

theorem prime_639533339 : Nat.Prime 639533339 :=
  prime_of_order _ 2 [2, 229, 853, 1637] (by decide +kernel) (by simp; norm_num)

theorem prime_65865678001877903 : Nat.Prime 65865678001877903 :=
  prime_of_order _ 5 [2, 83, 379, 1637, 639533339] (by decide +kernel) (by simp [prime_639533339]; norm_num)

theorem prime_13818364434197438864469338081 : Nat.Prime 13818364434197438864469338081 :=
  prime_of_order _ 3 [2, 2, 2, 2, 2, 5, 823, 1593227, 65865678001877903] (by decide +kernel)
    (by simp [prime_65865678001877903]; norm_num)

/-- R8: "p is prime". -/
theorem p_prime : Nat.Prime Config.p :=
  prime_of_order _ 5 (List.replicate 28 2 ++
      [3, 3, 13, 29, 983, 11003, 237073, 405928799, 1670836401704629, 13818364434197438864469338081])
    (by decide +kernel)
    (by simp [prime_405928799, prime_1670836401704629, prime_13818364434197438864469338081]; norm_num)

end Sys2Proof.Laws
end

