-- ==== Sys2Proof/Laws/Inverter.lean ====
section
/-! SUPPORT. The inverter (spec/43_inverse.md R200, R201): its invariant, its bound, and its result, the inverse
modulo p. -/

namespace Sys2Proof.Laws

open Sys2Proof.Machine

theorem getLsbD_zero_iff (u : Felt) : u.getLsbD 0 = true ↔ u.toNat % 2 = 1 := by
  rw [BitVec.getLsbD, Nat.testBit_zero, decide_eq_true_iff]

theorem ushiftRight_one_toNat (u : Felt) : (u >>> 1).toNat = u.toNat / 2 := by
  rw [BitVec.toNat_ushiftRight, Nat.shiftRight_one]

theorem p_odd : Config.p % 2 = 1 := by decide

/-- R201: a halving step keeps `a·x ≡ u`. -/
theorem half_track {a u : Nat} {x : Felt} (hx : Canonical x) (hu : u % 2 = 0) (h : a * x.toNat ≡ u [MOD Config.p]) :
    a * (modhalf x).toNat ≡ u / 2 [MOD Config.p] := by
  obtain ⟨h2, -, -⟩ := modhalf_spec x hx
  have hcop : Nat.gcd Config.p 2 = 1 := by
    rw [Nat.gcd_comm]; exact (Nat.coprime_two_left).2 (Nat.odd_iff.2 p_odd)
  refine Nat.ModEq.cancel_left_of_coprime hcop ?_
  have hxx : 2 * (modhalf x).toNat ≡ x.toNat [MOD Config.p] := by
    rw [Nat.ModEq, h2, Nat.mod_eq_of_lt hx]
  calc 2 * (a * (modhalf x).toNat) = a * (2 * (modhalf x).toNat) := by ring
    _ ≡ a * x.toNat [MOD Config.p] := hxx.mul_left a
    _ ≡ u [MOD Config.p] := h
    _ = 2 * (u / 2) := by omega

/-- R201: a subtraction step keeps it. -/
theorem sub_track {a u v : Nat} {x y : Felt} (hx : Canonical x) (hy : Canonical y) (huv : v ≤ u)
    (h1 : a * x.toNat ≡ u [MOD Config.p]) (h2 : a * y.toNat ≡ v [MOD Config.p]) :
    a * (modsub x y).toNat ≡ u - v [MOD Config.p] := by
  obtain ⟨hs, -⟩ := modsub_spec x y hx hy
  have hy' : y.toNat < Config.p := hy
  have h3 : (modsub x y).toNat ≡ x.toNat + Config.p - y.toNat [MOD Config.p] := by
    rw [hs]; exact Nat.mod_modEq _ _
  refine Nat.ModEq.add_right_cancel h2 ?_
  calc a * (modsub x y).toNat + a * y.toNat
      ≡ a * (x.toNat + Config.p - y.toNat) + a * y.toNat [MOD Config.p] := (h3.mul_left a).add_right _
    _ = a * x.toNat + Config.p * a := by rw [← Nat.mul_add]; rw [Nat.sub_add_cancel (by omega)]; ring
    _ ≡ a * x.toNat [MOD Config.p] := by simp [Nat.ModEq]
    _ ≡ u [MOD Config.p] := h1
    _ = u - v + v := by omega

/-- R200, R201: an inner loop divides its integer by the power of 2 in it and keeps its track. -/
theorem halveWhileEven_spec (a n : Nat) (u x : Felt) (hu : u.toNat ≠ 0) (hn : u.toNat < 2 ^ n) (hx : Canonical x)
    (h : a * x.toNat ≡ u.toNat [MOD Config.p]) :
    (halveWhileEven n u x).1.toNat % 2 = 1
      ∧ (∃ k, u.toNat = 2 ^ k * (halveWhileEven n u x).1.toNat)
      ∧ Canonical (halveWhileEven n u x).2
      ∧ a * (halveWhileEven n u x).2.toNat ≡ (halveWhileEven n u x).1.toNat [MOD Config.p] := by
  induction n generalizing u x with
  | zero => simp at hn; omega
  | succ n ih =>
    rw [halveWhileEven]
    by_cases hodd : u.getLsbD 0 = true
    · rw [if_pos hodd]
      exact ⟨(getLsbD_zero_iff u).1 hodd, ⟨0, by simp⟩, hx, h⟩
    · rw [if_neg hodd]
      have heven : u.toNat % 2 = 0 := by rw [getLsbD_zero_iff] at hodd; omega
      have hs := ushiftRight_one_toNat u
      obtain ⟨h1, ⟨k, hk⟩, h3, h4⟩ := ih (u >>> 1) (modhalf x) (by omega) (by rw [pow_succ] at hn; omega)
        (modhalf_spec x hx).2.1 (by rw [hs]; exact half_track hx heven h)
      refine ⟨h1, ⟨k + 1, ?_⟩, h3, h4⟩
      rw [pow_succ, Nat.mul_right_comm, ← hk, hs]; omega

theorem sub256_toNat_of_le (u v : Felt) (h : v.toNat ≤ u.toNat) : (sub256 u v false).1.toNat = u.toNat - v.toNat := by
  have hu := u.isLt
  rw [(sub256_spec u v false).1, Bool.toNat_false, Nat.add_zero]; omega

/-- R200: what the loop keeps at the top of each pass. -/
structure InvTracks (a : Nat) (u v x y : Felt) : Prop where
  hx  : Canonical x
  hy  : Canonical y
  hu  : a * x.toNat ≡ u.toNat [MOD Config.p]
  hv  : a * y.toNat ≡ v.toNat [MOD Config.p]
  gcd : Nat.gcd u.toNat v.toNat = 1

theorem gcd_of_dvd {u v u' v' : Nat} (h : Nat.gcd u v = 1) (hu : u' ∣ u) (hv : v' ∣ v) : Nat.gcd u' v' = 1 :=
  Nat.Coprime.of_dvd hu hv h

/-- What a loop that answers is worth: a canonical inverse of `a` modulo p. -/
def InverseOf (a : Nat) (res : Except CmdError Felt) : Prop :=
  ∃ r, res = .ok r ∧ Canonical r ∧ a * r.toNat % Config.p = 1

theorem modEq_one_mod {z : Nat} (h : z ≡ 1 [MOD Config.p]) : z % Config.p = 1 := by
  rw [Nat.ModEq] at h; rw [h]; decide

theorem bv_ne_toNat {u : Felt} {k : Nat} (hk : k < 2 ^ 256) (h : ¬ u = BitVec.ofNat 256 k) : u.toNat ≠ k := fun h' =>
  h (BitVec.eq_of_toNat_eq (by rw [BitVec.toNat_ofNat, Nat.mod_eq_of_lt hk, h']))

/-- R200: one pass of the outer loop. The tracks are kept, the product of the integers does not grow, it halves if
one of them was even, and one of the next pass's integers is even. -/
theorem invLoop_pass (a n : Nat) (u v x y : Felt) (t : InvTracks a u v x y) (hu1 : ¬ u = 1) (hv1 : ¬ v = 1) :
    ∃ u' v' x' y', invLoop (n + 1) u v x y = invLoop n u' v' x' y' ∧ InvTracks a u' v' x' y'
      ∧ (u'.toNat % 2 = 0 ∨ v'.toNat % 2 = 0)
      ∧ u'.toNat * v'.toNat ≤ u.toNat * v.toNat
      ∧ ((u.toNat % 2 = 0 ∨ v.toNat % 2 = 0) → 2 * (u'.toNat * v'.toNat) ≤ u.toNat * v.toNat) := by
  have hun := bv_ne_toNat (by norm_num) hu1
  have hvn := bv_ne_toNat (by norm_num) hv1
  have hg := t.gcd
  have hu0 : u.toNat ≠ 0 := by intro h0; rw [h0, Nat.gcd_zero_left] at hg; exact hvn hg
  have hv0 : v.toNat ≠ 0 := by intro h0; rw [h0, Nat.gcd_zero_right] at hg; exact hun hg
  obtain ⟨o1, ⟨k1, e1⟩, c1, t1⟩ := halveWhileEven_spec a 256 u x hu0 u.isLt t.hx t.hu
  obtain ⟨o2, ⟨k2, e2⟩, c2, t2⟩ := halveWhileEven_spec a 256 v y hv0 v.isLt t.hy t.hv
  have hstep : invLoop (n + 1) u v x y =
      if cmp256 (halveWhileEven 256 u x).1 (halveWhileEven 256 v y).1 ≠ .lt then
        invLoop n (sub256 (halveWhileEven 256 u x).1 (halveWhileEven 256 v y).1 false).1 (halveWhileEven 256 v y).1
          (modsub (halveWhileEven 256 u x).2 (halveWhileEven 256 v y).2) (halveWhileEven 256 v y).2
      else
        invLoop n (halveWhileEven 256 u x).1 (sub256 (halveWhileEven 256 v y).1 (halveWhileEven 256 u x).1 false).1
          (halveWhileEven 256 u x).2 (modsub (halveWhileEven 256 v y).2 (halveWhileEven 256 u x).2) := by
    rw [invLoop, if_neg hu1, if_neg hv1]
  generalize (halveWhileEven 256 u x).1 = U at *
  generalize (halveWhileEven 256 u x).2 = X at *
  generalize (halveWhileEven 256 v y).1 = V at *
  generalize (halveWhileEven 256 v y).2 = Y at *
  have hgUV : Nat.gcd U.toNat V.toNat = 1 :=
    gcd_of_dvd hg ⟨2 ^ k1, by rw [e1, Nat.mul_comm]⟩ ⟨2 ^ k2, by rw [e2, Nat.mul_comm]⟩
  have hprod : u.toNat * v.toNat = 2 ^ k1 * 2 ^ k2 * (U.toNat * V.toNat) := by rw [e1, e2]; ring
  have hp1 : 1 ≤ 2 ^ k1 * 2 ^ k2 := Nat.one_le_iff_ne_zero.2 (by positivity)
  have hp2 : (u.toNat % 2 = 0 ∨ v.toNat % 2 = 0) → 2 ≤ 2 ^ k1 * 2 ^ k2 := by
    intro hev
    have hk : k1 ≠ 0 ∨ k2 ≠ 0 := by
      rcases hev with hev | hev
      · left; rintro rfl; rw [pow_zero, Nat.one_mul] at e1; omega
      · right; rintro rfl; rw [pow_zero, Nat.one_mul] at e2; omega
    have b1 : 1 ≤ 2 ^ k1 := Nat.one_le_two_pow
    have b2 : 1 ≤ 2 ^ k2 := Nat.one_le_two_pow
    rcases hk with hk | hk
    · have := Nat.pow_le_pow_right (show 1 ≤ 2 by decide) (Nat.one_le_iff_ne_zero.2 hk); nlinarith
    · have := Nat.pow_le_pow_right (show 1 ≤ 2 by decide) (Nat.one_le_iff_ne_zero.2 hk); nlinarith
  have key : ∀ z, z ≤ U.toNat * V.toNat → z ≤ u.toNat * v.toNat
      ∧ ((u.toNat % 2 = 0 ∨ v.toNat % 2 = 0) → 2 * z ≤ u.toNat * v.toNat) := fun z hz =>
    ⟨by rw [hprod]; nlinarith, fun hev => by rw [hprod]; have := hp2 hev; nlinarith⟩
  rw [hstep]
  by_cases hc : cmp256 U V ≠ .lt
  · rw [if_pos hc]
    have hle : V.toNat ≤ U.toNat := by rw [Ne, cmp256_eq_lt] at hc; omega
    have hsub := sub256_toNat_of_le U V hle
    refine ⟨_, _, _, _, rfl, ⟨(modsub_spec X Y c1 c2).2, c2, ?_, t2, ?_⟩, Or.inl (by omega), key _ ?_⟩
    · rw [hsub]; exact sub_track c1 c2 hle t1 t2
    · rw [hsub, Nat.gcd_sub_self_left hle]; exact hgUV
    · rw [hsub]; exact Nat.mul_le_mul_right _ (Nat.sub_le _ _)
  · rw [if_neg hc]
    have hle : U.toNat ≤ V.toNat := by rw [Ne, not_not, cmp256_eq_lt] at hc; omega
    have hsub := sub256_toNat_of_le V U hle
    refine ⟨_, _, _, _, rfl, ⟨c1, (modsub_spec Y X c2 c1).2, t1, ?_, ?_⟩, Or.inr (by omega), key _ ?_⟩
    · rw [hsub]; exact sub_track c2 c1 hle t2 t1
    · rw [hsub, Nat.gcd_sub_self_right hle]; exact hgUV
    · rw [hsub]; exact Nat.mul_le_mul_left _ (Nat.sub_le _ _)

theorem invLoop_exit (a n : Nat) (u v x y : Felt) (t : InvTracks a u v x y) (h : u = 1 ∨ v = 1) :
    InverseOf a (invLoop (n + 1) u v x y) := by
  have h1 : (1 : Felt).toNat = 1 := rfl
  rw [invLoop]
  by_cases hu : u = 1
  · rw [if_pos hu]
    refine ⟨x, rfl, t.hx, modEq_one_mod ?_⟩
    have := t.hu; rwa [hu, h1] at this
  · rw [if_neg hu, if_pos (h.resolve_left hu)]
    refine ⟨y, rfl, t.hy, modEq_one_mod ?_⟩
    have := t.hv; rwa [h.resolve_left hu, h1] at this

/-- R201: the bound. From a pass with an even integer, each pass halves the product. -/
theorem invLoop_spec (a k n : Nat) (u v x y : Felt) (t : InvTracks a u v x y)
    (hev : u.toNat % 2 = 0 ∨ v.toNat % 2 = 0) (hk : u.toNat * v.toNat < 2 ^ k) (hn : k < n) :
    InverseOf a (invLoop n u v x y) := by
  induction k generalizing n u v x y with
  | zero =>
    obtain ⟨m, rfl⟩ : ∃ m, n = m + 1 := ⟨n - 1, by omega⟩
    have h0 : u.toNat * v.toNat = 0 := by simpa using hk
    have hg := t.gcd
    apply invLoop_exit _ _ _ _ _ _ t
    rcases Nat.mul_eq_zero.1 h0 with h | h
    · right; rw [h, Nat.gcd_zero_left] at hg; exact BitVec.eq_of_toNat_eq hg
    · left; rw [h, Nat.gcd_zero_right] at hg; exact BitVec.eq_of_toNat_eq hg
  | succ k ih =>
    obtain ⟨m, rfl⟩ : ∃ m, n = m + 1 := ⟨n - 1, by omega⟩
    by_cases hex : u = 1 ∨ v = 1
    · exact invLoop_exit _ _ _ _ _ _ t hex
    · obtain ⟨u', v', x', y', he, ht, hev', -, hhalf⟩ :=
        invLoop_pass a m u v x y t (fun h => hex (Or.inl h)) (fun h => hex (Or.inr h))
      rw [he]
      exact ih m u' v' x' y' ht hev' (by have := hhalf hev; rw [pow_succ] at hk; omega) (by omega)

/-- R200 to R202: for 0 < a < p the inverter answers, and its answer is the canonical inverse. -/
theorem inversePath_spec (a : Felt) (hc : Canonical a) (h0 : a ≠ 0) : InverseOf a.toNat (inversePath a) := by
  have hp := p_lt_pow254
  have ha0 : a.toNat ≠ 0 := fun h => h0 (BitVec.eq_of_toNat_eq h)
  have hgcd : Nat.gcd a.toNat Config.p = 1 := by
    rw [Nat.gcd_comm]
    exact (Nat.Prime.coprime_iff_not_dvd p_prime).2 fun hd => ha0 (Nat.eq_zero_of_dvd_of_lt hd hc)
  have h00 : (0 : Felt).toNat = 0 := rfl
  have h11 : (1 : Felt).toNat = 1 := rfl
  have t : InvTracks a.toNat a pFelt 1 0 :=
    ⟨by decide, by decide, by rw [h11, Nat.mul_one], by rw [h00, pFelt_toNat]; simp [Nat.ModEq],
      by rw [pFelt_toNat]; exact hgcd⟩
  have hprod : a.toNat * pFelt.toNat < 2 ^ 508 := by
    rw [pFelt_toNat, show (2 : Nat) ^ 508 = 2 ^ 254 * 2 ^ 254 by rw [← pow_add]]
    exact Nat.mul_lt_mul'' (Nat.lt_trans hc hp) hp
  unfold inversePath
  rw [show invFuel = 1023 + 1 from rfl]
  by_cases hex : a = 1 ∨ pFelt = 1
  · exact invLoop_exit _ _ _ _ _ _ t hex
  · obtain ⟨u', v', x', y', he, ht, hev, hle, -⟩ :=
      invLoop_pass a.toNat 1023 a pFelt 1 0 t (fun h => hex (Or.inl h)) (fun h => hex (Or.inr h))
    rw [he]
    exact invLoop_spec _ 508 _ _ _ _ _ ht hev (Nat.lt_of_le_of_lt hle hprod) (by decide)

end Sys2Proof.Laws
end

