-- ==== Sys2Proof/Laws/Regs.lean ====
section
/-! SUPPORT. The register file: reads after writes, ranges, limbs and byte swaps. -/

namespace Sys2Proof.Machine

theorem regAt_setReg_same (x : Vector Felt 16) (n : Nat) (v : Felt) (h : n < 16) : regAt (setReg x n v) n = v := by
  simp [regAt, setReg, h]

theorem regAt_setReg_other (x : Vector Felt 16) (n k : Nat) (v : Felt) (h : n ≠ k) :
    regAt (setReg x n v) k = regAt x k := by
  unfold regAt setReg
  congr 1
  by_cases hk : k < 16
  · simp [hk, h]
  · simp [hk]

theorem regAt_setReg (x : Vector Felt 16) (n k : Nat) (v : Felt) :
    regAt (setReg x n v) k = if n = k ∧ n < 16 then v else regAt x k := by
  by_cases h : n = k
  · subst h
    by_cases hn : n < 16
    · simp [regAt_setReg_same, hn]
    · simp [regAt, setReg, hn]
  · simp [regAt_setReg_other, h]

/-- Two register files with the same sixteen registers are equal. -/
theorem regs_ext (x y : Vector Felt 16) (h : ∀ n < 16, regAt x n = regAt y n) : x = y := by
  apply Vector.ext
  intro i hi
  have := h i hi
  simpa [regAt, hi] using this

@[simp] theorem writeRegs_nil (x : Vector Felt 16) : writeRegs x [] = x := rfl
@[simp] theorem writeRegs_cons (x : Vector Felt 16) (n : Nat) (v : Felt) (l : List (Nat × Felt)) :
    writeRegs x ((n, v) :: l) = writeRegs (setReg x n v) l := rfl

/-- A register that no write of the list names is unchanged. -/
theorem regAt_writeRegs_other (l : List (Nat × Felt)) (x : Vector Felt 16) (k : Nat) (h : ∀ e ∈ l, e.1 ≠ k) :
    regAt (writeRegs x l) k = regAt x k := by
  induction l generalizing x with
  | nil => rfl
  | cons e l ih =>
    obtain ⟨n, v⟩ := e
    rw [writeRegs_cons, ih _ fun e he => h e (List.mem_cons_of_mem _ he),
      regAt_setReg_other _ _ _ _ (h (n, v) List.mem_cons_self)]

theorem rangeWrites_fst (n : Nat) (vs : List Felt) : (rangeWrites n vs).map Prod.fst = List.range' n vs.length := by
  induction vs generalizing n with
  | nil => rfl
  | cons v vs ih => simp [rangeWrites, ih, List.range'_succ]

theorem rangeWrites_mem (n : Nat) (vs : List Felt) {e : Nat × Felt} (h : e ∈ rangeWrites n vs) :
    e.1 ∈ List.range' n vs.length := rangeWrites_fst n vs ▸ List.mem_map_of_mem h

/-- What a range of writes leaves in each of its registers. -/
theorem regAt_writeRegs_range (vs : List Felt) (x : Vector Felt 16) (n i : Nat) (hi : i < vs.length)
    (hn : n + i < 16) : regAt (writeRegs x (rangeWrites n vs)) (n + i) = vs[i] := by
  induction vs generalizing x n i with
  | nil => simp at hi
  | cons v vs ih =>
    rw [rangeWrites, writeRegs_cons]
    cases i with
    | zero =>
      rw [regAt_writeRegs_other, Nat.add_zero, regAt_setReg_same _ _ _ (by omega)]
      · rfl
      · intro e he
        have := rangeWrites_mem _ _ he
        rw [List.mem_range'_1] at this
        omega
    | succ i =>
      have := ih (setReg x n v) (n + 1) i (by simpa using hi) (by omega)
      rw [show n + (i + 1) = n + 1 + i by omega, this]
      rfl

@[simp] theorem rangeRegs_length (x : Vector Felt 16) (n len : Nat) : (rangeRegs x n len).length = len := by
  induction len generalizing n with
  | zero => rfl
  | succ len ih => simp [rangeRegs, ih]

/-- R91: the `i`-th register of a range. -/
theorem rangeRegs_getElem (x : Vector Felt 16) (n len i : Nat) (h : i < (rangeRegs x n len).length) :
    (rangeRegs x n len)[i] = regAt x (n + i) := by
  induction len generalizing n i with
  | zero => simp at h
  | succ len ih =>
    cases i with
    | zero => rfl
    | succ i =>
      simp only [rangeRegs, List.getElem_cons_succ]
      rw [ih]; congr 1; omega

theorem mem_rangeRegs (x : Vector Felt 16) (n len : Nat) (v : Felt) :
    v ∈ rangeRegs x n len ↔ ∃ i < len, v = regAt x (n + i) := by
  induction len generalizing n with
  | zero => simp [rangeRegs]
  | succ len ih =>
    rw [rangeRegs, List.mem_cons, ih]
    constructor
    · rintro (h | ⟨i, hi, h⟩)
      · exact ⟨0, by omega, h⟩
      · exact ⟨i + 1, by omega, by rw [h]; congr 1; omega⟩
    · rintro ⟨i, hi, h⟩
      cases i with
      | zero => exact Or.inl h
      | succ i => exact Or.inr ⟨i, by omega, by rw [h]; congr 1; omega⟩

/-! ### Limbs of a register (R64) and the byte swap (R65) -/

theorem limb_getLsbD (i : Fin 8) (v : Felt) (k : Nat) : (limb i v).getLsbD k = (decide (k < 32) && v.getLsbD (32 * i.val + k)) := by
  simp [limb]

theorem limb_setLimb_same (i : Fin 8) (w : Limb) (v : Felt) : limb i (setLimb i w v) = w := by
  apply BitVec.eq_of_getLsbD_eq
  intro k hk
  have hi := i.isLt
  simp only [limb_getLsbD, setLimb, BitVec.getLsbD_or, BitVec.getLsbD_and, BitVec.getLsbD_not, BitVec.getLsbD_shiftLeft,
    BitVec.getLsbD_setWidth]
  have h1 : 32 * i.val + k < 256 := by omega
  have h2 : ¬ 32 * i.val + k < 32 * i.val := by omega
  have h3 : 32 * i.val + k - 32 * i.val = k := by omega
  have h4 : (0xffffffff#256).getLsbD k = true := by
    have : ∀ k < 32, (0xffffffff#256).getLsbD k = true := by decide
    exact this k hk
  have h5 : k < 256 := by omega
  simp [h1, h2, h3, h4, h5, hk]

theorem limb_setLimb_other (i j : Fin 8) (w : Limb) (v : Felt) (h : i ≠ j) : limb j (setLimb i w v) = limb j v := by
  apply BitVec.eq_of_getLsbD_eq
  intro k hk
  have hi := i.isLt
  have hj := j.isLt
  have hne : i.val ≠ j.val := fun e => h (Fin.ext e)
  simp only [limb_getLsbD, setLimb, BitVec.getLsbD_or, BitVec.getLsbD_and, BitVec.getLsbD_not, BitVec.getLsbD_shiftLeft,
    BitVec.getLsbD_setWidth]
  have h1 : 32 * j.val + k < 256 := by omega
  by_cases hlt : 32 * j.val + k < 32 * i.val
  · simp [h1, hlt, hk]
  · have h4 : (0xffffffff#256).getLsbD (32 * j.val + k - 32 * i.val) = false := by
      rw [BitVec.getLsbD_ofNat]
      have : 32 ≤ 32 * j.val + k - 32 * i.val := by omega
      have h7 : Nat.testBit 0xffffffff (32 * j.val + k - 32 * i.val) = false :=
        Nat.testBit_lt_two_pow (lt_of_lt_of_le (by decide : 0xffffffff < 2 ^ 32) (Nat.pow_le_pow_right (by decide) this))
      simp [h7]
    have h5 : w.getLsbD (32 * j.val + k - 32 * i.val) = false := BitVec.getLsbD_of_ge _ _ (by omega)
    simp [h1, hlt, h4, h5, hk]

/-- A 256-bit value is its eight limbs. -/
theorem felt_ext (u v : Felt) (h : ∀ i, limb i u = limb i v) : u = v := by
  apply BitVec.eq_of_getLsbD_eq
  intro k hk
  have := congrArg (fun w => w.getLsbD (k % 32)) (h ⟨k / 32, by omega⟩)
  have e : 32 * (k / 32) + k % 32 = k := by omega
  have h32 : k % 32 < 32 := Nat.mod_lt _ (by decide)
  simp only [limb_getLsbD, e, h32, decide_true, Bool.true_and] at this
  exact this

theorem limb_toNat (i : Fin 8) (v : Felt) : (limb i v).toNat = v.toNat / 2 ^ (32 * i.val) % 2 ^ 32 := by
  rw [limb, BitVec.extractLsb'_toNat, Nat.shiftRight_eq_div_pow]

theorem bswap32_bswap32 (w : Limb) : bswap32 (bswap32 w) = w := by
  apply BitVec.eq_of_getLsbD_eq
  intro k hk
  simp only [bswap32, BitVec.getLsbD_append, BitVec.getLsbD_extractLsb']
  rcases (by omega : k < 8 ∨ (8 ≤ k ∧ k < 16) ∨ (16 ≤ k ∧ k < 24) ∨ (24 ≤ k ∧ k < 32)) with h | h | h | h <;>
    interval_cases k <;> simp

theorem mirror_mirror (j : Fin 8) : mirror (mirror j) = j := by revert j; decide

theorem mirror_injective {i j : Fin 8} (h : mirror i = mirror j) : i = j := by
  rw [← mirror_mirror i, h, mirror_mirror]

end Sys2Proof.Machine
end

