-- ==== Sys2Proof/Laws/Memory.lean ====
section
/-! SUPPORT. The table memory: every operation keeps its canonical form, reads after writes, the byte order, and its
entries as limbs. -/

namespace Sys2Proof.Machine

/-! ### Cells -/

theorem risingFrom_mono {a b : Nat} {l : List Host.Cell} (h : risingFrom a l = true) (hb : b ≤ a) :
    risingFrom b l = true := by
  cases l with
  | nil => rfl
  | cons c l =>
    simp only [risingFrom, Bool.and_eq_true, decide_eq_true_eq] at h ⊢
    exact ⟨by omega, h.2⟩

theorem risingFrom_insertCell (a n : Nat) (b : Byte) (l : List Host.Cell) (h : risingFrom n l = true) (hn : n < a) :
    risingFrom n (insertCell a b l) = true := by
  induction l generalizing n with
  | nil => simp [insertCell, risingFrom, hn]
  | cons c l ih =>
    obtain ⟨k, v⟩ := c
    simp only [risingFrom, Bool.and_eq_true, decide_eq_true_eq] at h
    unfold insertCell
    split
    · next hk => simp [risingFrom, h.1, ih k h.2 hk]
    · split
      · next hk => subst hk; simp [risingFrom, h.1, h.2]
      · simp only [risingFrom, Bool.and_eq_true, decide_eq_true_eq]
        exact ⟨hn, by omega, h.2⟩

theorem risingFrom_eraseCell (a n : Nat) (l : List Host.Cell) (h : risingFrom n l = true) :
    risingFrom n (eraseCell a l) = true := by
  induction l generalizing n with
  | nil => rfl
  | cons c l ih =>
    obtain ⟨k, v⟩ := c
    simp only [risingFrom, Bool.and_eq_true, decide_eq_true_eq] at h
    unfold eraseCell
    split
    · exact risingFrom_mono h.2 (by omega)
    · simp [risingFrom, h.1, ih k h.2]

theorem mem_insertCell (a : Nat) (b : Byte) (l : List Host.Cell) {c : Host.Cell} (h : c ∈ insertCell a b l) :
    c = (a, b) ∨ c ∈ l := by
  induction l with
  | nil => simpa [insertCell] using h
  | cons d l ih =>
    obtain ⟨k, v⟩ := d
    unfold insertCell at h
    split at h
    · rcases List.mem_cons.1 h with h | h
      · exact Or.inr (h ▸ List.mem_cons_self)
      · exact (ih h).imp_right (List.mem_cons_of_mem _)
    · split at h
      · rcases List.mem_cons.1 h with h | h
        · exact Or.inl h
        · exact Or.inr (List.mem_cons_of_mem _ h)
      · rcases List.mem_cons.1 h with h | h
        · exact Or.inl h
        · exact Or.inr h

theorem mem_eraseCell (a : Nat) (l : List Host.Cell) {c : Host.Cell} (h : c ∈ eraseCell a l) : c ∈ l := by
  induction l with
  | nil => exact h
  | cons d l ih =>
    obtain ⟨k, v⟩ := d
    unfold eraseCell at h
    split at h
    · exact List.mem_cons_of_mem _ h
    · rcases List.mem_cons.1 h with h | h
      · exact h ▸ List.mem_cons_self
      · exact List.mem_cons_of_mem _ (ih h)

/-- Nothing is listed below where the list starts. -/
theorem lookupCell_of_rising {a n : Nat} {l : List Host.Cell} (h : risingFrom n l = true) (ha : a ≤ n) :
    lookupCell a l = none := by
  cases l with
  | nil => rfl
  | cons c l =>
    obtain ⟨k, v⟩ := c
    simp only [risingFrom, Bool.and_eq_true, decide_eq_true_eq] at h
    rw [lookupCell, if_neg (by omega), if_pos (by omega)]

theorem lookupCell_insertCell (a a' n : Nat) (b : Byte) (l : List Host.Cell) (h : risingFrom n l = true) :
    lookupCell a' (insertCell a b l) = if a' = a then some b else lookupCell a' l := by
  induction l generalizing n with
  | nil =>
    simp only [insertCell, lookupCell]
    by_cases e : a' = a
    · simp [e]
    · simp [e, Ne.symm e]
  | cons c l ih =>
    obtain ⟨k, v⟩ := c
    simp only [risingFrom, Bool.and_eq_true, decide_eq_true_eq] at h
    unfold insertCell
    split
    · next hk =>
      simp only [lookupCell]
      by_cases e : a' = a
      · subst e
        rw [if_neg (by omega), if_neg (by omega), ih k h.2, if_pos rfl, if_pos rfl]
      · rw [if_neg e, ih k h.2, if_neg e]
    · split
      · next hk =>
        subst hk
        simp only [lookupCell]
        by_cases e : a' = k
        · rw [if_pos e.symm, if_pos e]
        · rw [if_neg (Ne.symm e), if_neg e, if_neg (Ne.symm e)]
      · simp only [lookupCell]
        by_cases e : a' = a
        · rw [if_pos e.symm, if_pos e]
        · rw [if_neg (Ne.symm e), if_neg e]
          by_cases hlt : a' < a
          · rw [if_pos hlt, if_neg (by omega), if_pos (by omega)]
          · rw [if_neg hlt]

theorem lookupCell_eraseCell (a a' n : Nat) (l : List Host.Cell) (h : risingFrom n l = true) :
    lookupCell a' (eraseCell a l) = if a' = a then none else lookupCell a' l := by
  induction l generalizing n with
  | nil => simp [eraseCell, lookupCell]
  | cons c l ih =>
    obtain ⟨k, v⟩ := c
    simp only [risingFrom, Bool.and_eq_true, decide_eq_true_eq] at h
    unfold eraseCell
    split
    · next hk =>
      subst hk
      by_cases e : a' = k
      · rw [if_pos e, e, lookupCell_of_rising h.2 (Nat.le_refl k)]
      · rw [if_neg e, lookupCell, if_neg (Ne.symm e)]
        by_cases hlt : a' < k
        · rw [if_pos hlt, lookupCell_of_rising h.2 (by omega)]
        · rw [if_neg hlt]
    · next hk =>
      simp only [lookupCell]
      rw [ih k h.2]
      by_cases e : a' = a
      · rw [if_pos e, if_pos e]; simp [e, hk]
      · rw [if_neg e, if_neg e]

/-! ### Bytes -/

theorem wf_rising {m : TableMem} (h : m.wf = true) : risingFrom (Config.tabBase - 1) m.cells = true := by
  simp only [TableMem.wf, Bool.and_eq_true] at h
  exact h.1

@[simp] theorem writeByte_draw (m : TableMem) (a : Nat) (b : Byte) : (m.writeByte a b).draw = m.draw := by
  unfold TableMem.writeByte; split <;> rfl

/-- A read after a write of one byte. -/
theorem readByte_writeByte (m : TableMem) (a a' : Nat) (b : Byte) (h : m.wf = true) :
    (m.writeByte a b).readByte a' = if a' = a then b else m.readByte a' := by
  have hr := wf_rising h
  unfold TableMem.writeByte
  split
  · next hb =>
    simp only [TableMem.readByte]
    rw [lookupCell_eraseCell _ _ _ _ hr]
    by_cases e : a' = a
    · simp [e, hb]
    · rw [if_neg e, if_neg e]
  · simp only [TableMem.readByte]
    rw [lookupCell_insertCell _ _ _ _ _ hr]
    by_cases e : a' = a
    · simp [e]
    · rw [if_neg e, if_neg e]

theorem wf_iff (m : TableMem) : m.wf = true ↔ risingFrom (Config.tabBase - 1) m.cells = true ∧
    ∀ c ∈ m.cells, c.1 < Config.tabEnd ∧ c.2 ≠ Config.tableReset m.draw c.1 := by
  simp [TableMem.wf, List.all_eq_true]

/-- A write inside the window keeps the canonical form. -/
theorem wf_writeByte (m : TableMem) (a : Nat) (b : Byte) (h : m.wf = true) (h1 : Config.tabBase ≤ a)
    (h2 : a < Config.tabEnd) : (m.writeByte a b).wf = true := by
  have h0 : 0 < Config.tabBase := by decide
  rw [wf_iff] at h
  rw [wf_iff]
  unfold TableMem.writeByte
  split
  · exact ⟨risingFrom_eraseCell _ _ _ h.1, fun c hc => h.2 c (mem_eraseCell _ _ hc)⟩
  · next hb =>
    refine ⟨risingFrom_insertCell _ _ _ _ h.1 (by omega), fun c hc => ?_⟩
    rcases mem_insertCell _ _ _ hc with rfl | hc
    · exact ⟨h2, hb⟩
    · exact h.2 c hc

theorem wf_writeBytes (bs : List Byte) (m : TableMem) (a : Nat) (h : m.wf = true) (h1 : Config.tabBase ≤ a)
    (h2 : a + bs.length ≤ Config.tabEnd) : (m.writeBytes a bs).wf = true := by
  induction bs generalizing m a with
  | nil => exact h
  | cons b bs ih =>
    rw [List.length_cons] at h2
    exact ih _ _ (wf_writeByte m a b h h1 (by omega)) (by omega) (by omega)

@[simp] theorem writeBytes_draw (bs : List Byte) (m : TableMem) (a : Nat) : (m.writeBytes a bs).draw = m.draw := by
  induction bs generalizing m a with
  | nil => rfl
  | cons b bs ih => rw [TableMem.writeBytes, ih, writeByte_draw]

/-- A read after a write of several bytes. -/
theorem readByte_writeBytes (bs : List Byte) (m : TableMem) (a a' : Nat) (h : m.wf = true) (h1 : Config.tabBase ≤ a)
    (h2 : a + bs.length ≤ Config.tabEnd) :
    (m.writeBytes a bs).readByte a' = if a ≤ a' then bs[a' - a]?.getD (m.readByte a') else m.readByte a' := by
  induction bs generalizing m a with
  | nil => simp [TableMem.writeBytes]
  | cons b bs ih =>
    rw [List.length_cons] at h2
    rw [TableMem.writeBytes, ih _ _ (wf_writeByte m a b h h1 (by omega)) (by omega) (by omega),
      readByte_writeByte m a a' b h]
    by_cases e : a' = a
    · subst e
      rw [if_neg (by omega), if_pos rfl, if_pos (Nat.le_refl a'), Nat.sub_self]; rfl
    · rw [if_neg e]
      by_cases hle : a ≤ a'
      · rw [if_pos (by omega), if_pos hle, show a' - a = (a' - (a + 1)) + 1 by omega, List.getElem?_cons_succ]
      · rw [if_neg (by omega), if_neg hle]

@[simp] theorem readBytes_length (m : TableMem) (a n : Nat) : (m.readBytes a n).length = n := by
  induction n generalizing a with
  | zero => rfl
  | succ n ih => simp [TableMem.readBytes, ih]

theorem readBytes_getElem? (m : TableMem) (a n i : Nat) (h : i < n) :
    (m.readBytes a n)[i]? = some (m.readByte (a + i)) := by
  induction n generalizing a i with
  | zero => omega
  | succ n ih =>
    cases i with
    | zero => rfl
    | succ i =>
      rw [TableMem.readBytes, List.getElem?_cons_succ, ih _ _ (by omega)]
      congr 2; omega

theorem readBytes_congr (m m' : TableMem) (a n : Nat) (h : ∀ i < n, m.readByte (a + i) = m'.readByte (a + i)) :
    m.readBytes a n = m'.readBytes a n := by
  induction n generalizing a with
  | zero => rfl
  | succ n ih =>
    rw [TableMem.readBytes, TableMem.readBytes, show m.readByte a = m'.readByte a from h 0 (by omega), ih]
    intro i hi
    rw [show a + 1 + i = a + (i + 1) by omega]
    exact h (i + 1) (by omega)

/-! ### Values as bytes -/

@[simp] theorem toBytes_length (n v : Nat) : (toBytes n v).length = n := by
  induction n generalizing v with
  | zero => rfl
  | succ n ih => simp [toBytes, ih]

theorem bytesVal_toBytes (n v : Nat) : bytesVal (toBytes n v) = v % 2 ^ (8 * n) := by
  induction n generalizing v with
  | zero => simp [toBytes, bytesVal, Nat.mod_one]
  | succ n ih =>
    rw [toBytes, bytesVal, ih, BitVec.toNat_ofNat, show 8 * (n + 1) = 8 + 8 * n by omega, Nat.pow_add,
      Nat.mod_mul]

theorem bytesVal_lt (bs : List Byte) : bytesVal bs < 2 ^ (8 * bs.length) := by
  induction bs with
  | nil => simp [bytesVal]
  | cons b bs ih =>
    have hb := b.isLt
    rw [bytesVal, List.length_cons, show 8 * (bs.length + 1) = 8 + 8 * bs.length by omega, Nat.pow_add]
    omega

theorem bytesVal_append (as bs : List Byte) : bytesVal (as ++ bs) = bytesVal as + 2 ^ (8 * as.length) * bytesVal bs := by
  induction as with
  | nil => simp [bytesVal]
  | cons a as ih =>
    rw [List.cons_append, bytesVal, bytesVal, ih, List.length_cons, show 8 * (as.length + 1) = 8 + 8 * as.length by omega,
      Nat.pow_add]
    ring

theorem readBytes_add (m : TableMem) (a n k : Nat) :
    m.readBytes a (n + k) = m.readBytes a n ++ m.readBytes (a + n) k := by
  induction n generalizing a with
  | zero => simp [TableMem.readBytes]
  | succ n ih =>
    rw [show n + 1 + k = (n + k) + 1 by omega, TableMem.readBytes, ih, TableMem.readBytes, List.cons_append,
      show a + 1 + n = a + (n + 1) by omega]

/-- The passage from `above` is silent: what lies lower is not looked at. -/
theorem lookupCell_dropWhile (a b : Nat) (l : List Host.Cell) (h : b ≤ a) :
    lookupCell a (l.dropWhile fun c => decide (c.1 < b)) = lookupCell a l := by
  induction l with
  | nil => rfl
  | cons c l ih =>
    obtain ⟨k, v⟩ := c
    by_cases hk : k < b
    · rw [List.dropWhile_cons_of_pos (by simpa using hk), ih, lookupCell, if_neg (by omega), if_neg (by omega)]
    · rw [List.dropWhile_cons_of_neg (by simpa using hk)]

theorem readByte_above (m : TableMem) (a b : Nat) (h : b ≤ a) : (m.above b).readByte a = m.readByte a := by
  simp only [TableMem.readByte, TableMem.above]
  rw [lookupCell_dropWhile _ _ _ h]

theorem entry_toNat (m : TableMem) (e : Nat) :
    (m.entry e).toNat = bytesVal (m.readBytes (Config.tabBase + 32 * e) 32) := by
  rw [TableMem.entry, readBytes_congr _ m _ _ fun i _ => readByte_above m _ _ (by omega), BitVec.toNat_ofNat,
    Nat.mod_eq_of_lt]
  have := bytesVal_lt (m.readBytes (Config.tabBase + 32 * e) 32)
  rwa [readBytes_length] at this

/-! ### Words and entries (R66) -/

theorem readWord_toNat (m : TableMem) (a : Nat) : (m.readWord a).toNat = bytesVal (m.readBytes a 4) := by
  rw [TableMem.readWord, BitVec.toNat_ofNat, Nat.mod_eq_of_lt]
  have := bytesVal_lt (m.readBytes a 4)
  rwa [readBytes_length] at this

/-- R66: the word of limb `i` of entry `e` is limb_i(TAB[e]). -/
theorem readWord_tabOffset (m : TableMem) (e : Nat) (i : Fin 8) :
    m.readWord (tabOffset e i) = limb i (m.entry e) := by
  have hi := i.isLt
  apply BitVec.eq_of_toNat_eq
  rw [limb_toNat, readWord_toNat, entry_toNat, tabOffset]
  generalize Config.tabBase + 32 * e = a
  rw [show 32 = 4 * i.val + (4 + (28 - 4 * i.val)) by omega, readBytes_add, readBytes_add, bytesVal_append,
    bytesVal_append, readBytes_length, readBytes_length]
  have h1 := bytesVal_lt (m.readBytes a (4 * i.val))
  have h2 := bytesVal_lt (m.readBytes (a + 4 * i.val) 4)
  rw [readBytes_length] at h1 h2
  rw [show (4 * i.val + (4 + (28 - 4 * i.val))) * i.val = 8 * (4 * i.val) by
    rw [show 4 * i.val + (4 + (28 - 4 * i.val)) = 32 by omega]; ring]
  rw [Nat.add_mul_div_left _ _ (by positivity), Nat.div_eq_of_lt h1, Nat.zero_add]
  rw [show 4 * i.val + (4 + (28 - 4 * i.val)) = 8 * 4 by omega]
  rw [Nat.add_mul_mod_self_left, Nat.mod_eq_of_lt h2]

theorem readWord_writeWord_same (m : TableMem) (a : Nat) (w : Limb) (h : m.wf = true) (h1 : Config.tabBase ≤ a)
    (h2 : a + 4 ≤ Config.tabEnd) : (m.writeWord a w).readWord a = w := by
  apply BitVec.eq_of_toNat_eq
  have hb : (m.writeWord a w).readBytes a 4 = toBytes 4 w.toNat := by
    apply List.ext_getElem?
    intro i
    by_cases hi : i < 4
    · rw [readBytes_getElem? _ _ _ _ hi, TableMem.writeWord,
        readByte_writeBytes _ _ _ _ h h1 (by rw [toBytes_length]; exact h2), if_pos (by omega), Nat.add_sub_cancel_left,
        List.getElem?_eq_getElem (by rw [toBytes_length]; exact hi), Option.getD_some]
    · rw [List.getElem?_eq_none (by rw [readBytes_length]; omega), List.getElem?_eq_none (by rw [toBytes_length]; omega)]
  rw [readWord_toNat, hb, bytesVal_toBytes]
  exact Nat.mod_eq_of_lt w.isLt

/-- A word write leaves every byte outside its four alone. -/
theorem readByte_writeWord_other (m : TableMem) (a a' : Nat) (w : Limb) (h : m.wf = true) (h1 : Config.tabBase ≤ a)
    (h2 : a + 4 ≤ Config.tabEnd) (ho : a' < a ∨ a + 4 ≤ a') : (m.writeWord a w).readByte a' = m.readByte a' := by
  rw [TableMem.writeWord, readByte_writeBytes _ _ _ _ h h1 (by rw [toBytes_length]; exact h2)]
  split
  · rw [List.getElem?_eq_none (by rw [toBytes_length]; omega), Option.getD_none]
  · rfl

theorem wf_writeWord (m : TableMem) (a : Nat) (w : Limb) (h : m.wf = true) (h1 : Config.tabBase ≤ a)
    (h2 : a + 4 ≤ Config.tabEnd) : (m.writeWord a w).wf = true :=
  wf_writeBytes _ _ _ h h1 (by rw [toBytes_length]; exact h2)

@[simp] theorem writeWord_draw (m : TableMem) (a : Nat) (w : Limb) : (m.writeWord a w).draw = m.draw :=
  writeBytes_draw _ _ _

theorem tabOffset_bounds (e : Nat) (i : Fin 8) (he : e < Config.ntab) :
    Config.tabBase ≤ tabOffset e i ∧ tabOffset e i + 4 ≤ Config.tabEnd := by
  have hi := i.isLt
  have : Config.tabEnd = Config.tabBase + 32 * Config.ntab := by decide
  unfold tabOffset
  omega

/-- R66: a table write changes one limb of one entry. -/
theorem entry_writeWord (m : TableMem) (e e' : Nat) (i : Fin 8) (w : Limb) (h : m.wf = true) (he : e < Config.ntab) :
    (m.writeWord (tabOffset e i) w).entry e' = if e' = e then setLimb i w (m.entry e) else m.entry e' := by
  obtain ⟨h1, h2⟩ := tabOffset_bounds e i he
  have hi := i.isLt
  have key : ∀ j : Fin 8, ¬ (e' = e ∧ j = i) →
      (m.writeWord (tabOffset e i) w).readWord (tabOffset e' j) = m.readWord (tabOffset e' j) := by
    intro j hne
    have hj := j.isLt
    apply BitVec.eq_of_toNat_eq
    rw [readWord_toNat, readWord_toNat, readBytes_congr]
    intro k hk
    apply readByte_writeWord_other _ _ _ _ h h1 h2
    by_cases hee : e' = e
    · have : j.val ≠ i.val := fun c => hne ⟨hee, Fin.ext c⟩
      subst hee
      unfold tabOffset
      omega
    · unfold tabOffset
      omega
  apply felt_ext
  intro j
  rw [← readWord_tabOffset]
  by_cases hee : e' = e
  · subst hee
    rw [if_pos rfl]
    by_cases hj : j = i
    · subst hj
      rw [readWord_writeWord_same _ _ _ h h1 h2, limb_setLimb_same]
    · rw [key j (fun c => hj c.2), readWord_tabOffset, limb_setLimb_other _ _ _ _ (Ne.symm hj)]
  · rw [if_neg hee, key j (fun c => hee c.1), readWord_tabOffset]

/-- The memory a reset draws is in canonical form. -/
theorem wf_empty (d : Nat) : ({ draw := d, cells := [] } : TableMem).wf = true := rfl

theorem reset_tab_wf : State.reset.tab.wf = true := rfl

end Sys2Proof.Machine
end

