-- ==== Sys2Proof/Laws/Perm.lean ====
section
/-! SUPPORT. The permutation datapaths: each answers on every input, keeps the number of elements, and, on canonical
elements and canonical table entries, keeps them canonical and computes its field-value form
(spec/44_poseidon1.md R228, spec/45_poseidon2.md R268). -/

namespace Sys2Proof.Laws

open Sys2Proof.Machine

/-! ### Values of Montgomery representatives -/

theorem fAdd_lt (a b : Nat) : fAdd a b < Config.p := by rw [fAdd]; exact Nat.mod_lt _ p_pos
theorem fMul_lt (a b : Nat) : fMul a b < Config.p := by rw [fMul]; exact Nat.mod_lt _ p_pos
theorem montVal_lt (a : Nat) : montVal a < Config.p := by rw [montVal]; exact Nat.mod_lt _ p_pos

theorem fAdd_assoc (a b c : Nat) : fAdd (fAdd a b) c = fAdd a (fAdd b c) := by
  unfold fAdd; rw [Nat.mod_add_mod, Nat.add_mod_mod, Nat.add_assoc]

theorem fAdd_zero_left {a : Nat} (h : a < Config.p) : fAdd 0 a = a := by
  unfold fAdd; rw [Nat.zero_add, Nat.mod_eq_of_lt h]

theorem fAdd_zero_right {a : Nat} (h : a < Config.p) : fAdd a 0 = a := by
  unfold fAdd; rw [Nat.add_zero, Nat.mod_eq_of_lt h]

theorem montVal_add (a b : Nat) : montVal ((a + b) % Config.p) = fAdd (montVal a) (montVal b) := by
  unfold montVal fAdd
  rw [Nat.mod_mul_mod, Nat.add_mul, ← Nat.add_mod]

theorem montVal_mul (a b : Nat) : montVal (a * b * rInv % Config.p) = fMul (montVal a) (montVal b) := by
  unfold montVal fMul
  generalize rInv = k
  rw [Nat.mod_mul_mod, ← Nat.mul_mod, show a * b * k * k = a * k * (b * k) by ring]

theorem fPow5_eq (a : Nat) : fPow5 a = fMul (fMul (fMul a a) (fMul a a)) a := by
  unfold fPow5 fMul
  rw [← Nat.mul_mod, Nat.mod_mul_mod, show a ^ 5 = a * a * (a * a) * a by ring]

theorem montVal_modadd {a b : Felt} (ha : Canonical a) (hb : Canonical b) :
    montVal (modadd a b).toNat = fAdd (montVal a.toNat) (montVal b.toNat) := by
  rw [(modadd_spec a b ha hb).1, montVal_add]

theorem mmulPath_mont (a b : Felt) : ∃ r, mmulPath a b = .ok r ∧ (Canonical a ∨ Canonical b →
    Canonical r ∧ montVal r.toNat = fMul (montVal a.toNat) (montVal b.toNat)) := by
  obtain ⟨r, h, -⟩ := mmulPath_isRedc a b
  refine ⟨r, h, fun hc => ?_⟩
  obtain ⟨r', h', hv, hr⟩ := mmulPath_spec a b hc
  obtain rfl : r = r' := by rw [h] at h'; exact Except.ok.inj h'
  exact ⟨hr, by rw [hv, montVal_mul]⟩

theorem canonical_zero : Canonical (0 : Felt) := by decide
theorem montVal_zero : montVal (0 : Felt).toNat = 0 := by rw [montVal]; rfl

/-! ### Lists of elements -/

theorem montVals_nil : montVals [] = [] := by rw [montVals, List.map_nil]
theorem montVals_cons (v : Felt) (l : List Felt) : montVals (v :: l) = montVal v.toNat :: montVals l := by
  rw [montVals, List.map_cons, montVals]

/-- Canonical inputs `s` give canonical outputs `out` that stand for the values `g`. -/
abbrev Computes (s out : List Felt) (g : List Nat) : Prop := AllCanonical s → AllCanonical out ∧ montVals out = g

theorem allCanonical_cons {v : Felt} {l : List Felt} : AllCanonical (v :: l) ↔ Canonical v ∧ AllCanonical l := by
  simp [AllCanonical]

theorem mapM_computes (f : Felt → Except CmdError Felt) (g : Nat → Nat) (l : List Felt)
    (h : ∀ v, ∃ r, f v = .ok r ∧ (Canonical v → Canonical r ∧ montVal r.toNat = g (montVal v.toNat))) :
    ∃ out, l.mapM f = .ok out ∧ out.length = l.length ∧ Computes l out ((montVals l).map g) := by
  induction l with
  | nil => exact ⟨[], rfl, rfl, fun _ => ⟨by simp [AllCanonical], rfl⟩⟩
  | cons v l ih =>
    obtain ⟨r, h1, h2⟩ := h v
    obtain ⟨out, h3, h4, h5⟩ := ih
    refine ⟨r :: out, ?_, by simp [h4], fun hc => ?_⟩
    · rw [List.mapM_cons, h1, ok_bind, h3, ok_bind]; rfl
    · obtain ⟨hv, hl⟩ := allCanonical_cons.1 hc
      obtain ⟨h6, h7⟩ := h2 hv
      obtain ⟨h8, h9⟩ := h5 hl
      exact ⟨allCanonical_cons.2 ⟨h6, h8⟩, by simp only [montVals_cons, List.map_cons, h7] at h9 ⊢; rw [h9]⟩

/-- R223. -/
theorem sbox_spec (a : Felt) : ∃ r, sbox a = .ok r ∧
    (Canonical a → Canonical r ∧ montVal r.toNat = fPow5 (montVal a.toNat)) := by
  obtain ⟨r1, h1, c1⟩ := mmulPath_mont a a
  obtain ⟨r2, h2, c2⟩ := mmulPath_mont r1 r1
  obtain ⟨r3, h3, c3⟩ := mmulPath_mont r2 a
  refine ⟨r3, ?_, fun ha => ?_⟩
  · rw [sbox, msqrPath_eq, h1, ok_bind, msqrPath_eq, h2, ok_bind, h3]
  · obtain ⟨k1, v1⟩ := c1 (Or.inl ha)
    obtain ⟨k2, v2⟩ := c2 (Or.inl k1)
    obtain ⟨k3, v3⟩ := c3 (Or.inl k2)
    exact ⟨k3, by rw [v3, v2, v1, fPow5_eq]⟩

/-- The table entries `base, …, base+n−1` are canonical. -/
abbrev EntriesCanonical (tab : Nat → Felt) (base n : Nat) : Prop := ∀ k < n, Canonical (tab (base + k))

theorem EntriesCanonical.tail {tab : Nat → Felt} {base n : Nat} (h : EntriesCanonical tab base (n + 1)) :
    EntriesCanonical tab (base + 1) n := fun k hk => by
  have := h (k + 1) (by omega)
  rwa [show base + (k + 1) = base + 1 + k by omega] at this

@[simp] theorem addConsts_length (tab : Nat → Felt) (base : Nat) (l : List Felt) :
    (addConsts tab base l).length = l.length := by
  induction l generalizing base with
  | nil => rfl
  | cons v l ih => simp [addConsts, ih]

theorem addConsts_spec (tab : Nat → Felt) (base : Nat) (l : List Felt) (ht : EntriesCanonical tab base l.length) :
    Computes l (addConsts tab base l) (fAddConsts (entryVal tab) base (montVals l)) := by
  induction l generalizing base with
  | nil => exact fun _ => ⟨by simp [addConsts, AllCanonical], rfl⟩
  | cons v l ih =>
    intro hc
    obtain ⟨hv, hl⟩ := allCanonical_cons.1 hc
    obtain ⟨h1, h2⟩ := ih (base + 1) (EntriesCanonical.tail ht) hl
    have h0 : Canonical (tab base) := ht 0 (by simp)
    refine ⟨allCanonical_cons.2 ⟨(modadd_spec _ _ hv h0).2, h1⟩, ?_⟩
    simp only [addConsts, montVals, List.map_cons, fAddConsts] at h2 ⊢
    rw [montVal_modadd hv h0, h2]

theorem fDot_lt (coef : Nat → Nat) (j : Nat) (l : List Nat) : fDot coef j l < Config.p := by
  cases l with
  | nil => exact p_pos
  | cons v l => exact fAdd_lt _ _

theorem dotFrom_spec (coef : Nat → Felt) (j : Nat) (acc : Felt) (l : List Felt) :
    ∃ r, dotFrom coef j acc l = .ok r ∧ (Canonical acc → AllCanonical l →
      Canonical r ∧ montVal r.toNat = fAdd (montVal acc.toNat) (fDot (fun k => montVal (coef k).toNat) j (montVals l))) := by
  induction l generalizing j acc with
  | nil =>
    refine ⟨acc, rfl, fun ha _ => ⟨ha, ?_⟩⟩
    rw [montVals_nil, fDot, fAdd_zero_right (montVal_lt _)]
  | cons v l ih =>
    obtain ⟨m, h1, c1⟩ := mmulPath_mont (coef j) v
    obtain ⟨r, h2, c2⟩ := ih (j + 1) (modadd acc m)
    refine ⟨r, by rw [dotFrom, h1, ok_bind, h2], fun ha hc => ?_⟩
    obtain ⟨hv, hl⟩ := allCanonical_cons.1 hc
    obtain ⟨k1, v1⟩ := c1 (Or.inr hv)
    obtain ⟨k2, v2⟩ := c2 (modadd_spec _ _ ha k1).2 hl
    exact ⟨k2, by rw [v2, montVal_modadd ha k1, v1, fAdd_assoc, montVals_cons, fDot]⟩

theorem dotFrom_zero_spec (coef : Nat → Felt) (j : Nat) (l : List Felt) :
    ∃ r, dotFrom coef j 0 l = .ok r ∧ (AllCanonical l →
      Canonical r ∧ montVal r.toNat = fDot (fun k => montVal (coef k).toNat) j (montVals l)) := by
  obtain ⟨r, h, c⟩ := dotFrom_spec coef j 0 l
  refine ⟨r, h, fun hl => ?_⟩
  obtain ⟨k, v⟩ := c canonical_zero hl
  exact ⟨k, by rw [v, montVal_zero, fAdd_zero_left (fDot_lt _ _ _)]⟩

/-- R224. -/
theorem mix_spec (tab : Nat → Felt) (base T : Nat) (s : List Felt) :
    ∃ out, mix tab base T s = .ok out ∧ out.length = T ∧ Computes s out (fMix (entryVal tab) base T (montVals s)) := by
  suffices H : ∀ is : List Nat, ∃ out,
      is.mapM (fun i => dotFrom (fun j => tab (base + (j * T + i))) 0 0 s) = .ok out ∧ out.length = is.length ∧
      Computes s out (is.map fun i => fDot (fun j => entryVal tab (base + (j * T + i))) 0 (montVals s)) by
    obtain ⟨out, h1, h2, h3⟩ := H (List.range T)
    exact ⟨out, h1, by rw [h2, List.length_range], h3⟩
  intro is
  induction is with
  | nil => exact ⟨[], rfl, rfl, fun _ => ⟨by simp [AllCanonical], rfl⟩⟩
  | cons i is ih =>
    obtain ⟨r, h1, c1⟩ := dotFrom_zero_spec (fun j => tab (base + (j * T + i))) 0 s
    obtain ⟨out, h2, h3, h4⟩ := ih
    refine ⟨r :: out, by rw [List.mapM_cons, h1, ok_bind, h2, ok_bind]; rfl, by simp [h3], fun hc => ?_⟩
    obtain ⟨k1, v1⟩ := c1 hc
    obtain ⟨k2, v2⟩ := h4 hc
    exact ⟨allCanonical_cons.2 ⟨k1, k2⟩, by simp only [montVals_cons, List.map_cons] at v2 ⊢; rw [v1, v2]⟩

/-! ### Poseidon v1 -/

theorem p1_t_pos (w : P1Width) : 0 < w.t := by cases w <;> decide
theorem p2_t_pos (w : P2Width) : 0 < w.t := by cases w <;> decide

theorem tables_entries {tab : Nat → Felt} (h : TablesCanonical tab) {base n : Nat}
    (hb : base + n ≤ Config.ntab) : EntriesCanonical tab base n := fun k hk => h _ (by omega)

theorem sparseTail_spec (tab : Nat → Felt) (s0 : Felt) (e : Nat) (l : List Felt) :
    ∃ out, sparseTail tab s0 e l = .ok out ∧ out.length = l.length ∧
      (Canonical s0 → Computes l out (fSparseTail (entryVal tab) (montVal s0.toNat) e (montVals l))) := by
  induction l generalizing e with
  | nil => exact ⟨[], rfl, rfl, fun _ _ => ⟨by simp [AllCanonical], rfl⟩⟩
  | cons v l ih =>
    obtain ⟨m, h1, c1⟩ := mmulPath_mont (tab e) s0
    obtain ⟨out, h2, h3, c2⟩ := ih (e + 1)
    refine ⟨modadd m v :: out, by rw [sparseTail, h1, ok_bind, h2, ok_bind]; rfl, by simp [h3], fun hs hc => ?_⟩
    obtain ⟨hv, hl⟩ := allCanonical_cons.1 hc
    obtain ⟨k1, v1⟩ := c1 (Or.inr hs)
    obtain ⟨k2, v2⟩ := c2 hs hl
    refine ⟨allCanonical_cons.2 ⟨(modadd_spec _ _ k1 hv).2, k2⟩, ?_⟩
    simp only [montVals_cons, fSparseTail] at v2 ⊢
    rw [montVal_modadd k1 hv, v1, v2]

/-- The round counters of the schedule stay below their bounds (R221). -/
theorem p1Schedule_mem (w : P1Width) {ph : P1Phase} {r : Nat} (h : (ph, r) ∈ p1Schedule w) :
    (ph = .partialRound → r < w.np) ∧ (ph ≠ .partialRound → r < 4) := by
  simp only [p1Schedule, List.mem_append, List.mem_cons, List.mem_map, List.mem_range, Prod.mk.injEq] at h
  rcases h with ((⟨rfl, rfl⟩ | ⟨x, hx, rfl, rfl⟩) | ⟨x, hx, rfl, rfl⟩) | ⟨x, hx, rfl, rfl⟩ <;> simp_all

/-- R225 to R227: one round of the Poseidon v1 sequencer. -/
theorem p1Round_spec (tab : Nat → Felt) (w : P1Width) (s : List Felt) (hs : s.length = w.t) (ph : P1Phase) (r : Nat) :
    ∃ out, p1Round tab w s (ph, r) = .ok out ∧ out.length = w.t ∧
      ((ph, r) ∈ p1Schedule w → TablesCanonical tab →
        Computes s out (fP1Round (entryVal tab) w (montVals s) (ph, r))) := by
  have hT := p1_t_pos w
  have bound : ∀ k, k + w.t ≤ 8 * w.t + w.np → w.baseC + k + w.t ≤ Config.ntab := by
    cases w <;> simp only [P1Width.t, P1Width.np, P1Width.baseC, Config.ntab] <;> omega
  obtain ⟨sb, hb1, hb2, hb3⟩ := mapM_computes sbox fPow5 s sbox_spec
  cases ph with
  | ark0 =>
    refine ⟨_, rfl, by rw [p1Ark0, addConsts_length, hs], fun _ ht hc => ?_⟩
    exact addConsts_spec tab _ s (tables_entries ht (by rw [hs]; exact bound 0 (by omega))) hc
  | fullA =>
    obtain ⟨out, h1, h2, h3⟩ := mix_spec tab (if r < 3 then w.baseM else w.baseP) w.t
      (addConsts tab (w.baseC + ((r + 1) * w.t)) sb)
    refine ⟨out, by rw [p1Round, p1FullA, hb1, ok_bind, h1], h2, fun hm ht hc => ?_⟩
    have hr := (p1Schedule_mem w hm).2 (by simp)
    obtain ⟨c1, v1⟩ := hb3 hc
    have hidx : (r + 1) * w.t + w.t ≤ 8 * w.t + w.np := by
      have : (r + 1) * w.t ≤ 4 * w.t := Nat.mul_le_mul_right _ (by omega)
      omega
    obtain ⟨c2, v2⟩ := addConsts_spec tab (w.baseC + ((r + 1) * w.t)) sb
      (tables_entries ht (by rw [hb2, hs]; exact bound _ hidx)) c1
    obtain ⟨c3, v3⟩ := h3 c2
    exact ⟨c3, by rw [v3, v2, v1]; rfl⟩
  | partialRound =>
    cases s with
    | nil => rw [List.length_nil] at hs; omega
    | cons v rest =>
      obtain ⟨y, h1, c1⟩ := sbox_spec v
      obtain ⟨t0, h2, c2⟩ := dotFrom_zero_spec (fun j => tab (w.baseS + (2 * w.t - 1) * r + j)) 0
        (modadd y (tab (w.baseC + (5 * w.t + r))) :: rest)
      obtain ⟨rest', h3, h4, c3⟩ := sparseTail_spec tab (modadd y (tab (w.baseC + (5 * w.t + r))))
        (w.baseS + (2 * w.t - 1) * r + w.t) rest
      refine ⟨t0 :: rest', ?_, by rw [List.length_cons, h4, ← hs, List.length_cons], fun hm ht hc => ?_⟩
      · rw [p1Round, p1Partial, h1, ok_bind]
        simp only []
        rw [h2, ok_bind, h3, ok_bind]; rfl
      · have hr := (p1Schedule_mem w hm).1 rfl
        obtain ⟨hv, hl⟩ := allCanonical_cons.1 hc
        obtain ⟨k1, v1⟩ := c1 hv
        have he : Canonical (tab (w.baseC + (5 * w.t + r))) := ht _ (by have := bound (5 * w.t + r) (by omega); omega)
        have ks := (modadd_spec _ _ k1 he).2
        have vs := montVal_modadd k1 he
        obtain ⟨k2, v2⟩ := c2 (allCanonical_cons.2 ⟨ks, hl⟩)
        obtain ⟨k3, v3⟩ := c3 ks hl
        refine ⟨allCanonical_cons.2 ⟨k2, k3⟩, ?_⟩
        simp only [montVals_cons] at v2 v3 ⊢
        rw [v2, v3, vs, v1]; rfl
  | fullB =>
    by_cases h3r : r < 3
    · obtain ⟨out, h1, h2, h3⟩ := mix_spec tab w.baseM w.t (addConsts tab (w.baseC + (5 * w.t + w.np + r * w.t)) sb)
      refine ⟨out, by rw [p1Round, p1FullB, hb1, ok_bind]; simp only [if_pos h3r]; rw [h1], h2, fun hm ht hc => ?_⟩
      obtain ⟨c1, v1⟩ := hb3 hc
      have hidx : 5 * w.t + w.np + r * w.t + w.t ≤ 8 * w.t + w.np := by
        have : r * w.t ≤ 2 * w.t := Nat.mul_le_mul_right _ (by omega)
        omega
      obtain ⟨c2, v2⟩ := addConsts_spec tab (w.baseC + (5 * w.t + w.np + r * w.t)) sb
        (tables_entries ht (by rw [hb2, hs]; exact bound _ hidx)) c1
      obtain ⟨c3, v3⟩ := h3 c2
      exact ⟨c3, by rw [v3, v2, v1, fP1Round, if_pos h3r]⟩
    · obtain ⟨out, h1, h2, h3⟩ := mix_spec tab w.baseM w.t sb
      refine ⟨out, by rw [p1Round, p1FullB, hb1, ok_bind]; simp only [if_neg h3r]; rw [h1], h2, fun hm ht hc => ?_⟩
      obtain ⟨c1, v1⟩ := hb3 hc
      obtain ⟨c3, v3⟩ := h3 c1
      exact ⟨c3, by rw [v3, v1, fP1Round, if_neg h3r]⟩

/-- R228: the whole Poseidon v1 permutation. -/
theorem perm1_spec (tab : Nat → Felt) (w : P1Width) (s : List Felt) (hs : s.length = w.t) :
    ∃ out, perm1 tab w s = .ok out ∧ out.length = w.t ∧
      (TablesCanonical tab → Computes s out (fPerm1 (entryVal tab) w (montVals s))) := by
  suffices H : ∀ (rs : List (P1Phase × Nat)) (s : List Felt), s.length = w.t → (∀ q ∈ rs, q ∈ p1Schedule w) →
      ∃ out, rs.foldlM (p1Round tab w) s = .ok out ∧ out.length = w.t ∧
        (TablesCanonical tab → Computes s out (rs.foldl (fP1Round (entryVal tab) w) (montVals s))) from
    H _ s hs fun _ h => h
  intro rs
  induction rs with
  | nil => exact fun s hs _ => ⟨s, rfl, hs, fun _ hc => ⟨hc, rfl⟩⟩
  | cons q rs ih =>
    intro s hs hq
    obtain ⟨ph, r⟩ := q
    obtain ⟨o1, h1, h2, h3⟩ := p1Round_spec tab w s hs ph r
    obtain ⟨o2, h4, h5, h6⟩ := ih o1 h2 fun q h => hq q (List.mem_cons_of_mem _ h)
    refine ⟨o2, by rw [List.foldlM_cons, h1, ok_bind, h4], h5, fun ht hc => ?_⟩
    obtain ⟨c1, v1⟩ := h3 (hq _ List.mem_cons_self) ht hc
    obtain ⟨c2, v2⟩ := h6 ht c1
    exact ⟨c2, by rw [v2, v1, List.foldl_cons]⟩

/-! ### Poseidon2 -/

theorem smallMul_spec (k : Nat) (v : Felt) (hv : Canonical v) :
    Canonical (smallMul k v) ∧ montVal (smallMul k v).toNat = fMul k (montVal v.toNat) := by
  induction k with
  | zero => exact ⟨canonical_zero, by rw [smallMul, montVal_zero, fMul, Nat.zero_mul, Nat.zero_mod]⟩
  | succ k ih =>
    cases k with
    | zero => exact ⟨hv, by rw [smallMul, fMul, Nat.zero_add, Nat.one_mul, Nat.mod_eq_of_lt (montVal_lt _)]⟩
    | succ k =>
    obtain ⟨h1, h2⟩ := ih
    refine ⟨(modadd_spec _ _ h1 hv).2, ?_⟩
    rw [smallMul, montVal_modadd h1 hv, h2]
    unfold fAdd fMul
    rw [Nat.mod_add_mod]; congr 1; ring

theorem fRowSum_lt (ks vs : List Nat) : fRowSum ks vs < Config.p := by
  cases ks with
  | nil => exact p_pos
  | cons k ks =>
    cases vs with
    | nil => exact p_pos
    | cons v vs => exact fAdd_lt _ _

theorem rowSum_nil (acc : Felt) (l : List Felt) : rowSum acc [] l = acc := by rw [rowSum, List.zip_nil_left, List.foldl_nil]
theorem rowSum_nil_right (acc : Felt) (ks : List Nat) : rowSum acc ks [] = acc := by
  rw [rowSum, List.zip_nil_right, List.foldl_nil]
theorem rowSum_cons (acc : Felt) (k : Nat) (ks : List Nat) (v : Felt) (vs : List Felt) :
    rowSum acc (k :: ks) (v :: vs) = rowSum (modadd acc (smallMul k v)) ks vs := by
  rw [rowSum, List.zip_cons_cons, List.foldl_cons, rowSum]
theorem fRowSum_nil (l : List Nat) : fRowSum [] l = 0 := by cases l <;> rfl
theorem fRowSum_nil_right (ks : List Nat) : fRowSum ks [] = 0 := by cases ks <;> rfl
theorem fRowSum_cons (k : Nat) (ks : List Nat) (v : Nat) (vs : List Nat) :
    fRowSum (k :: ks) (v :: vs) = fAdd (fMul k v) (fRowSum ks vs) := by rw [fRowSum]

theorem rowSum_spec (acc : Felt) (row : List Nat) (l : List Felt) (ha : Canonical acc) (hl : AllCanonical l) :
    Canonical (rowSum acc row l) ∧
      montVal (rowSum acc row l).toNat = fAdd (montVal acc.toNat) (fRowSum row (montVals l)) := by
  induction row generalizing acc l with
  | nil => rw [rowSum_nil, fRowSum_nil, fAdd_zero_right (montVal_lt _)]; exact ⟨ha, rfl⟩
  | cons k ks ih =>
    cases l with
    | nil => rw [rowSum_nil_right, montVals_nil, fRowSum_nil_right, fAdd_zero_right (montVal_lt _)]; exact ⟨ha, rfl⟩
    | cons v vs =>
      obtain ⟨hv, hvs⟩ := allCanonical_cons.1 hl
      obtain ⟨c1, v1⟩ := smallMul_spec k v hv
      have c2 := (modadd_spec _ _ ha c1).2
      obtain ⟨c3, v3⟩ := ih (modadd acc (smallMul k v)) vs c2 hvs
      rw [rowSum_cons, montVals_cons, fRowSum_cons, ← fAdd_assoc, ← v1, ← montVal_modadd ha c1]
      exact ⟨c3, v3⟩

/-- R262. -/
theorem meLayer_spec (prm : Config.P2Params) (w : P2Width) (s : List Felt) :
    Computes s (meLayer prm w s) (fMeLayer prm w (montVals s)) := by
  intro hc
  unfold meLayer fMeLayer
  generalize meRows prm w = rows
  induction rows with
  | nil => exact ⟨by simp [AllCanonical], rfl⟩
  | cons row rows ih =>
    obtain ⟨c1, v1⟩ := rowSum_spec 0 row s canonical_zero hc
    obtain ⟨c2, v2⟩ := ih
    refine ⟨by rw [List.map_cons]; exact allCanonical_cons.2 ⟨c1, c2⟩, ?_⟩
    simp only [montVals_cons, List.map_cons] at v2 ⊢
    rw [v1, v2, montVal_zero, fAdd_zero_left (fRowSum_lt _ _)]

theorem sboxArk_spec (order : Config.ArkOrder) (v rc : Felt) : ∃ r, sboxArk order v rc = .ok r ∧
    (Canonical v → Canonical rc → Canonical r ∧ montVal r.toNat = fSboxArk order (montVal v.toNat) (montVal rc.toNat)) := by
  cases order with
  | sboxThenAdd =>
    obtain ⟨y, h1, c1⟩ := sbox_spec v
    refine ⟨modadd y rc, by rw [sboxArk, h1, ok_bind]; rfl, fun hv hrc => ?_⟩
    obtain ⟨k, e⟩ := c1 hv
    exact ⟨(modadd_spec _ _ k hrc).2, by rw [montVal_modadd k hrc, e]; rfl⟩
  | addThenSbox =>
    obtain ⟨y, h1, c1⟩ := sbox_spec (modadd v rc)
    refine ⟨y, by rw [sboxArk, h1], fun hv hrc => ?_⟩
    obtain ⟨k, e⟩ := c1 (modadd_spec _ _ hv hrc).2
    exact ⟨k, by rw [e, montVal_modadd hv hrc]; rfl⟩

theorem sboxArkAll_spec (order : Config.ArkOrder) (tab : Nat → Felt) (e : Nat) (l : List Felt) :
    ∃ out, sboxArkAll order tab e l = .ok out ∧ out.length = l.length ∧ (EntriesCanonical tab e l.length →
      Computes l out (fSboxArkAll order (entryVal tab) e (montVals l))) := by
  induction l generalizing e with
  | nil => exact ⟨[], rfl, rfl, fun _ _ => ⟨by simp [AllCanonical], rfl⟩⟩
  | cons v l ih =>
    obtain ⟨y, h1, c1⟩ := sboxArk_spec order v (tab e)
    obtain ⟨out, h2, h3, c2⟩ := ih (e + 1)
    refine ⟨y :: out, by rw [sboxArkAll, h1, ok_bind, h2, ok_bind]; rfl, by simp [h3], fun ht hc => ?_⟩
    obtain ⟨hv, hl⟩ := allCanonical_cons.1 hc
    obtain ⟨k1, v1⟩ := c1 hv (ht 0 (by simp))
    obtain ⟨k2, v2⟩ := c2 (EntriesCanonical.tail ht) hl
    refine ⟨allCanonical_cons.2 ⟨k1, k2⟩, ?_⟩
    simp only [montVals_cons, fSboxArkAll] at v2 ⊢
    rw [v1, v2]

theorem diagMul_spec (tab : Nat → Felt) (set : P2Set) (w : P2Width) (i : Nat) (v : Felt) :
    ∃ r, diagMul tab set w i v = .ok r ∧ (Canonical v →
      Canonical r ∧ montVal r.toNat = fMul (fDiag (entryVal tab) set w i) (montVal v.toNat)) := by
  cases w with
  | t2 =>
    refine ⟨smallMul (if i = 1 then 2 else 1) v, rfl, fun hv => ?_⟩
    obtain ⟨h1, h2⟩ := smallMul_spec (if i = 1 then 2 else 1) v hv
    exact ⟨h1, by rw [h2, fDiag]⟩
  | t3 =>
    refine ⟨smallMul (if i = 2 then 2 else 1) v, rfl, fun hv => ?_⟩
    obtain ⟨h1, h2⟩ := smallMul_spec (if i = 2 then 2 else 1) v hv
    exact ⟨h1, by rw [h2, fDiag]⟩
  | t4 =>
    obtain ⟨r, h, c⟩ := mmulPath_mont (tab (baseDIAG set + i)) v
    refine ⟨r, by rw [diagMul, h], fun hv => ?_⟩
    obtain ⟨h1, h2⟩ := c (Or.inr hv)
    exact ⟨h1, by rw [h2, fDiag]⟩

theorem diagLayer_spec (tab : Nat → Felt) (set : P2Set) (w : P2Width) (sum : Felt) (i : Nat) (l : List Felt) :
    ∃ out, diagLayer tab set w sum i l = .ok out ∧ out.length = l.length ∧ (Canonical sum →
      Computes l out (fDiagLayer (entryVal tab) set w (montVal sum.toNat) i (montVals l))) := by
  induction l generalizing i with
  | nil => exact ⟨[], rfl, rfl, fun _ _ => ⟨by simp [AllCanonical], rfl⟩⟩
  | cons v l ih =>
    obtain ⟨m, h1, c1⟩ := diagMul_spec tab set w i v
    obtain ⟨out, h2, h3, c2⟩ := ih (i + 1)
    refine ⟨modadd sum m :: out, by rw [diagLayer, h1, ok_bind, h2, ok_bind]; rfl, by simp [h3], fun hs hc => ?_⟩
    obtain ⟨hv, hl⟩ := allCanonical_cons.1 hc
    obtain ⟨k1, v1⟩ := c1 hv
    obtain ⟨k2, v2⟩ := c2 hs hl
    refine ⟨allCanonical_cons.2 ⟨(modadd_spec _ _ hs k1).2, k2⟩, ?_⟩
    simp only [montVals_cons, fDiagLayer] at v2 ⊢
    rw [montVal_modadd hs k1, v1, v2]

theorem foldl_modadd_spec (acc : Felt) (l : List Felt) (ha : Canonical acc) (hl : AllCanonical l) :
    Canonical (l.foldl modadd acc) ∧ montVal (l.foldl modadd acc).toNat = (montVals l).foldl fAdd (montVal acc.toNat) := by
  induction l generalizing acc with
  | nil => rw [montVals_nil, List.foldl_nil, List.foldl_nil]; exact ⟨ha, rfl⟩
  | cons v l ih =>
    obtain ⟨hv, hl⟩ := allCanonical_cons.1 hl
    obtain ⟨h1, h2⟩ := ih (modadd acc v) (modadd_spec _ _ ha hv).2 hl
    rw [List.foldl_cons, montVals_cons, List.foldl_cons]
    exact ⟨h1, by rw [h2, montVal_modadd ha hv]⟩

theorem p2Schedule_mem {ph : P2Phase} {r : Nat} (h : (ph, r) ∈ p2Schedule) :
    (ph = .intRound → r < 56) ∧ (ph ≠ .intRound → r < 4) := by
  simp only [p2Schedule, List.mem_append, List.mem_cons, List.mem_map, List.mem_range, Prod.mk.injEq] at h
  rcases h with ((⟨rfl, rfl⟩ | ⟨x, hx, rfl, rfl⟩) | ⟨x, hx, rfl, rfl⟩) | ⟨x, hx, rfl, rfl⟩ <;> simp_all

/-- R262: ME_T has T rows. -/
theorem meRows_length (prm : Config.P2Params) (w : P2Width) : (meRows prm w).length = w.t := by
  cases w <;> exact (List.length_map _).trans (Vector.length_toList)

theorem meLayer_length (prm : Config.P2Params) (w : P2Width) (s : List Felt) : (meLayer prm w s).length = w.t := by
  rw [meLayer, List.length_map, meRows_length]

/-- R265: an external round. -/
theorem p2Ext_spec (prm : Config.P2Params) (tab : Nat → Felt) (w : P2Width) (e : Nat) (s : List Felt) :
    ∃ out, p2Ext prm tab w e s = .ok out ∧ out.length = w.t ∧ (EntriesCanonical tab e s.length →
      Computes s out (fMeLayer prm w (fSboxArkAll prm.arkOrder (entryVal tab) e (montVals s)))) := by
  obtain ⟨sb, h1, -, c1⟩ := sboxArkAll_spec prm.arkOrder tab e s
  refine ⟨meLayer prm w sb, by rw [p2Ext, h1, ok_bind]; rfl, meLayer_length prm w sb, fun ht hc => ?_⟩
  obtain ⟨k1, v1⟩ := c1 ht hc
  obtain ⟨k2, v2⟩ := meLayer_spec prm w sb k1
  exact ⟨k2, by rw [v2, v1]⟩

/-- R265, R267, R268: one round of the Poseidon2 sequencer. -/
theorem p2Round_spec (prm : Config.P2Params) (tab : Nat → Felt) (set : P2Set) (w : P2Width) (s : List Felt)
    (hs : s.length = w.t) (ph : P2Phase) (r : Nat) :
    ∃ out, p2Round prm tab set w s (ph, r) = .ok out ∧ out.length = w.t ∧
      ((ph, r) ∈ p2Schedule → TablesCanonical tab →
        Computes s out (fP2Round prm (entryVal tab) set w (montVals s) (ph, r))) := by
  have hT := p2_t_pos w
  have bI : baseRCI set w + 4 * w.t ≤ Config.ntab := by cases set <;> cases w <;> decide
  have bN : baseRCN set w + 56 ≤ Config.ntab := by cases set <;> cases w <;> decide
  have bF : baseRCF set w + 4 * w.t ≤ Config.ntab := by cases set <;> cases w <;> decide
  have row : ∀ r, r < 4 → r * w.t + w.t ≤ 4 * w.t := fun r hr => by
    have : r * w.t ≤ 3 * w.t := Nat.mul_le_mul_right _ (by omega)
    omega
  cases ph with
  | mix0 => exact ⟨_, rfl, meLayer_length prm w s, fun _ _ hc => meLayer_spec prm w s hc⟩
  | extA =>
    obtain ⟨out, h1, h2, h3⟩ := p2Ext_spec prm tab w (baseRCI set w + r * w.t) s
    refine ⟨out, h1, h2, fun hm ht => h3 (tables_entries ht ?_)⟩
    have := row r ((p2Schedule_mem hm).2 (by simp))
    omega
  | intRound =>
    cases s with
    | nil => rw [List.length_nil] at hs; omega
    | cons v rest =>
      obtain ⟨s0, h1, c1⟩ := sboxArk_spec prm.arkOrder v (tab (baseRCN set w + r))
      obtain ⟨out, h2, h3, c2⟩ := diagLayer_spec tab set w (rest.foldl modadd s0) 0 (s0 :: rest)
      refine ⟨out, by rw [p2Round, p2Int, h1, ok_bind, h2], by rw [h3, ← hs]; rfl, fun hm ht hc => ?_⟩
      have hr := (p2Schedule_mem hm).1 rfl
      obtain ⟨hv, hl⟩ := allCanonical_cons.1 hc
      obtain ⟨k1, v1⟩ := c1 hv (ht _ (by omega))
      obtain ⟨k2, v2⟩ := foldl_modadd_spec s0 rest k1 hl
      obtain ⟨k3, v3⟩ := c2 k2 (allCanonical_cons.2 ⟨k1, hl⟩)
      refine ⟨k3, ?_⟩
      rw [v3, v2, montVals_cons, v1, montVals_cons, fP2Round, fP2Int]
  | extB =>
    obtain ⟨out, h1, h2, h3⟩ := p2Ext_spec prm tab w (baseRCF set w + r * w.t) s
    refine ⟨out, h1, h2, fun hm ht => h3 (tables_entries ht ?_)⟩
    have := row r ((p2Schedule_mem hm).2 (by simp))
    omega

/-- R268: the whole Poseidon2 permutation. -/
theorem perm2_spec (prm : Config.P2Params) (tab : Nat → Felt) (set : P2Set) (w : P2Width) (s : List Felt)
    (hs : s.length = w.t) :
    ∃ out, perm2 prm tab set w s = .ok out ∧ out.length = w.t ∧
      (TablesCanonical tab → Computes s out (fPerm2 prm (entryVal tab) set w (montVals s))) := by
  suffices H : ∀ (rs : List (P2Phase × Nat)) (s : List Felt), s.length = w.t → (∀ q ∈ rs, q ∈ p2Schedule) →
      ∃ out, rs.foldlM (p2Round prm tab set w) s = .ok out ∧ out.length = w.t ∧
        (TablesCanonical tab → Computes s out (rs.foldl (fP2Round prm (entryVal tab) set w) (montVals s))) from
    H _ s hs fun _ h => h
  intro rs
  induction rs with
  | nil => exact fun s hs _ => ⟨s, rfl, hs, fun _ hc => ⟨hc, rfl⟩⟩
  | cons q rs ih =>
    intro s hs hq
    obtain ⟨ph, r⟩ := q
    obtain ⟨o1, h1, h2, h3⟩ := p2Round_spec prm tab set w s hs ph r
    obtain ⟨o2, h4, h5, h6⟩ := ih o1 h2 fun q h => hq q (List.mem_cons_of_mem _ h)
    refine ⟨o2, by rw [List.foldlM_cons, h1, ok_bind, h4], h5, fun ht hc => ?_⟩
    obtain ⟨c1, v1⟩ := h3 (hq _ List.mem_cons_self) ht hc
    obtain ⟨c2, v2⟩ := h6 ht c1
    exact ⟨c2, by rw [v2, v1, List.foldl_cons]⟩

/-! ### The domain conversions (R229) -/

theorem domainVals_nil (d : Domain) : domainVals d [] = [] := by rw [domainVals, List.map_nil]

theorem domainVals_cons (d : Domain) (v : Felt) (l : List Felt) :
    domainVals d (v :: l) = domainVal d v.toNat :: domainVals d l := by rw [domainVals, List.map_cons, domainVals]

theorem montVal_mul_radix (v : Nat) : montVal (v * 2 ^ 256 % Config.p) = v % Config.p := by
  have h := radix_mul_rInv
  rw [montVal, Nat.mod_mul_mod, Nat.mul_assoc]
  have := Nat.ModEq.mul_left v h
  rwa [Nat.mul_one, Nat.ModEq] at this

theorem enterDomain_spec (d : Domain) (v : Felt) : ∃ r, enterDomain d v = .ok r ∧
    (Canonical v → Canonical r ∧ montVal r.toNat = domainVal d v.toNat) := by
  cases d with
  | canonical =>
    obtain ⟨r, h1, h2, h3⟩ := tomontPath_spec v
    exact ⟨r, h1, fun _ => ⟨h3, by rw [h2, montVal_mul_radix, domainVal]⟩⟩
  | montgomery => exact ⟨v, rfl, fun hv => ⟨hv, by rw [domainVal]⟩⟩

theorem leaveDomain_spec (d : Domain) (v : Felt) : ∃ r, leaveDomain d v = .ok r ∧
    (Canonical v → Canonical r ∧ domainVal d r.toNat = montVal v.toNat) := by
  cases d with
  | canonical =>
    obtain ⟨r, h1, h2, h3⟩ := frommontPath_spec v
    exact ⟨r, h1, fun _ => ⟨h3, by rw [domainVal, Nat.mod_eq_of_lt h3, h2]⟩⟩
  | montgomery => exact ⟨v, rfl, fun hv => ⟨hv, by rw [domainVal]⟩⟩

theorem mapM_enter (d : Domain) (l : List Felt) : ∃ out, l.mapM (enterDomain d) = .ok out ∧ out.length = l.length ∧
    (AllCanonical l → AllCanonical out ∧ montVals out = domainVals d l) := by
  induction l with
  | nil => exact ⟨[], rfl, rfl, fun _ => ⟨by simp [AllCanonical], by rw [montVals_nil, domainVals_nil]⟩⟩
  | cons v l ih =>
    obtain ⟨r, h1, c1⟩ := enterDomain_spec d v
    obtain ⟨out, h3, h4, c2⟩ := ih
    refine ⟨r :: out, by rw [List.mapM_cons, h1, ok_bind, h3, ok_bind]; rfl, by simp [h4], fun hc => ?_⟩
    obtain ⟨hv, hl⟩ := allCanonical_cons.1 hc
    obtain ⟨k1, v1⟩ := c1 hv
    obtain ⟨k2, v2⟩ := c2 hl
    refine ⟨allCanonical_cons.2 ⟨k1, k2⟩, ?_⟩
    rw [montVals_cons, v1, v2, domainVals_cons]

theorem mapM_leave (d : Domain) (l : List Felt) : ∃ out, l.mapM (leaveDomain d) = .ok out ∧ out.length = l.length ∧
    (AllCanonical l → AllCanonical out ∧ domainVals d out = montVals l) := by
  induction l with
  | nil => exact ⟨[], rfl, rfl, fun _ => ⟨by simp [AllCanonical], by rw [montVals_nil, domainVals_nil]⟩⟩
  | cons v l ih =>
    obtain ⟨r, h1, c1⟩ := leaveDomain_spec d v
    obtain ⟨out, h3, h4, c2⟩ := ih
    refine ⟨r :: out, by rw [List.mapM_cons, h1, ok_bind, h3, ok_bind]; rfl, by simp [h4], fun hc => ?_⟩
    obtain ⟨hv, hl⟩ := allCanonical_cons.1 hc
    obtain ⟨k1, v1⟩ := c1 hv
    obtain ⟨k2, v2⟩ := c2 hl
    refine ⟨allCanonical_cons.2 ⟨k1, k2⟩, ?_⟩
    rw [montVals_cons, ← v1, ← v2, domainVals_cons]

end Sys2Proof.Laws
end

