-- ==== Sys2Proof/Laws/State.lean ====
section
/-! SUPPORT. One lemma per field per update of the state, so that no later proof unfolds a record update. -/

namespace Sys2Proof.Machine

/-! `accept` -/

@[simp] theorem accept_x (s : State) (w : Limb) : (s.accept w).x = s.x := rfl
@[simp] theorem accept_c (s : State) (w : Limb) : (s.accept w).c = s.c := rfl
@[simp] theorem accept_lt (s : State) (w : Limb) : (s.accept w).lt = s.lt := rfl
@[simp] theorem accept_eq (s : State) (w : Limb) : (s.accept w).eq = s.eq := rfl
@[simp] theorem accept_busy (s : State) (w : Limb) : (s.accept w).busy = true := rfl
@[simp] theorem accept_done (s : State) (w : Limb) : (s.accept w).done = false := rfl
@[simp] theorem accept_esticky (s : State) (w : Limb) : (s.accept w).esticky = s.esticky := rfl
@[simp] theorem accept_overrun (s : State) (w : Limb) : (s.accept w).overrun = s.overrun := rfl
@[simp] theorem accept_tlocked (s : State) (w : Limb) : (s.accept w).tlocked = s.tlocked := rfl
@[simp] theorem accept_err (s : State) (w : Limb) : (s.accept w).err = s.err := rfl
@[simp] theorem accept_ie (s : State) (w : Limb) : (s.accept w).ie = s.ie := rfl
@[simp] theorem accept_cmdReg (s : State) (w : Limb) : (s.accept w).cmdReg = w := rfl
@[simp] theorem accept_snap (s : State) (w : Limb) : (s.accept w).snap = { x := s.x, c := s.c } := rfl
@[simp] theorem accept_tab (s : State) (w : Limb) : (s.accept w).tab = s.tab := rfl
@[simp] theorem accept_params (s : State) (w : Limb) : (s.accept w).params = s.params := rfl
@[simp] theorem accept_rstN (s : State) (w : Limb) : (s.accept w).rstN = s.rstN := rfl
@[simp] theorem accept_answer (s : State) (w : Limb) : (s.accept w).answer = s.answer := rfl
@[simp] theorem accept_events (s : State) (w : Limb) : (s.accept w).events = s.events := rfl

/-! `setOverrun` -/

@[simp] theorem setOverrun_x (s : State) : s.setOverrun.x = s.x := rfl
@[simp] theorem setOverrun_c (s : State) : s.setOverrun.c = s.c := rfl
@[simp] theorem setOverrun_lt (s : State) : s.setOverrun.lt = s.lt := rfl
@[simp] theorem setOverrun_eq (s : State) : s.setOverrun.eq = s.eq := rfl
@[simp] theorem setOverrun_busy (s : State) : s.setOverrun.busy = s.busy := rfl
@[simp] theorem setOverrun_done (s : State) : s.setOverrun.done = s.done := rfl
@[simp] theorem setOverrun_esticky (s : State) : s.setOverrun.esticky = s.esticky := rfl
@[simp] theorem setOverrun_overrun (s : State) : s.setOverrun.overrun = true := rfl
@[simp] theorem setOverrun_tlocked (s : State) : s.setOverrun.tlocked = s.tlocked := rfl
@[simp] theorem setOverrun_err (s : State) : s.setOverrun.err = s.err := rfl
@[simp] theorem setOverrun_ie (s : State) : s.setOverrun.ie = s.ie := rfl
@[simp] theorem setOverrun_cmdReg (s : State) : s.setOverrun.cmdReg = s.cmdReg := rfl
@[simp] theorem setOverrun_snap (s : State) : s.setOverrun.snap = s.snap := rfl
@[simp] theorem setOverrun_tab (s : State) : s.setOverrun.tab = s.tab := rfl
@[simp] theorem setOverrun_params (s : State) : s.setOverrun.params = s.params := rfl
@[simp] theorem setOverrun_rstN (s : State) : s.setOverrun.rstN = s.rstN := rfl
@[simp] theorem setOverrun_answer (s : State) : s.setOverrun.answer = s.answer := rfl
@[simp] theorem setOverrun_events (s : State) : s.setOverrun.events = s.events := rfl

/-! `commit` -/

@[simp] theorem commit_x (s : State) (st : Staged) : (s.commit st).x = writeRegs s.x st.regs := rfl
@[simp] theorem commit_c (s : State) (st : Staged) : (s.commit st).c = st.flagC.getD s.c := rfl
@[simp] theorem commit_lt (s : State) (st : Staged) : (s.commit st).lt = (st.flagCmp.map (·.1)).getD s.lt := rfl
@[simp] theorem commit_eq (s : State) (st : Staged) : (s.commit st).eq = (st.flagCmp.map (·.2)).getD s.eq := rfl
@[simp] theorem commit_busy (s : State) (st : Staged) : (s.commit st).busy = s.busy := rfl
@[simp] theorem commit_done (s : State) (st : Staged) : (s.commit st).done = s.done := rfl
@[simp] theorem commit_esticky (s : State) (st : Staged) : (s.commit st).esticky = s.esticky := rfl
@[simp] theorem commit_overrun (s : State) (st : Staged) : (s.commit st).overrun = s.overrun := rfl
@[simp] theorem commit_tlocked (s : State) (st : Staged) : (s.commit st).tlocked = (s.tlocked || st.lock) := rfl
@[simp] theorem commit_err (s : State) (st : Staged) : (s.commit st).err = s.err := rfl
@[simp] theorem commit_ie (s : State) (st : Staged) : (s.commit st).ie = s.ie := rfl
@[simp] theorem commit_cmdReg (s : State) (st : Staged) : (s.commit st).cmdReg = s.cmdReg := rfl
@[simp] theorem commit_snap (s : State) (st : Staged) : (s.commit st).snap = s.snap := rfl
@[simp] theorem commit_tab (s : State) (st : Staged) : (s.commit st).tab = s.tab := rfl
@[simp] theorem commit_params (s : State) (st : Staged) : (s.commit st).params = s.params := rfl
@[simp] theorem commit_rstN (s : State) (st : Staged) : (s.commit st).rstN = s.rstN := rfl
@[simp] theorem commit_answer (s : State) (st : Staged) : (s.commit st).answer = s.answer := rfl
@[simp] theorem commit_events (s : State) (st : Staged) : (s.commit st).events = s.events := rfl

/-! `finishOk` -/

@[simp] theorem finishOk_x (s : State) : s.finishOk.x = s.x := rfl
@[simp] theorem finishOk_c (s : State) : s.finishOk.c = s.c := rfl
@[simp] theorem finishOk_lt (s : State) : s.finishOk.lt = s.lt := rfl
@[simp] theorem finishOk_eq (s : State) : s.finishOk.eq = s.eq := rfl
@[simp] theorem finishOk_busy (s : State) : s.finishOk.busy = false := rfl
@[simp] theorem finishOk_done (s : State) : s.finishOk.done = true := rfl
@[simp] theorem finishOk_esticky (s : State) : s.finishOk.esticky = s.esticky := rfl
@[simp] theorem finishOk_overrun (s : State) : s.finishOk.overrun = s.overrun := rfl
@[simp] theorem finishOk_tlocked (s : State) : s.finishOk.tlocked = s.tlocked := rfl
@[simp] theorem finishOk_err (s : State) : s.finishOk.err = 0 := rfl
@[simp] theorem finishOk_ie (s : State) : s.finishOk.ie = s.ie := rfl
@[simp] theorem finishOk_cmdReg (s : State) : s.finishOk.cmdReg = s.cmdReg := rfl
@[simp] theorem finishOk_snap (s : State) : s.finishOk.snap = s.snap := rfl
@[simp] theorem finishOk_tab (s : State) : s.finishOk.tab = s.tab := rfl
@[simp] theorem finishOk_params (s : State) : s.finishOk.params = s.params := rfl
@[simp] theorem finishOk_rstN (s : State) : s.finishOk.rstN = s.rstN := rfl
@[simp] theorem finishOk_answer (s : State) : s.finishOk.answer = s.answer := rfl
@[simp] theorem finishOk_events (s : State) : s.finishOk.events = s.events := rfl

/-! `finishError` -/

@[simp] theorem finishError_x (s : State) (e : CmdError) : (s.finishError e).x = s.x := rfl
@[simp] theorem finishError_c (s : State) (e : CmdError) : (s.finishError e).c = s.c := rfl
@[simp] theorem finishError_lt (s : State) (e : CmdError) : (s.finishError e).lt = s.lt := rfl
@[simp] theorem finishError_eq (s : State) (e : CmdError) : (s.finishError e).eq = s.eq := rfl
@[simp] theorem finishError_busy (s : State) (e : CmdError) : (s.finishError e).busy = false := rfl
@[simp] theorem finishError_done (s : State) (e : CmdError) : (s.finishError e).done = true := rfl
@[simp] theorem finishError_esticky (s : State) (e : CmdError) : (s.finishError e).esticky = true := rfl
@[simp] theorem finishError_overrun (s : State) (e : CmdError) : (s.finishError e).overrun = s.overrun := rfl
@[simp] theorem finishError_tlocked (s : State) (e : CmdError) : (s.finishError e).tlocked = s.tlocked := rfl
@[simp] theorem finishError_err (s : State) (e : CmdError) : (s.finishError e).err = e.code := rfl
@[simp] theorem finishError_ie (s : State) (e : CmdError) : (s.finishError e).ie = s.ie := rfl
@[simp] theorem finishError_cmdReg (s : State) (e : CmdError) : (s.finishError e).cmdReg = s.cmdReg := rfl
@[simp] theorem finishError_snap (s : State) (e : CmdError) : (s.finishError e).snap = s.snap := rfl
@[simp] theorem finishError_tab (s : State) (e : CmdError) : (s.finishError e).tab = s.tab := rfl
@[simp] theorem finishError_params (s : State) (e : CmdError) : (s.finishError e).params = s.params := rfl
@[simp] theorem finishError_rstN (s : State) (e : CmdError) : (s.finishError e).rstN = s.rstN := rfl
@[simp] theorem finishError_answer (s : State) (e : CmdError) : (s.finishError e).answer = s.answer := rfl
@[simp] theorem finishError_events (s : State) (e : CmdError) : (s.finishError e).events = s.events := rfl

/-! `writeStatus` -/

@[simp] theorem writeStatus_x (s : State) (w : Limb) : (s.writeStatus w).x = s.x := rfl
@[simp] theorem writeStatus_c (s : State) (w : Limb) : (s.writeStatus w).c = s.c := rfl
@[simp] theorem writeStatus_lt (s : State) (w : Limb) : (s.writeStatus w).lt = s.lt := rfl
@[simp] theorem writeStatus_eq (s : State) (w : Limb) : (s.writeStatus w).eq = s.eq := rfl
@[simp] theorem writeStatus_busy (s : State) (w : Limb) : (s.writeStatus w).busy = s.busy := rfl
@[simp] theorem writeStatus_done (s : State) (w : Limb) : (s.writeStatus w).done = (s.done && !w.getLsbD 1) := rfl
@[simp] theorem writeStatus_esticky (s : State) (w : Limb) : (s.writeStatus w).esticky = (s.esticky && !w.getLsbD 5) := rfl
@[simp] theorem writeStatus_overrun (s : State) (w : Limb) : (s.writeStatus w).overrun = (s.overrun && !w.getLsbD 6) := rfl
@[simp] theorem writeStatus_tlocked (s : State) (w : Limb) : (s.writeStatus w).tlocked = s.tlocked := rfl
@[simp] theorem writeStatus_err (s : State) (w : Limb) : (s.writeStatus w).err = s.err := rfl
@[simp] theorem writeStatus_ie (s : State) (w : Limb) : (s.writeStatus w).ie = s.ie := rfl
@[simp] theorem writeStatus_cmdReg (s : State) (w : Limb) : (s.writeStatus w).cmdReg = s.cmdReg := rfl
@[simp] theorem writeStatus_snap (s : State) (w : Limb) : (s.writeStatus w).snap = s.snap := rfl
@[simp] theorem writeStatus_tab (s : State) (w : Limb) : (s.writeStatus w).tab = s.tab := rfl
@[simp] theorem writeStatus_params (s : State) (w : Limb) : (s.writeStatus w).params = s.params := rfl
@[simp] theorem writeStatus_rstN (s : State) (w : Limb) : (s.writeStatus w).rstN = s.rstN := rfl
@[simp] theorem writeStatus_answer (s : State) (w : Limb) : (s.writeStatus w).answer = s.answer := rfl
@[simp] theorem writeStatus_events (s : State) (w : Limb) : (s.writeStatus w).events = s.events := rfl

/-! `writeCtrl` -/

@[simp] theorem writeCtrl_x (s : State) (w : Limb) : (s.writeCtrl w).x = s.x := rfl
@[simp] theorem writeCtrl_c (s : State) (w : Limb) : (s.writeCtrl w).c = s.c := rfl
@[simp] theorem writeCtrl_lt (s : State) (w : Limb) : (s.writeCtrl w).lt = s.lt := rfl
@[simp] theorem writeCtrl_eq (s : State) (w : Limb) : (s.writeCtrl w).eq = s.eq := rfl
@[simp] theorem writeCtrl_busy (s : State) (w : Limb) : (s.writeCtrl w).busy = s.busy := rfl
@[simp] theorem writeCtrl_done (s : State) (w : Limb) : (s.writeCtrl w).done = s.done := rfl
@[simp] theorem writeCtrl_esticky (s : State) (w : Limb) : (s.writeCtrl w).esticky = s.esticky := rfl
@[simp] theorem writeCtrl_overrun (s : State) (w : Limb) : (s.writeCtrl w).overrun = s.overrun := rfl
@[simp] theorem writeCtrl_tlocked (s : State) (w : Limb) : (s.writeCtrl w).tlocked = s.tlocked := rfl
@[simp] theorem writeCtrl_err (s : State) (w : Limb) : (s.writeCtrl w).err = s.err := rfl
@[simp] theorem writeCtrl_ie (s : State) (w : Limb) : (s.writeCtrl w).ie = w.getLsbD 0 := rfl
@[simp] theorem writeCtrl_cmdReg (s : State) (w : Limb) : (s.writeCtrl w).cmdReg = s.cmdReg := rfl
@[simp] theorem writeCtrl_snap (s : State) (w : Limb) : (s.writeCtrl w).snap = s.snap := rfl
@[simp] theorem writeCtrl_tab (s : State) (w : Limb) : (s.writeCtrl w).tab = s.tab := rfl
@[simp] theorem writeCtrl_params (s : State) (w : Limb) : (s.writeCtrl w).params = s.params := rfl
@[simp] theorem writeCtrl_rstN (s : State) (w : Limb) : (s.writeCtrl w).rstN = s.rstN := rfl
@[simp] theorem writeCtrl_answer (s : State) (w : Limb) : (s.writeCtrl w).answer = s.answer := rfl
@[simp] theorem writeCtrl_events (s : State) (w : Limb) : (s.writeCtrl w).events = s.events := rfl

/-! `takeReset` -/

@[simp] theorem takeReset_x (s : State) : s.takeReset.x = zeroRegs := rfl
@[simp] theorem takeReset_c (s : State) : s.takeReset.c = false := rfl
@[simp] theorem takeReset_lt (s : State) : s.takeReset.lt = false := rfl
@[simp] theorem takeReset_eq (s : State) : s.takeReset.eq = false := rfl
@[simp] theorem takeReset_busy (s : State) : s.takeReset.busy = false := rfl
@[simp] theorem takeReset_done (s : State) : s.takeReset.done = false := rfl
@[simp] theorem takeReset_esticky (s : State) : s.takeReset.esticky = false := rfl
@[simp] theorem takeReset_overrun (s : State) : s.takeReset.overrun = false := rfl
@[simp] theorem takeReset_tlocked (s : State) : s.takeReset.tlocked = false := rfl
@[simp] theorem takeReset_err (s : State) : s.takeReset.err = 0 := rfl
@[simp] theorem takeReset_ie (s : State) : s.takeReset.ie = false := rfl
@[simp] theorem takeReset_cmdReg (s : State) : s.takeReset.cmdReg = 0 := rfl
@[simp] theorem takeReset_snap (s : State) : s.takeReset.snap = { x := zeroRegs, c := false } := rfl
@[simp] theorem takeReset_tab (s : State) : s.takeReset.tab = { draw := s.tab.draw + 1, cells := [] } := rfl
@[simp] theorem takeReset_params (s : State) : s.takeReset.params = s.params := rfl
@[simp] theorem takeReset_rstN (s : State) : s.takeReset.rstN = false := rfl
@[simp] theorem takeReset_answer (s : State) : s.takeReset.answer = none := rfl
@[simp] theorem takeReset_events (s : State) : s.takeReset.events = s.events := rfl

/-! `releaseReset` -/

@[simp] theorem releaseReset_x (s : State) : s.releaseReset.x = s.x := rfl
@[simp] theorem releaseReset_c (s : State) : s.releaseReset.c = s.c := rfl
@[simp] theorem releaseReset_lt (s : State) : s.releaseReset.lt = s.lt := rfl
@[simp] theorem releaseReset_eq (s : State) : s.releaseReset.eq = s.eq := rfl
@[simp] theorem releaseReset_busy (s : State) : s.releaseReset.busy = s.busy := rfl
@[simp] theorem releaseReset_done (s : State) : s.releaseReset.done = s.done := rfl
@[simp] theorem releaseReset_esticky (s : State) : s.releaseReset.esticky = s.esticky := rfl
@[simp] theorem releaseReset_overrun (s : State) : s.releaseReset.overrun = s.overrun := rfl
@[simp] theorem releaseReset_tlocked (s : State) : s.releaseReset.tlocked = s.tlocked := rfl
@[simp] theorem releaseReset_err (s : State) : s.releaseReset.err = s.err := rfl
@[simp] theorem releaseReset_ie (s : State) : s.releaseReset.ie = s.ie := rfl
@[simp] theorem releaseReset_cmdReg (s : State) : s.releaseReset.cmdReg = s.cmdReg := rfl
@[simp] theorem releaseReset_snap (s : State) : s.releaseReset.snap = s.snap := rfl
@[simp] theorem releaseReset_tab (s : State) : s.releaseReset.tab = s.tab := rfl
@[simp] theorem releaseReset_params (s : State) : s.releaseReset.params = s.params := rfl
@[simp] theorem releaseReset_rstN (s : State) : s.releaseReset.rstN = true := rfl
@[simp] theorem releaseReset_answer (s : State) : s.releaseReset.answer = s.answer := rfl
@[simp] theorem releaseReset_events (s : State) : s.releaseReset.events = s.events := rfl

/-! `writeLimb` -/

@[simp] theorem writeLimb_x (s : State) (r : Reg) (i : Fin 8) (w : Limb) : (s.writeLimb r i w).x = setReg s.x r.val (setLimb i w (regAt s.x r.val)) := rfl
@[simp] theorem writeLimb_c (s : State) (r : Reg) (i : Fin 8) (w : Limb) : (s.writeLimb r i w).c = s.c := rfl
@[simp] theorem writeLimb_lt (s : State) (r : Reg) (i : Fin 8) (w : Limb) : (s.writeLimb r i w).lt = s.lt := rfl
@[simp] theorem writeLimb_eq (s : State) (r : Reg) (i : Fin 8) (w : Limb) : (s.writeLimb r i w).eq = s.eq := rfl
@[simp] theorem writeLimb_busy (s : State) (r : Reg) (i : Fin 8) (w : Limb) : (s.writeLimb r i w).busy = s.busy := rfl
@[simp] theorem writeLimb_done (s : State) (r : Reg) (i : Fin 8) (w : Limb) : (s.writeLimb r i w).done = s.done := rfl
@[simp] theorem writeLimb_esticky (s : State) (r : Reg) (i : Fin 8) (w : Limb) : (s.writeLimb r i w).esticky = s.esticky := rfl
@[simp] theorem writeLimb_overrun (s : State) (r : Reg) (i : Fin 8) (w : Limb) : (s.writeLimb r i w).overrun = s.overrun := rfl
@[simp] theorem writeLimb_tlocked (s : State) (r : Reg) (i : Fin 8) (w : Limb) : (s.writeLimb r i w).tlocked = s.tlocked := rfl
@[simp] theorem writeLimb_err (s : State) (r : Reg) (i : Fin 8) (w : Limb) : (s.writeLimb r i w).err = s.err := rfl
@[simp] theorem writeLimb_ie (s : State) (r : Reg) (i : Fin 8) (w : Limb) : (s.writeLimb r i w).ie = s.ie := rfl
@[simp] theorem writeLimb_cmdReg (s : State) (r : Reg) (i : Fin 8) (w : Limb) : (s.writeLimb r i w).cmdReg = s.cmdReg := rfl
@[simp] theorem writeLimb_snap (s : State) (r : Reg) (i : Fin 8) (w : Limb) : (s.writeLimb r i w).snap = s.snap := rfl
@[simp] theorem writeLimb_tab (s : State) (r : Reg) (i : Fin 8) (w : Limb) : (s.writeLimb r i w).tab = s.tab := rfl
@[simp] theorem writeLimb_params (s : State) (r : Reg) (i : Fin 8) (w : Limb) : (s.writeLimb r i w).params = s.params := rfl
@[simp] theorem writeLimb_rstN (s : State) (r : Reg) (i : Fin 8) (w : Limb) : (s.writeLimb r i w).rstN = s.rstN := rfl
@[simp] theorem writeLimb_answer (s : State) (r : Reg) (i : Fin 8) (w : Limb) : (s.writeLimb r i w).answer = s.answer := rfl
@[simp] theorem writeLimb_events (s : State) (r : Reg) (i : Fin 8) (w : Limb) : (s.writeLimb r i w).events = s.events := rfl

/-! `reply` -/

@[simp] theorem reply_x (s : State) (a : BusAnswer) : (s.reply a).x = s.x := rfl
@[simp] theorem reply_c (s : State) (a : BusAnswer) : (s.reply a).c = s.c := rfl
@[simp] theorem reply_lt (s : State) (a : BusAnswer) : (s.reply a).lt = s.lt := rfl
@[simp] theorem reply_eq (s : State) (a : BusAnswer) : (s.reply a).eq = s.eq := rfl
@[simp] theorem reply_busy (s : State) (a : BusAnswer) : (s.reply a).busy = s.busy := rfl
@[simp] theorem reply_done (s : State) (a : BusAnswer) : (s.reply a).done = s.done := rfl
@[simp] theorem reply_esticky (s : State) (a : BusAnswer) : (s.reply a).esticky = s.esticky := rfl
@[simp] theorem reply_overrun (s : State) (a : BusAnswer) : (s.reply a).overrun = s.overrun := rfl
@[simp] theorem reply_tlocked (s : State) (a : BusAnswer) : (s.reply a).tlocked = s.tlocked := rfl
@[simp] theorem reply_err (s : State) (a : BusAnswer) : (s.reply a).err = s.err := rfl
@[simp] theorem reply_ie (s : State) (a : BusAnswer) : (s.reply a).ie = s.ie := rfl
@[simp] theorem reply_cmdReg (s : State) (a : BusAnswer) : (s.reply a).cmdReg = s.cmdReg := rfl
@[simp] theorem reply_snap (s : State) (a : BusAnswer) : (s.reply a).snap = s.snap := rfl
@[simp] theorem reply_tab (s : State) (a : BusAnswer) : (s.reply a).tab = s.tab := rfl
@[simp] theorem reply_params (s : State) (a : BusAnswer) : (s.reply a).params = s.params := rfl
@[simp] theorem reply_rstN (s : State) (a : BusAnswer) : (s.reply a).rstN = s.rstN := rfl
@[simp] theorem reply_answer (s : State) (a : BusAnswer) : (s.reply a).answer = some a := rfl
@[simp] theorem reply_events (s : State) (a : BusAnswer) : (s.reply a).events = s.events := rfl

/-! `placeCommand` -/

@[simp] theorem placeCommand_x (s : State) (w : Limb) : (s.placeCommand w).x = s.x := rfl
@[simp] theorem placeCommand_c (s : State) (w : Limb) : (s.placeCommand w).c = s.c := rfl
@[simp] theorem placeCommand_lt (s : State) (w : Limb) : (s.placeCommand w).lt = s.lt := rfl
@[simp] theorem placeCommand_eq (s : State) (w : Limb) : (s.placeCommand w).eq = s.eq := rfl
@[simp] theorem placeCommand_busy (s : State) (w : Limb) : (s.placeCommand w).busy = true := rfl
@[simp] theorem placeCommand_done (s : State) (w : Limb) : (s.placeCommand w).done = false := rfl
@[simp] theorem placeCommand_esticky (s : State) (w : Limb) : (s.placeCommand w).esticky = s.esticky := rfl
@[simp] theorem placeCommand_overrun (s : State) (w : Limb) : (s.placeCommand w).overrun = s.overrun := rfl
@[simp] theorem placeCommand_tlocked (s : State) (w : Limb) : (s.placeCommand w).tlocked = s.tlocked := rfl
@[simp] theorem placeCommand_err (s : State) (w : Limb) : (s.placeCommand w).err = s.err := rfl
@[simp] theorem placeCommand_ie (s : State) (w : Limb) : (s.placeCommand w).ie = s.ie := rfl
@[simp] theorem placeCommand_cmdReg (s : State) (w : Limb) : (s.placeCommand w).cmdReg = w := rfl
@[simp] theorem placeCommand_snap (s : State) (w : Limb) : (s.placeCommand w).snap = { x := s.x, c := s.c } := rfl
@[simp] theorem placeCommand_tab (s : State) (w : Limb) : (s.placeCommand w).tab = s.tab := rfl
@[simp] theorem placeCommand_params (s : State) (w : Limb) : (s.placeCommand w).params = s.params := rfl
@[simp] theorem placeCommand_rstN (s : State) (w : Limb) : (s.placeCommand w).rstN = true := rfl
@[simp] theorem placeCommand_answer (s : State) (w : Limb) : (s.placeCommand w).answer = s.answer := rfl
@[simp] theorem placeCommand_events (s : State) (w : Limb) : (s.placeCommand w).events = .engine :: s.events := rfl

/-! The state after reset -/

@[simp] theorem reset_x : State.reset.x = zeroRegs := rfl
@[simp] theorem reset_c : State.reset.c = false := rfl
@[simp] theorem reset_lt : State.reset.lt = false := rfl
@[simp] theorem reset_eq : State.reset.eq = false := rfl
@[simp] theorem reset_busy : State.reset.busy = false := rfl
@[simp] theorem reset_done : State.reset.done = false := rfl
@[simp] theorem reset_esticky : State.reset.esticky = false := rfl
@[simp] theorem reset_overrun : State.reset.overrun = false := rfl
@[simp] theorem reset_tlocked : State.reset.tlocked = false := rfl
@[simp] theorem reset_err : State.reset.err = 0 := rfl
@[simp] theorem reset_ie : State.reset.ie = false := rfl
@[simp] theorem reset_cmdReg : State.reset.cmdReg = 0 := rfl
@[simp] theorem reset_snap : State.reset.snap = { x := zeroRegs, c := false } := rfl
@[simp] theorem reset_tab : State.reset.tab = { draw := 0, cells := [] } := rfl
@[simp] theorem reset_params : State.reset.params = p2Defaults := rfl
@[simp] theorem reset_rstN : State.reset.rstN = true := rfl
@[simp] theorem reset_answer : State.reset.answer = none := rfl
@[simp] theorem reset_events : State.reset.events = [] := rfl

theorem withFetchWord_eq (s : State) (nbits w : Nat) : s.withFetchWord nbits w = s.placeCommand (tableWord nbits w) := rfl

end Sys2Proof.Machine
end

