-- ==== Sys2Proof/Laws/Complete.lean ====
section
/-! SUPPORT. Completion and the moves of the machine: what each shared operation of a command's run can do, the checks in
the order the runs make them, and the step by the kind of its event. -/

namespace Sys2Proof.Laws

open Sys2Proof.Machine

/-! ### Completion (R316) -/

theorem complete_ok (s : State) (st : Staged) : complete s (.ok st) = .next ((s.commit st).finishOk) := rfl

theorem complete_error (s : State) (e : CmdError) (h : e ≠ .internal) :
    complete s (.error e) = .next (s.finishError e) := by
  cases e <;> first | rfl | exact absurd rfl h

theorem settle_ok (s : State) (st : Staged) : s.settle (.ok st) = (s.commit st).finishOk := rfl
theorem settle_error (s : State) (e : CmdError) : s.settle (.error e) = s.finishError e := rfl

/-- R310: the codes a command can report are 1 to 4. -/
theorem code_le (e : CmdError) (h : e ≠ .internal) : e.code.toNat ≤ 4 := by
  cases e <;> first | decide | exact absurd rfl h

/-! ### The checks of a run, each with what follows it -/

/-- R180: the range check ends the command with RANGE, or lets it go on. -/
theorem complete_rangeCheck (s : State) (l : List Felt) (k : Unit → Except CmdError Staged) :
    complete s (rangeCheck l >>= k) = if l.all isCanonical then complete s (k ()) else .next (s.finishError .range) := by
  by_cases h : ∀ v ∈ l, Canonical v
  · rw [rangeCheck_ok l h, if_pos]
    · rfl
    · rw [List.all_eq_true]; exact fun v hv => (isCanonical_iff v).2 (h v hv)
  · have h' : ∃ v ∈ l, ¬ Canonical v := by simpa only [not_forall, exists_prop] using h
    rw [rangeCheck_error l h', if_neg]
    · rfl
    · rw [List.all_eq_true]; exact fun c => h fun v hv => (isCanonical_iff v).1 (c v hv)

theorem all_isCanonical_iff (l : List Felt) : l.all isCanonical = true ↔ AllCanonical l := by
  rw [List.all_eq_true]
  exact ⟨fun h v hv => (isCanonical_iff v).1 (h v hv), fun h v hv => (isCanonical_iff v).2 (h v hv)⟩

/-- R94 (d), R95. -/
theorem complete_requireLegal (s : State) (i : Instr) (k : Unit → Except CmdError Staged) :
    complete s (requireLegal i >>= k) = if i.wellFormed then complete s (k ()) else .next (s.finishError .illegal) := by
  unfold requireLegal
  split <;> rfl

/-- R232. -/
theorem complete_requireTables (s : State) (k : Unit → Except CmdError Staged) :
    complete s (s.requireTables >>= k) = if s.tlocked then complete s (k ()) else .next (s.finishError .noTable) := by
  unfold State.requireTables
  split <;> rfl

/-- R202 to R204. -/
theorem complete_requireNonzero (s : State) (v : Felt) (k : Unit → Except CmdError Staged) :
    complete s (requireNonzero v >>= k) = if v = 0 then .next (s.finishError .divZero) else complete s (k ()) := by
  unfold requireNonzero
  split <;> rfl

/-- A datapath that answers hands its answer on. -/
theorem complete_path {α : Type} (s : State) {m : Except CmdError α} {a : α} (h : m = .ok a)
    (k : α → Except CmdError Staged) : complete s (m >>= k) = complete s (k a) := by rw [h]; rfl

/-! ### The widths of the permutation commands (R95) -/

theorem p1WidthOf_t {n : Nat} {w : P1Width} (h : p1WidthOf n = some w) : w.t = n := by
  unfold p1WidthOf at h
  split at h <;> first | (obtain rfl := Option.some.inj h; rfl) | exact absurd h (by simp)

theorem p2WidthOf_t {n : Nat} {w : P2Width} (h : p2WidthOf n = some w) : w.t = n := by
  unfold p2WidthOf at h
  split at h <;> first | (obtain rfl := Option.some.inj h; rfl) | exact absurd h (by simp)

theorem requireP1Width_ok {n : Nat} (h2 : 2 ≤ n) (h5 : n ≤ 5) : ∃ w, requireP1Width n = .ok w ∧ p1WidthOf n = some w ∧ w.t = n := by
  interval_cases n <;> exact ⟨_, rfl, rfl, rfl⟩

theorem requireP2Width_ok {n : Nat} (h2 : 2 ≤ n) (h4 : n ≤ 4) : ∃ w, requireP2Width n = .ok w ∧ p2WidthOf n = some w ∧ w.t = n := by
  interval_cases n <;> exact ⟨_, rfl, rfl, rfl⟩

/-- What a legal P1PERM satisfies (R95). -/
theorem p1perm_legal {rd ra : Reg} {w : Fin 8} {d : Domain} (h : (Instr.p1perm rd ra w d).wellFormed = true) :
    2 ≤ w.val ∧ w.val ≤ 5 ∧ ra.val + w.val ≤ 16 ∧ rd.val + w.val ≤ 16 := by
  simp only [Instr.wellFormed, rangeFits, Bool.and_eq_true, decide_eq_true_eq] at h
  omega

/-- What a legal P1COMP satisfies (R95). -/
theorem p1comp_legal {rd ra : Reg} {w : Fin 8} {d : Domain} (h : (Instr.p1comp rd ra w d).wellFormed = true) :
    1 ≤ w.val ∧ w.val ≤ 4 ∧ ra.val + w.val ≤ 16 := by
  simp only [Instr.wellFormed, rangeFits, Bool.and_eq_true, decide_eq_true_eq] at h
  omega

/-- What a legal P2PERM satisfies (R95). -/
theorem p2perm_legal {rd ra : Reg} {w : Fin 8} {d : Domain} {set : P2Set}
    (h : (Instr.p2perm rd ra w d set).wellFormed = true) :
    2 ≤ w.val ∧ w.val ≤ 4 ∧ ra.val + w.val ≤ 16 ∧ rd.val + w.val ≤ 16 := by
  simp only [Instr.wellFormed, rangeFits, Bool.and_eq_true, decide_eq_true_eq] at h
  omega

/-! ### TLOCK (R293) -/

theorem allCanonical_iff (m : TableMem) : m.allCanonical = true ↔ ∀ e < Config.ntab, Canonical (m.entry e) := by
  simp only [TableMem.allCanonical, List.all_eq_true, List.mem_range]
  exact ⟨fun h e he => (isCanonical_iff _).1 (h e he), fun h e he => (isCanonical_iff _).2 (h e he)⟩

/-- All that TLOCK's run can be. -/
theorem tlockRun_cases (s : State) :
    (s.tlocked = true ∧ tlockRun s = .ok {}) ∨
    (s.tlocked = false ∧ s.tab.allCanonical = true ∧ tlockRun s = .ok { lock := true }) ∨
    (s.tlocked = false ∧ s.tab.allCanonical = false ∧ tlockRun s = .error .range) := by
  unfold tlockRun
  cases h : s.tlocked with
  | true => exact Or.inl ⟨rfl, rfl⟩
  | false =>
    cases h' : s.tab.allCanonical with
    | true => exact Or.inr (Or.inl ⟨rfl, rfl, rfl⟩)
    | false => exact Or.inr (Or.inr ⟨rfl, rfl, rfl⟩)

/-! ### The step by the kind of its event -/

theorem step_nil {s : State} (h : s.events = []) : step s = engineTurn s := by unfold step; rw [h]

theorem step_cons {s : State} {e : Event} {rest : List Event} (h : s.events = e :: rest) :
    step s = runEvent e { s with events := rest } := by unfold step; rw [h]

theorem engineTurn_idle {s : State} (h : s.busy = false) : engineTurn s = .next s := by
  unfold engineTurn; rw [h, Bool.and_false]; rfl

theorem engineTurn_held {s : State} (h : s.rstN = false) : engineTurn s = .next s := by
  unfold engineTurn; rw [h, Bool.false_and]; rfl

theorem engineTurn_busy {s : State} (hr : s.rstN = true) (hb : s.busy = true) : engineTurn s = completeInFlight s := by
  unfold engineTurn; rw [hr, hb]; rfl

theorem completeInFlight_ok {s : State} {i : Instr} (h : decode s.cmdReg = .ok i) : completeInFlight s = exec i s := by
  unfold completeInFlight; rw [h]

theorem completeInFlight_error {s : State} {e : DecodeError} (h : decode s.cmdReg = .error e) :
    completeInFlight s = .next (s.finishError .illegal) := by unfold completeInFlight; rw [h]

theorem step_engine {s : State} {rest : List Event} (h : s.events = .engine :: rest) :
    step s = engineTurn { s with events := rest } := step_cons h

/-- R61: a host access out of reset, and R340: one in reset. -/
theorem step_read {s : State} {a : BusAddr} {n : Nat} {rest : List Event} (h : s.events = .read a n :: rest) :
    step s = if s.rstN then .next ({ s with events := rest }.busRead a n) else .refused .accessInReset := step_cons h

theorem step_write {s : State} {a : BusAddr} {n : Nat} {w : Limb} {rest : List Event} (h : s.events = .write a n w :: rest) :
    step s = if s.rstN then .next ({ s with events := rest }.busWrite a n w) else .refused .accessInReset := step_cons h

theorem step_resetLow {s : State} {rest : List Event} (h : s.events = .resetLow :: rest) :
    step s = .next (if s.rstN then { s with events := rest }.takeReset else { s with events := rest }) := step_cons h

theorem step_resetHigh {s : State} {rest : List Event} (h : s.events = .resetHigh :: rest) :
    step s = .next { s with events := rest }.releaseReset := step_cons h

/-! ### The bus (R61) -/

theorem busRead_eq (s : State) (a : BusAddr) (n : Nat) : s.busRead a n =
    if accessOk a n then s.reply (.read (s.readTarget (targetOf a.toNat)).1 (s.readTarget (targetOf a.toNat)).2)
    else s.reply (.read 0 .err) := rfl

theorem busWrite_eq (s : State) (a : BusAddr) (n : Nat) (w : Limb) : s.busWrite a n w =
    if accessOk a n then
      (s.writeTarget w (targetOf a.toNat)).1.reply (.write (s.writeTarget w (targetOf a.toNat)).2)
    else s.reply (.write .err) := rfl

/-! ### The address map (R62) -/

theorem fin_ofNat_val {n : Nat} [NeZero n] (k : Nat) (h : k < n) : (Fin.ofNat n k).val = k := Nat.mod_eq_of_lt h

/-- R66: the offset of limb `i` of entry `e` names it. -/
theorem targetOf_tab (e : Nat) (i : Fin 8) (he : e < Config.ntab) : targetOf (tabOffset e i) = .tab e i := by
  have hi := i.isLt
  obtain ⟨h1, h2⟩ := tabOffset_bounds e i he
  have hb : Config.tabBase = 0x10000 := rfl
  have hend : Config.tabEnd = 0x22240 := rfl
  have hentry : (tabOffset e i - Config.tabBase) / 32 = e := by unfold tabOffset; omega
  have hword : slotWord (tabOffset e i - Config.tabBase) = i := by
    apply Fin.ext
    show (tabOffset e i - Config.tabBase) / 4 % 8 = i.val
    unfold tabOffset; omega
  unfold targetOf
  rw [hentry, hword]
  repeat' split
  all_goals first | rfl | omega

/-- An aligned offset that names a table word is that word's offset. -/
theorem targetOf_eq_tab {a e : Nat} {i : Fin 8} (h : targetOf a = .tab e i) (ha : a % 4 = 0) :
    e < Config.ntab ∧ a = tabOffset e i := by
  have hb : Config.tabBase = 0x10000 := rfl
  have he : Config.tabEnd = 0x22240 := rfl
  have hn : Config.ntab = 2322 := rfl
  unfold targetOf at h
  repeat' split at h
  all_goals first
    | (cases h; done)
    | (next hin =>
        obtain ⟨rfl, rfl⟩ := Target.tab.inj h
        refine ⟨by omega, ?_⟩
        unfold tabOffset slotWord
        show a = Config.tabBase + 32 * ((a - Config.tabBase) / 32) + 4 * ((a - Config.tabBase) / 4 % 8)
        omega)

/-- R64: the offset of limb `i` of register `r` in the little-endian view. -/
theorem targetOf_regLE (r : Reg) (i : Fin 8) : targetOf (0x01000 + 32 * r.val + 4 * i.val) = .regLE r i := by
  revert r i; decide

/-- R65: the offset of word `j` of register `r` in the big-endian view. -/
theorem targetOf_regBE (r : Reg) (j : Fin 8) : targetOf (0x01400 + 32 * r.val + 4 * j.val) = .regBE r j := by
  revert r j; decide

end Sys2Proof.Laws
end

