-- ==== Sys2Proof/Laws/Commands.lean ====
section
/-! SUPPORT. One lemma per command: how its run ends in every state, as the error `State.errorCode` names or as staged
writes that fit the command. -/

namespace Sys2Proof.Laws

open Sys2Proof.Machine

/-- The staged writes a command may make: its destinations, and only its own flags and lock. -/
structure Fits (i : Instr) (s : State) (st : Staged) : Prop where
  regs : ∀ e ∈ st.regs, e.1 ∈ i.destinations
  carry : i.writesCarry = false → st.flagC = none
  compare : i.writesCompare = false → st.flagCmp = none
  exclusive : st.flagCmp ≠ some (true, true)
  lock : st.lock = true → i.locks = true ∧ ∀ e < Config.ntab, Canonical (s.tab.entry e)

/-- How a run ends. -/
def Ends (i : Instr) (s : State) (r : Except CmdError Staged) : Prop :=
  match r with
  | .ok st => s.errorCode i = 0 ∧ Fits i s st
  | .error e => e ≠ .internal ∧ s.errorCode i = e.code

/-- The command settles with a run that ends as its conditions say, whatever else the state holds. -/
def Settles (i : Instr) (s : State) : Prop :=
  ∃ r, Ends i s r ∧ ∀ t : State, t.snap = s.snap → t.tab = s.tab → t.tlocked = s.tlocked →
    t.params = s.params → exec i t = .next (t.settle r)

theorem exec_settles {i : Instr} {s : State} (h : Settles i s) : ∃ r, Ends i s r ∧ exec i s = .next (s.settle r) := by
  obtain ⟨r, h1, h2⟩ := h
  exact ⟨r, h1, h2 s rfl rfl rfl rfl⟩

/-- Staged writes of one register of a command without flags. -/
theorem fits_reg {i : Instr} {s : State} {rd : Reg} {v : Felt} (h : rd.val ∈ i.destinations) : Fits i s (stageReg rd v) where
  regs e he := by
    rw [stageReg, List.mem_singleton] at he
    rw [he]; exact h
  carry _ := rfl
  compare _ := rfl
  exclusive := by simp [stageReg]
  lock h := by simp [stageReg] at h

theorem fits_range {i : Instr} {s : State} {rd : Reg} {vs : List Felt}
    (h : ∀ n ∈ List.range' rd.val vs.length, n ∈ i.destinations) : Fits i s (stageRange rd vs) where
  regs e he := h _ (rangeWrites_mem _ _ he)
  carry _ := rfl
  compare _ := rfl
  exclusive := by simp [stageRange]
  lock h := by simp [stageRange] at h

theorem fits_nothing {i : Instr} {s : State} : Fits i s {} where
  regs e he := absurd he List.not_mem_nil
  carry _ := rfl
  compare _ := rfl
  exclusive := by simp
  lock h := by simp at h

theorem not_le_iff_canonical (v : Felt) : ¬ Config.p ≤ v.toNat ↔ Canonical v := Nat.not_le

/-- R125: the two halves of the exact product. -/
theorem mulHalves_spec (a b : Felt) :
    mulHalves a b = [BitVec.ofNat 256 (a.toNat * b.toNat), BitVec.ofNat 256 (a.toNat * b.toNat / 2 ^ 256)] := by
  obtain ⟨h1, h2⟩ := multiply_spec (limbs8 a) (limbs8 b)
  rw [limbsVal_limbs8, limbsVal_limbs8] at h1
  rw [limbs8_length, limbs8_length] at h2
  unfold mulHalves
  generalize multiply (limbs8 a) (limbs8 b) = t at h1 h2
  have hl := limbsVal_lt (t.take 8)
  rw [List.length_take, h2, show min 8 (8 + 8) = 8 from rfl] at hl
  have hlo : ofLimbs (t.take 8) = BitVec.ofNat 256 (a.toNat * b.toNat) := by
    rw [ofLimbs, limbsVal_take 8 t (by omega), h1]
    apply BitVec.eq_of_toNat_eq
    rw [BitVec.toNat_ofNat, BitVec.toNat_ofNat, Nat.mod_mod]
  have hhi : ofLimbs (t.drop 8) = BitVec.ofNat 256 (a.toNat * b.toNat / 2 ^ 256) := by
    rw [ofLimbs, ← h1, limbsVal_take_drop 8 t (by omega), Nat.add_mul_div_left _ _ (by decide), Nat.div_eq_of_lt hl,
      Nat.zero_add]
  show [ofLimbs (t.take 8), ofLimbs (t.drop 8)] = _
  rw [hlo, hhi]

/-! ### The state after each kind of staged write -/

theorem finish_nothing (s : State) : (s.commit {}).finishOk = s.wrote s.x := by
  simp [State.commit, State.finishOk, State.wrote]

theorem finish_reg (s : State) (rd : Reg) (v : Felt) :
    (s.commit (stageReg rd v)).finishOk = s.wrote (setReg s.x rd.val v) := by
  simp [State.commit, State.finishOk, State.wrote, stageReg]

theorem finish_range (s : State) (rd : Reg) (vs : List Felt) :
    (s.commit (stageRange rd vs)).finishOk = s.wrote (writeRegs s.x (rangeWrites rd.val vs)) := by
  simp [State.commit, State.finishOk, State.wrote, stageRange]

theorem finish_carry (s : State) (rd : Reg) (r : Felt × Bool) :
    (s.commit (stageCarry rd r)).finishOk = { s.wrote (setReg s.x rd.val r.1) with c := r.2 } := by
  simp [State.commit, State.finishOk, State.wrote, stageCarry]

theorem finish_compare (s : State) (r : Ordering) :
    (s.commit (stageCompare r)).finishOk = { s.wrote s.x with lt := decide (r = .lt), eq := decide (r = .eq) } := by
  simp [State.commit, State.finishOk, State.wrote, stageCompare]

theorem finish_lock (s : State) : (s.commit { lock := true }).finishOk = { s.wrote s.x with tlocked := true } := by
  simp [State.commit, State.finishOk, State.wrote]

theorem finishError_eq (s : State) (e : CmdError) : s.finishError e = s.erred e.code := rfl

/-! ### The conditions of R312, one family at a time -/

/-- A command without conditions. -/
theorem errorCode_free {i : Instr} (s : State) (h1 : i.wellFormed = true) (h2 : i.usesTables = false) (h3 : i.checked = [])
    (h4 : i.locks = false) (h5 : i.inverted = none) : s.errorCode i = 0 := by
  simp [State.errorCode, h1, h2, h3, h4, h5]

theorem errorCode_illegal {i : Instr} (s : State) (h1 : i.wellFormed = false) : s.errorCode i = 1 := by
  simp [State.errorCode, h1]

theorem errorCode_noTable {i : Instr} (s : State) (h1 : i.wellFormed = true) (h2 : i.usesTables = true)
    (h3 : s.tlocked = false) : s.errorCode i = 4 := by
  simp [State.errorCode, h1, h2, h3]

/-- The table condition does not hold. -/
abbrev TablesOk (i : Instr) (s : State) : Prop := ¬ (i.usesTables = true ∧ s.tlocked = false)

theorem errorCode_range {i : Instr} (s : State) (h1 : i.wellFormed = true) (h2 : TablesOk i s) {r : Nat}
    (h3 : r ∈ i.checked) (h4 : ¬ Canonical (regAt s.snap.x r)) : s.errorCode i = 2 := by
  unfold State.errorCode
  rw [if_neg (by simp [h1]), if_neg h2, if_pos ⟨r, h3, by simpa using h4⟩]

/-- A command whose checks pass and that inverts nothing. -/
theorem errorCode_checked {i : Instr} (s : State) (h1 : i.wellFormed = true) (h2 : TablesOk i s)
    (h3 : ∀ r ∈ i.checked, Canonical (regAt s.snap.x r)) (h4 : i.locks = false) (h5 : i.inverted = none) :
    s.errorCode i = 0 := by
  unfold State.errorCode
  rw [if_neg (by simp [h1]), if_neg h2, if_neg, if_neg (by simp [h4]), if_neg (by simp [h5])]
  rintro ⟨r, hr, hc⟩
  exact absurd (h3 r hr) (Nat.not_lt.2 hc)

/-- A command whose checks pass and that inverts register `n`. -/
theorem errorCode_inverts {i : Instr} (s : State) {n : Nat} (h1 : i.wellFormed = true) (h2 : TablesOk i s)
    (h3 : ∀ r ∈ i.checked, Canonical (regAt s.snap.x r)) (h4 : i.locks = false) (h5 : i.inverted = some n) :
    s.errorCode i = if regAt s.snap.x n = 0 then 3 else 0 := by
  unfold State.errorCode
  rw [if_neg (by simp [h1]), if_neg h2, if_neg, if_neg (by simp [h4])]
  · simp [h5]
  · rintro ⟨r, hr, hc⟩
    exact absurd (h3 r hr) (Nat.not_lt.2 hc)

/-- A command that range-checks the registers `l` and then stages `st`. -/
theorem settles_checked {i : Instr} (s : State) (l : List Nat) (m : State → Except CmdError Staged) {st : Staged}
    (hm : m s = .ok st) (hx : ∀ t : State, t.snap = s.snap → t.tab = s.tab → t.tlocked = s.tlocked → t.params = s.params →
      exec i t = complete t (rangeCheck (l.map fun r => regAt s.snap.x r) >>= fun _ => m s))
    (hl : i.checked = l) (h1 : i.wellFormed = true) (h2 : TablesOk i s) (h4 : i.locks = false) (h5 : i.inverted = none)
    (hf : Fits i s st) : Settles i s := by
  by_cases hc : ∀ r ∈ l, Canonical (regAt s.snap.x r)
  · refine ⟨.ok st, ⟨errorCode_checked s h1 h2 (hl ▸ hc) h4 h5, hf⟩, fun t e1 e2 e3 e4 => ?_⟩
    rw [hx t e1 e2 e3 e4, complete_rangeCheck, if_pos, hm]
    · rfl
    · rw [all_isCanonical_iff]
      intro v hv
      obtain ⟨r, hr, rfl⟩ := List.mem_map.1 hv
      exact hc r hr
  · have hc' : ∃ r ∈ l, ¬ Canonical (regAt s.snap.x r) := by simpa only [not_forall, exists_prop] using hc
    obtain ⟨r, hr, hn⟩ := hc'
    refine ⟨.error .range, ⟨by decide, errorCode_range s h1 h2 (hl ▸ hr) hn⟩, fun t e1 e2 e3 e4 => ?_⟩
    rw [hx t e1 e2 e3 e4, complete_rangeCheck, if_neg]
    · rfl
    · rw [all_isCanonical_iff]
      exact fun c => hn (c _ (List.mem_map_of_mem hr))

/-- A command that range-checks the registers `l`, refuses 0 in register `n` and then stages what `m` gives. -/
theorem settles_inverting {i : Instr} (s : State) (l : List Nat) (n : Nat) (m : State → Except CmdError Staged)
    (hm : regAt s.snap.x n ≠ 0 → Canonical (regAt s.snap.x n) → ∃ st, m s = .ok st ∧ Fits i s st) (hn : n ∈ l)
    (hx : ∀ t : State, t.snap = s.snap → t.tab = s.tab → t.tlocked = s.tlocked → t.params = s.params →
      exec i t = complete t (rangeCheck (l.map fun r => regAt s.snap.x r) >>= fun _ =>
        requireNonzero (regAt s.snap.x n) >>= fun _ => m s))
    (hl : i.checked = l) (h1 : i.wellFormed = true) (h2 : TablesOk i s) (h4 : i.locks = false)
    (h5 : i.inverted = some n) : Settles i s := by
  by_cases hc : ∀ r ∈ l, Canonical (regAt s.snap.x r)
  · have hall : (l.map fun r => regAt s.snap.x r).all isCanonical = true := by
      rw [all_isCanonical_iff]
      intro v hv
      obtain ⟨r, hr, rfl⟩ := List.mem_map.1 hv
      exact hc r hr
    have he := errorCode_inverts s h1 h2 (hl ▸ hc) h4 h5
    by_cases h0 : regAt s.snap.x n = 0
    · refine ⟨.error .divZero, ⟨by decide, by rw [he, if_pos h0]; rfl⟩, fun t e1 e2 e3 e4 => ?_⟩
      rw [hx t e1 e2 e3 e4, complete_rangeCheck, if_pos hall, complete_requireNonzero, if_pos h0]
      rfl
    · obtain ⟨st, h6, h7⟩ := hm h0 (hc n hn)
      refine ⟨.ok st, ⟨by rw [he, if_neg h0], h7⟩, fun t e1 e2 e3 e4 => ?_⟩
      rw [hx t e1 e2 e3 e4, complete_rangeCheck, if_pos hall, complete_requireNonzero, if_neg h0, h6]
      rfl
  · have hc' : ∃ r ∈ l, ¬ Canonical (regAt s.snap.x r) := by simpa only [not_forall, exists_prop] using hc
    obtain ⟨r, hr, hn⟩ := hc'
    refine ⟨.error .range, ⟨by decide, errorCode_range s h1 h2 (hl ▸ hr) hn⟩, fun t e1 e2 e3 e4 => ?_⟩
    rw [hx t e1 e2 e3 e4, complete_rangeCheck, if_neg]
    · rfl
    · rw [all_isCanonical_iff]
      exact fun c => hn (c _ (List.mem_map_of_mem hr))

/-! ### The commands without conditions -/

theorem settles_free {i : Instr} (s : State) {st : Staged} (hx : ∀ t : State, t.snap = s.snap → exec i t = complete t (.ok st))
    (h1 : i.wellFormed = true) (h2 : i.usesTables = false) (h3 : i.checked = []) (h4 : i.locks = false)
    (h5 : i.inverted = none) (hf : Fits i s st) : Settles i s :=
  ⟨.ok st, ⟨errorCode_free s h1 h2 h3 h4 h5, hf⟩, fun t e1 _ _ _ => by rw [hx t e1]; rfl⟩

theorem nop_settles (s : State) : Settles .nop s := settles_free s (fun _ _ => rfl) rfl rfl rfl rfl rfl fits_nothing

theorem mov_settles (rd ra : Reg) (s : State) : Settles (.mov rd ra) s :=
  settles_free s (st := stageReg rd (s.operand ra)) (fun t e => by rw [State.operand, ← e]; rfl) rfl rfl rfl rfl rfl
    (fits_reg (by simp [Instr.destinations]))

theorem ldk_settles (rd : Reg) (k : Konst) (s : State) : Settles (.ldk rd k) s :=
  settles_free s (st := stageReg rd (konstValue k)) (fun _ _ => rfl) rfl rfl rfl rfl rfl
    (fits_reg (by simp [Instr.destinations]))

/-- Staged writes of one register and C. -/
theorem fits_carry {i : Instr} {s : State} {rd : Reg} {r : Felt × Bool} (h : rd.val ∈ i.destinations)
    (hc : i.writesCarry = true) : Fits i s (stageCarry rd r) where
  regs e he := by
    rw [stageCarry, List.mem_singleton] at he
    rw [he]; exact h
  carry h := by rw [hc] at h; exact absurd h (by decide)
  compare _ := rfl
  exclusive := by simp [stageCarry]
  lock h := by simp [stageCarry] at h

theorem addc_settles (rd ra rb : Reg) (ci : Bool) (s : State) : Settles (.addc rd ra rb ci) s :=
  settles_free s (st := stageCarry rd (add256 (s.operand ra) (s.operand rb) (s.carryIn ci)))
    (fun t e => by rw [State.operand, State.operand, State.carryIn, ← e]; rfl) rfl rfl rfl rfl rfl
    (fits_carry (by simp [Instr.destinations]) rfl)

theorem subb_settles (rd ra rb : Reg) (ci : Bool) (s : State) : Settles (.subb rd ra rb ci) s :=
  settles_free s (st := stageCarry rd (sub256 (s.operand ra) (s.operand rb) (s.carryIn ci)))
    (fun t e => by rw [State.operand, State.operand, State.carryIn, ← e]; rfl) rfl rfl rfl rfl rfl
    (fits_carry (by simp [Instr.destinations]) rfl)

theorem cmp_settles (ra rb : Reg) (s : State) : Settles (.cmp ra rb) s :=
  settles_free s (st := stageCompare (cmp256 (s.operand ra) (s.operand rb)))
    (fun t e => by rw [State.operand, State.operand, ← e]; rfl) rfl rfl rfl rfl rfl
    { regs := fun e he => absurd he List.not_mem_nil
      carry := fun _ => rfl
      compare := fun h => by simp [Instr.writesCompare] at h
      exclusive := by cases cmp256 (s.operand ra) (s.operand rb) <;> decide
      lock := fun h => by simp [stageCompare] at h }

theorem mulw_settles (rd ra rb : Reg) (s : State) : Settles (.mulw rd ra rb) s := by
  have hx : ∀ t : State, t.snap = s.snap → exec (.mulw rd ra rb) t = complete t (requireLegal (.mulw rd ra rb) >>= fun _ =>
      .ok (stageRange rd (mulHalves (s.operand ra) (s.operand rb)))) := fun t e => by
    rw [State.operand, State.operand, ← e]; rfl
  cases h : (Instr.mulw rd ra rb).wellFormed with
  | false =>
    refine ⟨.error .illegal, ⟨by decide, errorCode_illegal s h⟩, fun t e _ _ _ => ?_⟩
    rw [hx t e, complete_requireLegal, h]; rfl
  | true =>
    refine ⟨.ok (stageRange rd (mulHalves (s.operand ra) (s.operand rb))), ⟨errorCode_free s h rfl rfl rfl rfl, ?_⟩,
      fun t e _ _ _ => ?_⟩
    · exact fits_range (by simp [mulHalves, Instr.destinations, List.range'])
    · rw [hx t e, complete_requireLegal, h]; rfl

theorem redc_settles (rd ra rb : Reg) (s : State) : Settles (.redc rd ra rb) s := by
  obtain ⟨v, hv, -⟩ := redcPipeline_spec (s.operand ra) (s.operand rb)
  refine settles_free s (st := stageReg rd v) (fun t e => ?_) rfl rfl rfl rfl rfl (fits_reg (by simp [Instr.destinations]))
  rw [State.operand, State.operand, ← e] at hv
  show complete t (redcPipeline (t.operand ra) (t.operand rb) >>= fun v => .ok (stageReg rd v)) = _
  rw [State.operand, State.operand, hv, ok_bind]

/-! ### The field commands -/

theorem fchk_settles (ra : Reg) (s : State) : Settles (.fchk ra) s :=
  settles_checked s [ra.val] (fun _ => .ok {}) rfl (fun t e _ _ _ => by rw [← e]; rfl) rfl rfl (by simp [TablesOk, Instr.usesTables])
    rfl rfl fits_nothing

/-- A two-operand field command whose datapath answers. -/
theorem settles_binary {i : Instr} (s : State) (rd ra rb : Reg) (path : Felt → Felt → Except CmdError Felt)
    (hp : ∃ v, path (s.operand ra) (s.operand rb) = .ok v)
    (hx : ∀ t : State, exec i t = complete t (rangeCheck [t.operand ra, t.operand rb] >>= fun _ =>
      path (t.operand ra) (t.operand rb) >>= fun v => .ok (stageReg rd v)))
    (hl : i.checked = [ra.val, rb.val]) (h1 : i.wellFormed = true) (h2 : i.usesTables = false) (h4 : i.locks = false)
    (h5 : i.inverted = none) (hd : i.destinations = [rd.val]) : Settles i s := by
  obtain ⟨v, hv⟩ := hp
  refine settles_checked s [ra.val, rb.val] (fun s => path (s.operand ra) (s.operand rb) >>= fun v => .ok (stageReg rd v))
    (by rw [hv]; rfl) (fun t e _ _ _ => ?_) hl h1 (by simp [TablesOk, h2]) h4 h5 (fits_reg (by simp [hd]))
  rw [hx t]
  simp only [State.operand, e]
  rfl

/-- A one-operand field command whose datapath answers. -/
theorem settles_unary {i : Instr} (s : State) (rd ra : Reg) (path : Felt → Except CmdError Felt)
    (hp : ∃ v, path (s.operand ra) = .ok v)
    (hx : ∀ t : State, exec i t = complete t (rangeCheck [t.operand ra] >>= fun _ =>
      path (t.operand ra) >>= fun v => .ok (stageReg rd v)))
    (hl : i.checked = [ra.val]) (h1 : i.wellFormed = true) (h2 : i.usesTables = false) (h4 : i.locks = false)
    (h5 : i.inverted = none) (hd : i.destinations = [rd.val]) : Settles i s := by
  obtain ⟨v, hv⟩ := hp
  refine settles_checked s [ra.val] (fun s => path (s.operand ra) >>= fun v => .ok (stageReg rd v))
    (by rw [hv]; rfl) (fun t e _ _ _ => ?_) hl h1 (by simp [TablesOk, h2]) h4 h5 (fits_reg (by simp [hd]))
  rw [hx t]
  simp only [State.operand, e]
  rfl

theorem mmulPath_ok (a b : Felt) : ∃ v, mmulPath a b = .ok v := by
  obtain ⟨v, h, -⟩ := mmulPath_isRedc a b
  exact ⟨v, h⟩

theorem fmulPath_ok (a b : Felt) : ∃ v, fmulPath a b = .ok v := by
  obtain ⟨t, h⟩ := mmulPath_ok a b
  obtain ⟨v, h'⟩ := mmulPath_ok t Config.r2
  exact ⟨v, by rw [fmulPath, h, ok_bind, h']⟩

theorem mmul_settles (rd ra rb : Reg) (s : State) : Settles (.mmul rd ra rb) s :=
  settles_binary s rd ra rb mmulPath (mmulPath_ok _ _) (fun _ => rfl) rfl rfl rfl rfl rfl rfl
theorem fmul_settles (rd ra rb : Reg) (s : State) : Settles (.fmul rd ra rb) s :=
  settles_binary s rd ra rb fmulPath (fmulPath_ok _ _) (fun _ => rfl) rfl rfl rfl rfl rfl rfl
theorem fadd_settles (rd ra rb : Reg) (s : State) : Settles (.fadd rd ra rb) s :=
  settles_binary s rd ra rb (fun a b => .ok (modadd a b)) ⟨_, rfl⟩ (fun _ => rfl) rfl rfl rfl rfl rfl rfl
theorem fsub_settles (rd ra rb : Reg) (s : State) : Settles (.fsub rd ra rb) s :=
  settles_binary s rd ra rb (fun a b => .ok (modsub a b)) ⟨_, rfl⟩ (fun _ => rfl) rfl rfl rfl rfl rfl rfl
theorem msqr_settles (rd ra : Reg) (s : State) : Settles (.msqr rd ra) s :=
  settles_unary s rd ra msqrPath (mmulPath_ok _ _) (fun _ => rfl) rfl rfl rfl rfl rfl rfl
theorem tomont_settles (rd ra : Reg) (s : State) : Settles (.tomont rd ra) s :=
  settles_unary s rd ra tomontPath (mmulPath_ok _ _) (fun _ => rfl) rfl rfl rfl rfl rfl rfl
theorem frommont_settles (rd ra : Reg) (s : State) : Settles (.frommont rd ra) s :=
  settles_unary s rd ra frommontPath (by obtain ⟨v, h, -⟩ := frommontPath_spec (s.operand ra); exact ⟨v, h⟩) (fun _ => rfl)
    rfl rfl rfl rfl rfl rfl
theorem fsqr_settles (rd ra : Reg) (s : State) : Settles (.fsqr rd ra) s :=
  settles_unary s rd ra fsqrPath (fmulPath_ok _ _) (fun _ => rfl) rfl rfl rfl rfl rfl rfl
theorem fneg_settles (rd ra : Reg) (s : State) : Settles (.fneg rd ra) s :=
  settles_unary s rd ra (fun a => .ok (modneg a)) ⟨_, rfl⟩ (fun _ => rfl) rfl rfl rfl rfl rfl rfl
theorem fhalf_settles (rd ra : Reg) (s : State) : Settles (.fhalf rd ra) s :=
  settles_unary s rd ra (fun a => .ok (modhalf a)) ⟨_, rfl⟩ (fun _ => rfl) rfl rfl rfl rfl rfl rfl

theorem finv_settles (rd ra : Reg) (s : State) : Settles (.finv rd ra) s := by
  refine settles_inverting s [ra.val] ra.val (fun s => inversePath (s.operand ra) >>= fun v => .ok (stageReg rd v))
    (fun h0 hc => ?_) (by simp) (fun t e _ _ _ => ?_) rfl rfl (by simp [TablesOk, Instr.usesTables]) rfl rfl
  · obtain ⟨v, hv, -⟩ := inversePath_spec _ hc h0
    exact ⟨stageReg rd v, by simp only [State.operand]; rw [hv]; rfl, fits_reg (by simp [Instr.destinations])⟩
  · simp only [State.operand, ← e]; rfl

theorem fdiv_settles (rd ra rb : Reg) (s : State) : Settles (.fdiv rd ra rb) s := by
  refine settles_inverting s [ra.val, rb.val] rb.val (fun s => inversePath (s.operand rb) >>= fun t =>
    fmulPath (s.operand ra) t >>= fun v => .ok (stageReg rd v))
    (fun h0 hc => ?_) (by simp) (fun t e _ _ _ => ?_) rfl rfl (by simp [TablesOk, Instr.usesTables]) rfl rfl
  · obtain ⟨t, ht, -⟩ := inversePath_spec _ hc h0
    obtain ⟨v, hv⟩ := fmulPath_ok (s.operand ra) t
    exact ⟨stageReg rd v, by simp only [State.operand] at hv ⊢; rw [ht, ok_bind, hv]; rfl,
      fits_reg (by simp [Instr.destinations])⟩
  · simp only [State.operand, ← e]; rfl

theorem minv_settles (rd ra : Reg) (s : State) : Settles (.minv rd ra) s := by
  refine settles_inverting s [ra.val] ra.val (fun s => inversePath (s.operand ra) >>= fun t =>
    mmulPath t Config.r3 >>= fun v => .ok (stageReg rd v))
    (fun h0 hc => ?_) (by simp) (fun t e _ _ _ => ?_) rfl rfl (by simp [TablesOk, Instr.usesTables]) rfl rfl
  · obtain ⟨t, ht, -⟩ := inversePath_spec _ hc h0
    obtain ⟨v, hv⟩ := mmulPath_ok t Config.r3
    exact ⟨stageReg rd v, by simp only [State.operand]; rw [ht, ok_bind, hv]; rfl, fits_reg (by simp [Instr.destinations])⟩
  · simp only [State.operand, ← e]; rfl

/-! ### The permutation commands -/

theorem rangeRegs_eq_map (x : Vector Felt 16) (n len : Nat) :
    rangeRegs x n len = (List.range' n len).map fun r => regAt x r := by
  induction len generalizing n with
  | zero => rfl
  | succ len ih => rw [rangeRegs, ih, List.range'_succ, List.map_cons]

/-- A permutation command: legality, the table check, the range check of `l`, then what `m` stages. -/
theorem settles_permuting {i : Instr} (s : State) (l : List Nat) (m : State → Except CmdError Staged)
    (hm : i.wellFormed = true → ∃ st, m s = .ok st ∧ Fits i s st)
    (hx : ∀ t : State, t.snap = s.snap → t.tab = s.tab → t.tlocked = s.tlocked → t.params = s.params →
      exec i t = complete t (requireLegal i >>= fun _ =>
        if i.wellFormed then (s.requireTables >>= fun _ => rangeCheck (l.map fun r => regAt s.snap.x r) >>= fun _ => m s)
        else .error .illegal))
    (hl : i.checked = l) (h2 : i.usesTables = true) (h4 : i.locks = false) (h5 : i.inverted = none) : Settles i s := by
  cases h1 : i.wellFormed with
  | false =>
    refine ⟨.error .illegal, ⟨by decide, errorCode_illegal s h1⟩, fun t e1 e2 e3 e4 => ?_⟩
    rw [hx t e1 e2 e3 e4, complete_requireLegal, h1]; rfl
  | true =>
    cases hk : s.tlocked with
    | false =>
      refine ⟨.error .noTable, ⟨by decide, errorCode_noTable s h1 h2 hk⟩, fun t e1 e2 e3 e4 => ?_⟩
      rw [hx t e1 e2 e3 e4, complete_requireLegal, h1, if_pos rfl, if_pos rfl, State.requireTables, hk]; rfl
    | true =>
      have h2' : TablesOk i s := by simp [TablesOk, hk]
      obtain ⟨st, h6, h7⟩ := hm h1
      by_cases hc : ∀ r ∈ l, Canonical (regAt s.snap.x r)
      · refine ⟨.ok st, ⟨errorCode_checked s h1 h2' (hl ▸ hc) h4 h5, h7⟩, fun t e1 e2 e3 e4 => ?_⟩
        rw [hx t e1 e2 e3 e4, complete_requireLegal, h1, if_pos rfl, if_pos rfl, State.requireTables, hk, if_pos rfl, ok_bind,
          complete_rangeCheck, if_pos, h6]
        · rfl
        · rw [all_isCanonical_iff]
          intro v hv
          obtain ⟨r, hr, rfl⟩ := List.mem_map.1 hv
          exact hc r hr
      · have hc' : ∃ r ∈ l, ¬ Canonical (regAt s.snap.x r) := by simpa only [not_forall, exists_prop] using hc
        obtain ⟨r, hr, hn⟩ := hc'
        refine ⟨.error .range, ⟨by decide, errorCode_range s h1 h2' (hl ▸ hr) hn⟩, fun t e1 e2 e3 e4 => ?_⟩
        rw [hx t e1 e2 e3 e4, complete_requireLegal, h1, if_pos rfl, if_pos rfl, State.requireTables, hk, if_pos rfl, ok_bind,
          complete_rangeCheck, if_neg]
        · rfl
        · rw [all_isCanonical_iff]
          exact fun c => hn (c _ (List.mem_map_of_mem hr))

theorem p1perm_settles (rd ra : Reg) (w : Fin 8) (d : Domain) (s : State) : Settles (.p1perm rd ra w d) s := by
  refine settles_permuting s (List.range' ra.val w.val) (fun s => do
      let st ← (s.operandRange ra w.val).mapM (enterDomain d)
      let st ← perm1 s.tab.entry ((p1WidthOf w.val).getD .t2) st
      let outs ← st.mapM (leaveDomain d)
      return stageRange rd outs) (fun h => ?_) (fun t e1 e2 e3 e4 => ?_) rfl rfl rfl rfl
  · obtain ⟨h2, h5, -⟩ := p1perm_legal h
    obtain ⟨width, -, hw, ht⟩ := requireP1Width_ok h2 h5
    obtain ⟨ins, i1, i2, -⟩ := mapM_enter d (s.operandRange ra w.val)
    obtain ⟨o, o1, o2, -⟩ := perm1_spec s.tab.entry width ins (by rw [i2, State.operandRange, rangeRegs_length, ht])
    obtain ⟨outs, l1, l2, -⟩ := mapM_leave d o
    refine ⟨stageRange rd outs, ?_, fits_range fun n hn => ?_⟩
    · rw [hw, Option.getD_some, i1, ok_bind, o1, ok_bind, l1, ok_bind]; rfl
    · rw [l2, o2, ht] at hn; exact hn
  · cases h : (Instr.p1perm rd ra w d).wellFormed with
    | false =>
      show complete t (requireLegal (.p1perm rd ra w d) >>= _) = _
      rw [complete_requireLegal, complete_requireLegal, h]; rfl
    | true =>
      obtain ⟨h2, h5, -⟩ := p1perm_legal h
      obtain ⟨width, hr, hw, ht⟩ := requireP1Width_ok h2 h5
      show complete t (requireLegal (.p1perm rd ra w d) >>= fun _ => requireP1Width w.val >>= fun width =>
        t.requireTables >>= fun _ => rangeCheck (t.operandRange ra width.t) >>= fun _ =>
        (t.operandRange ra width.t).mapM (enterDomain d) >>= fun st => perm1 t.tab.entry width st >>= fun st =>
        st.mapM (leaveDomain d) >>= fun outs => .ok (stageRange rd outs)) = _
      rw [complete_requireLegal, complete_requireLegal, h, hr, hw, ok_bind, ht]
      simp only [State.operandRange, State.requireTables, e1, e2, e3, ← rangeRegs_eq_map]
      rfl

theorem p1comp_settles (rd ra : Reg) (w : Fin 8) (d : Domain) (s : State) : Settles (.p1comp rd ra w d) s := by
  refine settles_permuting s (List.range' ra.val w.val) (fun s => do
      let st ← (s.operandRange ra w.val).mapM (enterDomain d)
      let st ← perm1 s.tab.entry ((p1WidthOf (w.val + 1)).getD .t2) (0 :: st)
      let out ← leaveDomain d (st.headD 0)
      return stageReg rd out) (fun h => ?_) (fun t e1 e2 e3 e4 => ?_) rfl rfl rfl rfl
  · obtain ⟨h1, h4, -⟩ := p1comp_legal h
    obtain ⟨width, -, hw, ht⟩ := requireP1Width_ok (n := w.val + 1) (by omega) (by omega)
    obtain ⟨ins, i1, i2, -⟩ := mapM_enter d (s.operandRange ra w.val)
    obtain ⟨o, o1, o2, -⟩ := perm1_spec s.tab.entry width (0 :: ins)
      (by rw [List.length_cons, i2, State.operandRange, rangeRegs_length, ht])
    obtain ⟨out, l1, -⟩ := leaveDomain_spec d (o.headD 0)
    refine ⟨stageReg rd out, ?_, fits_reg (by simp [Instr.destinations])⟩
    rw [hw, Option.getD_some, i1, ok_bind, o1, ok_bind, l1, ok_bind]; rfl
  · cases h : (Instr.p1comp rd ra w d).wellFormed with
    | false =>
      show complete t (requireLegal (.p1comp rd ra w d) >>= _) = _
      rw [complete_requireLegal, complete_requireLegal, h]; rfl
    | true =>
      obtain ⟨h1, h4, -⟩ := p1comp_legal h
      obtain ⟨width, hr, hw, ht⟩ := requireP1Width_ok (n := w.val + 1) (by omega) (by omega)
      show complete t (requireLegal (.p1comp rd ra w d) >>= fun _ => requireP1Width (w.val + 1) >>= fun width =>
        t.requireTables >>= fun _ => rangeCheck (t.operandRange ra w.val) >>= fun _ =>
        (t.operandRange ra w.val).mapM (enterDomain d) >>= fun st => perm1 t.tab.entry width (0 :: st) >>= fun st =>
        leaveDomain d (st.headD 0) >>= fun out => .ok (stageReg rd out)) = _
      rw [complete_requireLegal, complete_requireLegal, h, hr, hw, ok_bind]
      simp only [State.operandRange, State.requireTables, e1, e2, e3, ← rangeRegs_eq_map]
      rfl

theorem p2perm_settles (rd ra : Reg) (w : Fin 8) (d : Domain) (set : P2Set) (s : State) :
    Settles (.p2perm rd ra w d set) s := by
  refine settles_permuting s (List.range' ra.val w.val) (fun s => do
      let st ← (s.operandRange ra w.val).mapM (enterDomain d)
      let st ← perm2 s.params s.tab.entry set ((p2WidthOf w.val).getD .t2) st
      let outs ← st.mapM (leaveDomain d)
      return stageRange rd outs) (fun h => ?_) (fun t e1 e2 e3 e4 => ?_) rfl rfl rfl rfl
  · obtain ⟨h2, h4, -⟩ := p2perm_legal h
    obtain ⟨width, -, hw, ht⟩ := requireP2Width_ok h2 h4
    obtain ⟨ins, i1, i2, -⟩ := mapM_enter d (s.operandRange ra w.val)
    obtain ⟨o, o1, o2, -⟩ := perm2_spec s.params s.tab.entry set width ins
      (by rw [i2, State.operandRange, rangeRegs_length, ht])
    obtain ⟨outs, l1, l2, -⟩ := mapM_leave d o
    refine ⟨stageRange rd outs, ?_, fits_range fun n hn => ?_⟩
    · rw [hw, Option.getD_some, i1, ok_bind, o1, ok_bind, l1, ok_bind]; rfl
    · rw [l2, o2, ht] at hn; exact hn
  · cases h : (Instr.p2perm rd ra w d set).wellFormed with
    | false =>
      show complete t (requireLegal (.p2perm rd ra w d set) >>= _) = _
      rw [complete_requireLegal, complete_requireLegal, h]; rfl
    | true =>
      obtain ⟨h2, h4, -⟩ := p2perm_legal h
      obtain ⟨width, hr, hw, ht⟩ := requireP2Width_ok h2 h4
      show complete t (requireLegal (.p2perm rd ra w d set) >>= fun _ => requireP2Width w.val >>= fun width =>
        t.requireTables >>= fun _ => rangeCheck (t.operandRange ra width.t) >>= fun _ =>
        (t.operandRange ra width.t).mapM (enterDomain d) >>= fun st => perm2 t.params t.tab.entry set width st >>= fun st =>
        st.mapM (leaveDomain d) >>= fun outs => .ok (stageRange rd outs)) = _
      rw [complete_requireLegal, complete_requireLegal, h, hr, hw, ok_bind, ht]
      simp only [State.operandRange, State.requireTables, e1, e2, e3, e4, ← rangeRegs_eq_map]
      rfl

theorem tlock_settles (s : State) : Settles .tlock s := by
  have hx : ∀ t : State, t.tab = s.tab → t.tlocked = s.tlocked → exec .tlock t = .next (t.settle (tlockRun s)) :=
    fun t e2 e3 => by show Host.Outcome.next (t.settle (tlockRun t)) = _; rw [tlockRun, e2, e3]; rfl
  have hcode : s.errorCode .tlock =
      if s.tlocked = false ∧ ∃ e ∈ List.range Config.ntab, Config.p ≤ (s.tab.entry e).toNat then 2 else 0 := by
    unfold State.errorCode
    rw [if_neg (by decide), if_neg (fun c => absurd c.1 (by decide)), if_neg (by simp [Instr.checked])]
    by_cases h : s.tlocked = false ∧ ∃ e ∈ List.range Config.ntab, Config.p ≤ (s.tab.entry e).toNat
    · rw [if_pos ⟨rfl, h⟩, if_pos h]
    · rw [if_neg (fun c => h c.2), if_neg (by simp [Instr.inverted]), if_neg h]
  rcases tlockRun_cases s with ⟨h1, h2⟩ | ⟨h1, h3, h2⟩ | ⟨h1, h3, h2⟩
  · refine ⟨tlockRun s, ?_, fun t _ e2 e3 _ => hx t e2 e3⟩
    rw [h2]
    exact ⟨by rw [hcode, if_neg (by simp [h1])], fits_nothing⟩
  · have h4 := (allCanonical_iff s.tab).1 h3
    refine ⟨tlockRun s, ?_, fun t _ e2 e3 _ => hx t e2 e3⟩
    rw [h2]
    refine ⟨?_, ?_⟩
    · rw [hcode, if_neg]
      rintro ⟨-, e, he, hp⟩
      exact absurd (h4 e (List.mem_range.1 he)) (Nat.not_lt.2 hp)
    · exact { regs := fun e he => absurd he List.not_mem_nil
              carry := fun _ => rfl
              compare := fun _ => rfl
              exclusive := by simp
              lock := fun _ => ⟨rfl, h4⟩ }
  · refine ⟨tlockRun s, ?_, fun t _ e2 e3 _ => hx t e2 e3⟩
    rw [h2]
    refine ⟨by decide, ?_⟩
    have h4 : ¬ ∀ e < Config.ntab, Canonical (s.tab.entry e) := by
      rw [← allCanonical_iff, h3]; decide
    rw [hcode, if_pos]
    · rfl
    · refine ⟨h1, ?_⟩
      simpa only [not_forall, exists_prop, List.mem_range, Nat.not_lt] using h4

end Sys2Proof.Laws
end

