-- ==== Sys2Proof/Laws/Encoding.lean ====
section
/-! SUPPORT. The fields of a packed command word (spec/30_encoding.md R90): each field reads back, and a mask acts field by
field. -/

namespace Sys2Proof.Laws

theorem opField_pack (op : BitVec 8) (rd ra rb : Reg) (w : Fin 8) (d s ci : Bool) :
    opField (packWord op rd ra rb w d s ci) = op := by
  apply BitVec.eq_of_getLsbD_eq
  intro k hk
  simp only [opField, packWord, BitVec.getLsbD_extractLsb', BitVec.getLsbD_append, Nat.zero_add]
  simp [hk]

theorem rdField_pack (op : BitVec 8) (rd ra rb : Reg) (w : Fin 8) (d s ci : Bool) :
    rdField (packWord op rd ra rb w d s ci) = rd := by
  have : (packWord op rd ra rb w d s ci).extractLsb' 8 4 = BitVec.ofFin (w := 4) rd := by
    apply BitVec.eq_of_getLsbD_eq
    intro k hk
    simp only [packWord, BitVec.getLsbD_extractLsb', BitVec.getLsbD_append]
    interval_cases k <;> simp
  rw [rdField, this]

theorem raField_pack (op : BitVec 8) (rd ra rb : Reg) (w : Fin 8) (d s ci : Bool) :
    raField (packWord op rd ra rb w d s ci) = ra := by
  have : (packWord op rd ra rb w d s ci).extractLsb' 12 4 = BitVec.ofFin (w := 4) ra := by
    apply BitVec.eq_of_getLsbD_eq
    intro k hk
    simp only [packWord, BitVec.getLsbD_extractLsb', BitVec.getLsbD_append]
    interval_cases k <;> simp
  rw [raField, this]

theorem rbField_pack (op : BitVec 8) (rd ra rb : Reg) (w : Fin 8) (d s ci : Bool) :
    rbField (packWord op rd ra rb w d s ci) = rb := by
  have : (packWord op rd ra rb w d s ci).extractLsb' 16 4 = BitVec.ofFin (w := 4) rb := by
    apply BitVec.eq_of_getLsbD_eq
    intro k hk
    simp only [packWord, BitVec.getLsbD_extractLsb', BitVec.getLsbD_append]
    interval_cases k <;> simp
  rw [rbField, this]

theorem wField_pack (op : BitVec 8) (rd ra rb : Reg) (w : Fin 8) (d s ci : Bool) :
    wField (packWord op rd ra rb w d s ci) = w := by
  have : (packWord op rd ra rb w d s ci).extractLsb' 20 3 = BitVec.ofFin (w := 3) w := by
    apply BitVec.eq_of_getLsbD_eq
    intro k hk
    simp only [packWord, BitVec.getLsbD_extractLsb', BitVec.getLsbD_append]
    interval_cases k <;> simp
  rw [wField, this]

theorem dField_pack (op : BitVec 8) (rd ra rb : Reg) (w : Fin 8) (d : Domain) (s ci : Bool) :
    dField (packWord op rd ra rb w d.bit s ci) = d := by
  have : (packWord op rd ra rb w d.bit s ci).getLsbD 23 = d.bit := by
    simp only [packWord, BitVec.getLsbD_append]
    simp
  rw [dField, this]; cases d <;> rfl

theorem sField_pack (op : BitVec 8) (rd ra rb : Reg) (w : Fin 8) (d : Bool) (s : P2Set) (ci : Bool) :
    sField (packWord op rd ra rb w d s.bit ci) = s := by
  have : (packWord op rd ra rb w d s.bit ci).getLsbD 24 = s.bit := by
    simp only [packWord, BitVec.getLsbD_append]
    simp
  rw [sField, this]; cases s <;> rfl

theorem ciField_pack (op : BitVec 8) (rd ra rb : Reg) (w : Fin 8) (d s ci : Bool) :
    ciField (packWord op rd ra rb w d s ci) = ci := by
  simp only [ciField, packWord, BitVec.getLsbD_append]
  simp

theorem rsvField_pack (op : BitVec 8) (rd ra rb : Reg) (w : Fin 8) (d s ci : Bool) :
    rsvField (packWord op rd ra rb w d s ci) = 0 := by
  apply BitVec.eq_of_getLsbD_eq
  intro k hk
  simp only [rsvField, packWord, BitVec.getLsbD_extractLsb', BitVec.getLsbD_append]
  interval_cases k <;> simp

/-- A mask built field by field acts field by field. -/
theorem pack_and (op : BitVec 8) (rd ra rb : Reg) (w : Fin 8) (d s ci : Bool) (mop : BitVec 8) (mrd mra mrb : BitVec 4)
    (mw : BitVec 3) (md ms mci : BitVec 1) (mrsv : BitVec 6) :
    packWord op rd ra rb w d s ci &&& (mrsv ++ mci ++ ms ++ md ++ mw ++ mrb ++ mra ++ mrd ++ mop) =
      (0#6 &&& mrsv) ++ (BitVec.ofBool ci &&& mci) ++ (BitVec.ofBool s &&& ms) ++ (BitVec.ofBool d &&& md)
        ++ (BitVec.ofFin (w := 3) w &&& mw) ++ (BitVec.ofFin (w := 4) rb &&& mrb) ++ (BitVec.ofFin (w := 4) ra &&& mra)
        ++ (BitVec.ofFin (w := 4) rd &&& mrd) ++ (op &&& mop) := by
  have h : (0#6 ++ BitVec.ofBool ci ++ BitVec.ofBool s ++ BitVec.ofBool d ++ BitVec.ofFin (w := 3) w
        ++ BitVec.ofFin (w := 4) rb ++ BitVec.ofFin (w := 4) ra ++ BitVec.ofFin (w := 4) rd ++ op)
      &&& (mrsv ++ mci ++ ms ++ md ++ mw ++ mrb ++ mra ++ mrd ++ mop) =
      (0#6 &&& mrsv) ++ (BitVec.ofBool ci &&& mci) ++ (BitVec.ofBool s &&& ms) ++ (BitVec.ofBool d &&& md)
        ++ (BitVec.ofFin (w := 3) w &&& mw) ++ (BitVec.ofFin (w := 4) rb &&& mrb) ++ (BitVec.ofFin (w := 4) ra &&& mra)
        ++ (BitVec.ofFin (w := 4) rd &&& mrd) ++ (op &&& mop) := by
    simp only [BitVec.and_append]
  exact h

/-- A word whose reserved bits are 0 is its fields, packed. -/
theorem word_eq_pack (w : Limb) (h : rsvField w = 0) :
    w = packWord (opField w) (rdField w) (raField w) (rbField w) (wField w) (w.getLsbD 23) (w.getLsbD 24) (ciField w) := by
  have hr : w.extractLsb' 26 6 = 0#6 := h
  show w = 0#6 ++ BitVec.ofBool (w.getLsbD 25) ++ BitVec.ofBool (w.getLsbD 24) ++ BitVec.ofBool (w.getLsbD 23)
    ++ w.extractLsb' 20 3 ++ w.extractLsb' 16 4 ++ w.extractLsb' 12 4 ++ w.extractLsb' 8 4 ++ w.extractLsb' 0 8
  rw [← hr]
  apply BitVec.eq_of_getLsbD_eq
  intro k hk
  simp only [BitVec.getLsbD_append, BitVec.getLsbD_extractLsb', BitVec.getLsbD_ofBool]
  interval_cases k <;> simp

/-- A field the mask covers whole holds what `match` holds there. -/
theorem field_of_mask {w mask mtch : Limb} (h : w &&& mask = mtch) (start n : Nat)
    (hm : mask.extractLsb' start n = BitVec.allOnes n) : w.extractLsb' start n = mtch.extractLsb' start n := by
  rw [← h, BitVec.extractLsb'_and, hm, BitVec.and_allOnes]

theorem konst_round (k : Konst) : konstOfW (wOfKonst k) = k := by cases k <;> rfl

theorem konstOfW_round (w : Fin 8) : wOfKonst (konstOfW w) = w := by revert w; decide

end Sys2Proof.Laws
end

