-- ==== Sys2Proof/Laws/PerInstr.lean ====
section
/-! SUPPORT. Statements made per instruction. The family `ReadsBack`: in the word `encode` gives a command, the opcode byte
selects the command's row of the opcode map, the reserved bits are 0, the row's mask and match hold, and the row reads the
command back field by field (spec/30_encoding.md R90, R93). -/

namespace Sys2Proof.Laws

/-- The word of a command, in terms of its row: R96's checks before the value constraints, and the fields read back. -/
def ReadsBack.Statement (i : Instr) : Prop :=
  ∃ row, findRow (opField (encode i)) opRows = some row ∧ rsvField (encode i) = 0 ∧
    encode i &&& row.mask = row.mtch ∧ row.build (encode i) = i

/-- The statement from its parts, the row's mask given field by field. -/
theorem readsBack_of {i : Instr} {op : BitVec 8} {rd ra rb : Reg} {w : Fin 8} {d s ci : Bool} {row : OpRow}
    (mrd mra mrb : BitVec 4) (mw : BitVec 3) (md ms mci : BitVec 1)
    (hi : encode i = packWord op rd ra rb w d s ci) (hr : findRow op opRows = some row)
    (hmask : row.mask = 0x3F#6 ++ mci ++ ms ++ md ++ mw ++ mrb ++ mra ++ mrd ++ 0xFF#8)
    (hm : (0#6 &&& 0x3F#6) ++ (BitVec.ofBool ci &&& mci) ++ (BitVec.ofBool s &&& ms) ++ (BitVec.ofBool d &&& md)
        ++ (BitVec.ofFin (w := 3) w &&& mw) ++ (BitVec.ofFin (w := 4) rb &&& mrb) ++ (BitVec.ofFin (w := 4) ra &&& mra)
        ++ (BitVec.ofFin (w := 4) rd &&& mrd) ++ (op &&& 0xFF#8) = row.mtch)
    (hb : row.build (packWord op rd ra rb w d s ci) = i) : ReadsBack.Statement i :=
  ⟨row, by rw [hi, opField_pack, hr], by rw [hi, rsvField_pack], by rw [hi, hmask]; exact (pack_and ..).trans hm,
    by rw [hi, hb]⟩

theorem ReadsBack.nop : ReadsBack.Statement .nop :=
  readsBack_of 0xF 0xF 0xF 0x7 1 1 1 rfl rfl rfl (by simp) (rfl)

theorem ReadsBack.mov (rd : Reg) (ra : Reg) : ReadsBack.Statement (.mov rd ra) :=
  readsBack_of 0 0 0xF 0x7 1 1 1 rfl rfl rfl (by simp) (by simp only [rdField_pack, raField_pack])

theorem ReadsBack.ldk (rd : Reg) (k : Konst) : ReadsBack.Statement (.ldk rd k) :=
  readsBack_of 0 0xF 0xF 0 1 1 1 rfl rfl rfl (by simp) (by simp only [rdField_pack, wField_pack, konst_round])

theorem ReadsBack.addc (rd : Reg) (ra : Reg) (rb : Reg) (ci : Bool) : ReadsBack.Statement (.addc rd ra rb ci) :=
  readsBack_of 0 0 0 0x7 1 1 0 rfl rfl rfl (by simp) (by simp only [rdField_pack, raField_pack, rbField_pack, ciField_pack])

theorem ReadsBack.subb (rd : Reg) (ra : Reg) (rb : Reg) (ci : Bool) : ReadsBack.Statement (.subb rd ra rb ci) :=
  readsBack_of 0 0 0 0x7 1 1 0 rfl rfl rfl (by simp) (by simp only [rdField_pack, raField_pack, rbField_pack, ciField_pack])

theorem ReadsBack.cmp (ra : Reg) (rb : Reg) : ReadsBack.Statement (.cmp ra rb) :=
  readsBack_of 0xF 0 0 0x7 1 1 1 rfl rfl rfl (by simp) (by simp only [raField_pack, rbField_pack])

theorem ReadsBack.mulw (rd : Reg) (ra : Reg) (rb : Reg) : ReadsBack.Statement (.mulw rd ra rb) :=
  readsBack_of 0 0 0 0x7 1 1 1 rfl rfl rfl (by simp) (by simp only [rdField_pack, raField_pack, rbField_pack])

theorem ReadsBack.redc (rd : Reg) (ra : Reg) (rb : Reg) : ReadsBack.Statement (.redc rd ra rb) :=
  readsBack_of 0 0 0 0x7 1 1 1 rfl rfl rfl (by simp) (by simp only [rdField_pack, raField_pack, rbField_pack])

theorem ReadsBack.fchk (ra : Reg) : ReadsBack.Statement (.fchk ra) :=
  readsBack_of 0xF 0 0xF 0x7 1 1 1 rfl rfl rfl (by simp) (by simp only [raField_pack])

theorem ReadsBack.fadd (rd : Reg) (ra : Reg) (rb : Reg) : ReadsBack.Statement (.fadd rd ra rb) :=
  readsBack_of 0 0 0 0x7 1 1 1 rfl rfl rfl (by simp) (by simp only [rdField_pack, raField_pack, rbField_pack])

theorem ReadsBack.fsub (rd : Reg) (ra : Reg) (rb : Reg) : ReadsBack.Statement (.fsub rd ra rb) :=
  readsBack_of 0 0 0 0x7 1 1 1 rfl rfl rfl (by simp) (by simp only [rdField_pack, raField_pack, rbField_pack])

theorem ReadsBack.fneg (rd : Reg) (ra : Reg) : ReadsBack.Statement (.fneg rd ra) :=
  readsBack_of 0 0 0xF 0x7 1 1 1 rfl rfl rfl (by simp) (by simp only [rdField_pack, raField_pack])

theorem ReadsBack.fhalf (rd : Reg) (ra : Reg) : ReadsBack.Statement (.fhalf rd ra) :=
  readsBack_of 0 0 0xF 0x7 1 1 1 rfl rfl rfl (by simp) (by simp only [rdField_pack, raField_pack])

theorem ReadsBack.mmul (rd : Reg) (ra : Reg) (rb : Reg) : ReadsBack.Statement (.mmul rd ra rb) :=
  readsBack_of 0 0 0 0x7 1 1 1 rfl rfl rfl (by simp) (by simp only [rdField_pack, raField_pack, rbField_pack])

theorem ReadsBack.msqr (rd : Reg) (ra : Reg) : ReadsBack.Statement (.msqr rd ra) :=
  readsBack_of 0 0 0xF 0x7 1 1 1 rfl rfl rfl (by simp) (by simp only [rdField_pack, raField_pack])

theorem ReadsBack.tomont (rd : Reg) (ra : Reg) : ReadsBack.Statement (.tomont rd ra) :=
  readsBack_of 0 0 0xF 0x7 1 1 1 rfl rfl rfl (by simp) (by simp only [rdField_pack, raField_pack])

theorem ReadsBack.frommont (rd : Reg) (ra : Reg) : ReadsBack.Statement (.frommont rd ra) :=
  readsBack_of 0 0 0xF 0x7 1 1 1 rfl rfl rfl (by simp) (by simp only [rdField_pack, raField_pack])

theorem ReadsBack.fmul (rd : Reg) (ra : Reg) (rb : Reg) : ReadsBack.Statement (.fmul rd ra rb) :=
  readsBack_of 0 0 0 0x7 1 1 1 rfl rfl rfl (by simp) (by simp only [rdField_pack, raField_pack, rbField_pack])

theorem ReadsBack.fsqr (rd : Reg) (ra : Reg) : ReadsBack.Statement (.fsqr rd ra) :=
  readsBack_of 0 0 0xF 0x7 1 1 1 rfl rfl rfl (by simp) (by simp only [rdField_pack, raField_pack])

theorem ReadsBack.finv (rd : Reg) (ra : Reg) : ReadsBack.Statement (.finv rd ra) :=
  readsBack_of 0 0 0xF 0x7 1 1 1 rfl rfl rfl (by simp) (by simp only [rdField_pack, raField_pack])

theorem ReadsBack.fdiv (rd : Reg) (ra : Reg) (rb : Reg) : ReadsBack.Statement (.fdiv rd ra rb) :=
  readsBack_of 0 0 0 0x7 1 1 1 rfl rfl rfl (by simp) (by simp only [rdField_pack, raField_pack, rbField_pack])

theorem ReadsBack.minv (rd : Reg) (ra : Reg) : ReadsBack.Statement (.minv rd ra) :=
  readsBack_of 0 0 0xF 0x7 1 1 1 rfl rfl rfl (by simp) (by simp only [rdField_pack, raField_pack])

theorem ReadsBack.p1perm (rd : Reg) (ra : Reg) (w : Fin 8) (d : Domain) : ReadsBack.Statement (.p1perm rd ra w d) :=
  readsBack_of 0 0 0xF 0 0 1 1 rfl rfl rfl (by simp) (by simp only [rdField_pack, raField_pack, wField_pack, dField_pack])

theorem ReadsBack.p1comp (rd : Reg) (ra : Reg) (w : Fin 8) (d : Domain) : ReadsBack.Statement (.p1comp rd ra w d) :=
  readsBack_of 0 0 0xF 0 0 1 1 rfl rfl rfl (by simp) (by simp only [rdField_pack, raField_pack, wField_pack, dField_pack])

theorem ReadsBack.p2perm (rd : Reg) (ra : Reg) (w : Fin 8) (d : Domain) (set : P2Set) : ReadsBack.Statement (.p2perm rd ra w d set) :=
  readsBack_of 0 0 0xF 0 0 0 1 rfl rfl rfl (by simp) (by simp only [rdField_pack, raField_pack, wField_pack, dField_pack, sField_pack])

theorem ReadsBack.tlock : ReadsBack.Statement .tlock :=
  readsBack_of 0xF 0xF 0xF 0x7 1 1 1 rfl rfl rfl (by simp) (rfl)

end Sys2Proof.Laws
end

