-- ==== Sys2Proof/Laws/Step.lean ====
section
/-! SUPPORT. Everything a command, a bus write, an engine's turn and a step can do, said once. -/

namespace Sys2Proof.Laws

open Sys2Proof.Machine

theorem command_settles (i : Instr) (s : State) : Settles i s := by
  cases i with
  | nop => exact nop_settles s
  | mov rd ra => exact mov_settles rd ra s
  | ldk rd k => exact ldk_settles rd k s
  | addc rd ra rb ci => exact addc_settles rd ra rb ci s
  | subb rd ra rb ci => exact subb_settles rd ra rb ci s
  | cmp ra rb => exact cmp_settles ra rb s
  | mulw rd ra rb => exact mulw_settles rd ra rb s
  | redc rd ra rb => exact redc_settles rd ra rb s
  | fchk ra => exact fchk_settles ra s
  | fadd rd ra rb => exact fadd_settles rd ra rb s
  | fsub rd ra rb => exact fsub_settles rd ra rb s
  | fneg rd ra => exact fneg_settles rd ra s
  | fhalf rd ra => exact fhalf_settles rd ra s
  | mmul rd ra rb => exact mmul_settles rd ra rb s
  | msqr rd ra => exact msqr_settles rd ra s
  | tomont rd ra => exact tomont_settles rd ra s
  | frommont rd ra => exact frommont_settles rd ra s
  | fmul rd ra rb => exact fmul_settles rd ra rb s
  | fsqr rd ra => exact fsqr_settles rd ra s
  | finv rd ra => exact finv_settles rd ra s
  | fdiv rd ra rb => exact fdiv_settles rd ra rb s
  | minv rd ra => exact minv_settles rd ra s
  | p1perm rd ra w d => exact p1perm_settles rd ra w d s
  | p1comp rd ra w d => exact p1comp_settles rd ra w d s
  | p2perm rd ra w d set => exact p2perm_settles rd ra w d set s
  | tlock => exact tlock_settles s

/-- Everything `exec` can do: commit writes that fit the command, or end with an error that commits nothing. -/
theorem exec_cases (i : Instr) (s : State) :
    (∃ st, s.errorCode i = 0 ∧ Fits i s st ∧ exec i s = .next ((s.commit st).finishOk)) ∨
    (∃ e, e ≠ .internal ∧ s.errorCode i = e.code ∧ exec i s = .next (s.finishError e)) := by
  obtain ⟨r, h1, h2⟩ := exec_settles (command_settles i s)
  cases r with
  | ok st => exact Or.inl ⟨st, h1.1, h1.2, h2⟩
  | error e => exact Or.inr ⟨e, h1.1, h1.2, h2⟩

/-- Everything an engine's turn can do. -/
theorem engineTurn_cases (s : State) :
    (¬ (s.rstN = true ∧ s.busy = true) ∧ engineTurn s = .next s) ∨
    (s.rstN = true ∧ s.busy = true ∧
      ((∃ i st, decode s.cmdReg = .ok i ∧ Fits i s st ∧ engineTurn s = .next ((s.commit st).finishOk)) ∨
       (∃ e, e ≠ .internal ∧ engineTurn s = .next (s.finishError e)))) := by
  cases hr : s.rstN with
  | false => exact Or.inl ⟨by simp, engineTurn_held hr⟩
  | true =>
    cases hb : s.busy with
    | false => exact Or.inl ⟨by simp, engineTurn_idle hb⟩
    | true =>
      refine Or.inr ⟨rfl, rfl, ?_⟩
      rw [engineTurn_busy hr hb]
      cases hd : decode s.cmdReg with
      | error e => exact Or.inr ⟨.illegal, by decide, completeInFlight_error hd⟩
      | ok i =>
        rw [completeInFlight_ok hd]
        rcases exec_cases i s with ⟨st, -, hf, hx⟩ | ⟨e, he, -, hx⟩
        · exact Or.inl ⟨i, st, rfl, hf, hx⟩
        · exact Or.inr ⟨e, he, hx⟩

/-- Everything a bus write can do, beside its answer. -/
inductive WriteEffect (s : State) (a : BusAddr) (n : Nat) (w : Limb) : State → Prop
  | nothing : WriteEffect s a n w s
  | ctrl (hn : n = 4) (ha : a = 0x008) : WriteEffect s a n w (s.writeCtrl w)
  | status (hn : n = 4) (ha : a = 0x00C) : WriteEffect s a n w (s.writeStatus w)
  | dropped (hb : s.busy = true) : WriteEffect s a n w s.setOverrun
  | accepted (hb : s.busy = false) : WriteEffect s a n w (s.accept w)
  | limb (hb : s.busy = false) (hn : n = 4) (r : Reg) (i : Fin 8) (v : Limb)
      (ha : (0x01000 ≤ a.toNat ∧ a.toNat < 0x01200) ∨ (0x01400 ≤ a.toNat ∧ a.toNat < 0x01600)) :
      WriteEffect s a n w (s.writeLimb r i v)
  | table (hb : s.busy = false) (hl : s.tlocked = false) (hn : n = 4) (e : Nat) (i : Fin 8) (he : e < Config.ntab)
      (ha : a.toNat = tabOffset e i) : WriteEffect s a n w { s with tab := s.tab.writeWord (tabOffset e i) w }

theorem targetOf_ctrl {a : BusAddr} (h : targetOf a.toNat = .ctrl) : a = 0x008 := by
  unfold targetOf at h
  repeat' split at h
  all_goals first | (cases h; done) | (apply BitVec.eq_of_toNat_eq; assumption)

theorem targetOf_status {a : BusAddr} (h : targetOf a.toNat = .status) : a = 0x00C := by
  unfold targetOf at h
  repeat' split at h
  all_goals first | (cases h; done) | (apply BitVec.eq_of_toNat_eq; assumption)

theorem targetOf_eq_regLE {a : Nat} {r : Reg} {i : Fin 8} (h : targetOf a = .regLE r i) : 0x01000 ≤ a ∧ a < 0x01200 := by
  unfold targetOf at h
  repeat' split at h
  all_goals first | (cases h; done) | assumption

theorem targetOf_eq_regBE {a : Nat} {r : Reg} {i : Fin 8} (h : targetOf a = .regBE r i) : 0x01400 ≤ a ∧ a < 0x01600 := by
  unfold targetOf at h
  repeat' split at h
  all_goals first | (cases h; done) | assumption

theorem busWrite_cases (s : State) (a : BusAddr) (n : Nat) (w : Limb) :
    ∃ t r, WriteEffect s a n w t ∧ s.busWrite a n w = t.reply (.write r) := by
  rw [busWrite_eq]
  cases hok : accessOk a n with
  | false => exact ⟨s, .err, .nothing, rfl⟩
  | true =>
    obtain ⟨hn, ha⟩ : n = 4 ∧ a.toNat % 4 = 0 := by simpa [accessOk] using hok
    rw [if_pos rfl]
    cases ht : targetOf a.toNat with
    | id => exact ⟨_, _, .nothing, rfl⟩
    | version => exact ⟨_, _, .nothing, rfl⟩
    | ctrl => exact ⟨_, _, .ctrl hn (targetOf_ctrl ht), rfl⟩
    | status => exact ⟨_, _, .status hn (targetOf_status ht), rfl⟩
    | cmd =>
      unfold State.writeTarget
      cases hb : s.busy with
      | true => exact ⟨_, _, .dropped hb, rfl⟩
      | false => exact ⟨_, _, .accepted hb, rfl⟩
    | regLE r i =>
      unfold State.writeTarget
      cases hb : s.busy with
      | true => exact ⟨_, _, .nothing, rfl⟩
      | false => exact ⟨_, _, .limb hb hn r i w (Or.inl (targetOf_eq_regLE ht)), rfl⟩
    | regBE r i =>
      unfold State.writeTarget
      cases hb : s.busy with
      | true => exact ⟨_, _, .nothing, rfl⟩
      | false => exact ⟨_, _, .limb hb hn r (mirror i) (bswap32 w) (Or.inr (targetOf_eq_regBE ht)), rfl⟩
    | tab e i =>
      obtain ⟨he, ha⟩ := targetOf_eq_tab ht ha
      unfold State.writeTarget
      by_cases h : (s.tlocked || s.busy) = true
      · exact ⟨s, .err, .nothing, by simp only [if_pos h]⟩
      · have hlb : s.tlocked = false ∧ s.busy = false := by simpa using h
        exact ⟨_, .ok, .table hlb.2 hlb.1 hn e i he ha, by simp only [if_neg h]⟩
    | reserved => exact ⟨_, _, .nothing, rfl⟩

theorem busRead_reply (s : State) (a : BusAddr) (n : Nat) : ∃ d r, s.busRead a n = s.reply (.read d r) := by
  rw [busRead_eq]; split <;> exact ⟨_, _, rfl⟩

/-- Everything a step that answers a next state can do; `rest` is the event list it leaves. -/
inductive StepEffect (s : State) (rest : List Event) : State → Prop
  | idle (h : ¬ (s.rstN = true ∧ s.busy = true)) : StepEffect s rest { s with events := rest }
  | ended (hc : engineCompletesNext s) (i : Instr) (st : Staged) (hd : decode s.cmdReg = .ok i)
      (hf : Fits i s st) : StepEffect s rest (({ s with events := rest }.commit st).finishOk)
  | failed (hc : engineCompletesNext s) (e : CmdError) (he : e ≠ .internal) :
      StepEffect s rest ({ s with events := rest }.finishError e)
  | read (hr : s.rstN = true) (d : Limb) (r : BusResp) : StepEffect s rest ({ s with events := rest }.reply (.read d r))
  | write (hr : s.rstN = true) (a : BusAddr) (n : Nat) (w : Limb) (he : s.events = .write a n w :: rest) (t : State)
      (r : BusResp) (ht : WriteEffect { s with events := rest } a n w t) : StepEffect s rest (t.reply (.write r))
  | reset (hr : s.rstN = true) (he : s.events = .resetLow :: rest) : StepEffect s rest { s with events := rest }.takeReset
  | release (he : s.events = .resetHigh :: rest) : StepEffect s rest { s with events := rest }.releaseReset

theorem engineTurn_effect {s t : State} (rest : List Event)
    (hev : s.events = [] ∨ ∃ later, s.events = .engine :: later) (h : engineTurn { s with events := rest } = .next t) :
    StepEffect s rest t := by
  rcases engineTurn_cases { s with events := rest } with
    ⟨hn, hx⟩ | ⟨hr, hb, ⟨i, st, hd, hf, hx⟩ | ⟨e, he, hx⟩⟩ <;> rw [hx] at h <;> obtain rfl := Host.Outcome.next.inj h
  · exact .idle (s := s) (rest := rest) hn
  · exact .ended (s := s) (rest := rest) ⟨hr, hb, hev⟩ i st hd ⟨hf.regs, hf.carry, hf.compare, hf.exclusive, hf.lock⟩
  · exact .failed (s := s) (rest := rest) ⟨hr, hb, hev⟩ e he

theorem step_cases {s t : State} (h : step s = .next t) : StepEffect s s.events.tail t := by
  cases he : s.events with
  | nil =>
    rw [step_nil he] at h
    exact engineTurn_effect [] (.inl he) (by rw [← h, ← he])
  | cons e rest =>
    rw [List.tail_cons]
    cases e with
    | engine => exact engineTurn_effect rest (.inr ⟨rest, he⟩) (by rw [← h, step_engine he])
    | read a n =>
      rw [step_read he] at h
      cases hr : s.rstN with
      | false => rw [hr] at h; cases h
      | true =>
        rw [if_pos hr] at h
        obtain ⟨d, r, hx⟩ := busRead_reply { s with events := rest } a n
        rw [hx] at h
        obtain rfl := Host.Outcome.next.inj h
        exact .read hr d r
    | write a n w =>
      rw [step_write he] at h
      cases hr : s.rstN with
      | false => rw [hr] at h; cases h
      | true =>
        rw [if_pos hr] at h
        obtain ⟨u, r, hu, hx⟩ := busWrite_cases { s with events := rest } a n w
        rw [hx] at h
        obtain rfl := Host.Outcome.next.inj h
        exact .write hr a n w he u r hu
    | resetLow =>
      rw [step_resetLow he] at h
      by_cases hr : s.rstN = true
      · rw [if_pos hr] at h
        obtain rfl := Host.Outcome.next.inj h
        exact .reset hr he
      · rw [if_neg hr] at h
        obtain rfl := Host.Outcome.next.inj h
        exact .idle (s := s) (rest := rest) fun c => hr c.1
    | resetHigh =>
      rw [step_resetHigh he] at h
      obtain rfl := Host.Outcome.next.inj h
      exact .release he

end Sys2Proof.Laws
end

