-- ==== Sys2Proof/Tests/Slice0.lean ====
section
/-! SUPPORT. The model's own tests: words written bit by bit from the encodings of spec/30_encoding.md, ill-formed terms,
one step of each command with values from spec/95_test_vectors.md (the vector is named at each test), bus accesses, and
for every statement that has hypotheses a witness of states and operands that meet them. -/

set_option Elab.async false

namespace Sys2Proof.Tests

open Sys2Proof.Machine

/-! ### Decoding: words written from R90 and R93, fields in the order RSV CI S D W RB RA RD OP -/

theorem test_decode_nop : (decode 0b00000000000000000000000000000000).toOption = some (.nop) ∧ encode (.nop) = 0b00000000000000000000000000000000 := by decide
theorem test_decode_mov : (decode 0b00000000000000000001001100000001).toOption = some (.mov 3 1) ∧ encode (.mov 3 1) = 0b00000000000000000001001100000001 := by decide
theorem test_decode_ldk : (decode 0b00000000011000000000111100000010).toOption = some (.ldk 15 .q) ∧ encode (.ldk 15 .q) = 0b00000000011000000000111100000010 := by decide
theorem test_decode_addc : (decode 0b00000010000010010101001000000011).toOption = some (.addc 2 5 9 true) ∧ encode (.addc 2 5 9 true) = 0b00000010000010010101001000000011 := by decide
theorem test_decode_subb : (decode 0b00000000000010010101001000000100).toOption = some (.subb 2 5 9 false) ∧ encode (.subb 2 5 9 false) = 0b00000000000010010101001000000100 := by decide
theorem test_decode_cmp : (decode 0b00000000000010101000000000000101).toOption = some (.cmp 8 10) ∧ encode (.cmp 8 10) = 0b00000000000010101000000000000101 := by decide
theorem test_decode_mulw : (decode 0b00000000000000100001111000000110).toOption = some (.mulw 14 1 2) ∧ encode (.mulw 14 1 2) = 0b00000000000000100001111000000110 := by decide
theorem test_decode_redc : (decode 0b00000000000000110010010000000111).toOption = some (.redc 4 2 3) ∧ encode (.redc 4 2 3) = 0b00000000000000110010010000000111 := by decide
theorem test_decode_fchk : (decode 0b00000000000000000110000000010000).toOption = some (.fchk 6) ∧ encode (.fchk 6) = 0b00000000000000000110000000010000 := by decide
theorem test_decode_fadd : (decode 0b00000000000001100101011100010001).toOption = some (.fadd 7 5 6) ∧ encode (.fadd 7 5 6) = 0b00000000000001100101011100010001 := by decide
theorem test_decode_fsub : (decode 0b00000000000001000010000100010010).toOption = some (.fsub 1 2 4) ∧ encode (.fsub 1 2 4) = 0b00000000000001000010000100010010 := by decide
theorem test_decode_fneg : (decode 0b00000000000000000001100000010011).toOption = some (.fneg 8 1) ∧ encode (.fneg 8 1) = 0b00000000000000000001100000010011 := by decide
theorem test_decode_fhalf : (decode 0b00000000000000001000000100010100).toOption = some (.fhalf 1 8) ∧ encode (.fhalf 1 8) = 0b00000000000000001000000100010100 := by decide
theorem test_decode_mmul : (decode 0b00000000000001000011010100011000).toOption = some (.mmul 5 3 4) ∧ encode (.mmul 5 3 4) = 0b00000000000001000011010100011000 := by decide
theorem test_decode_msqr : (decode 0b00000000000000001100100100011001).toOption = some (.msqr 9 12) ∧ encode (.msqr 9 12) = 0b00000000000000001100100100011001 := by decide
theorem test_decode_tomont : (decode 0b00000000000000000000001100011010).toOption = some (.tomont 3 0) ∧ encode (.tomont 3 0) = 0b00000000000000000000001100011010 := by decide
theorem test_decode_frommont : (decode 0b00000000000000000111100000011011).toOption = some (.frommont 8 7) ∧ encode (.frommont 8 7) = 0b00000000000000000111100000011011 := by decide
theorem test_decode_fmul : (decode 0b00000000000000010000100100011100).toOption = some (.fmul 9 0 1) ∧ encode (.fmul 9 0 1) = 0b00000000000000010000100100011100 := by decide
theorem test_decode_fsqr : (decode 0b00000000000000001111001000011101).toOption = some (.fsqr 2 15) ∧ encode (.fsqr 2 15) = 0b00000000000000001111001000011101 := by decide
theorem test_decode_finv : (decode 0b00000000000000000100010100100000).toOption = some (.finv 5 4) ∧ encode (.finv 5 4) = 0b00000000000000000100010100100000 := by decide
theorem test_decode_fdiv : (decode 0b00000000000011011010001000100001).toOption = some (.fdiv 2 10 13) ∧ encode (.fdiv 2 10 13) = 0b00000000000011011010001000100001 := by decide
theorem test_decode_minv : (decode 0b00000000000000001011010000100010).toOption = some (.minv 4 11) ∧ encode (.minv 4 11) = 0b00000000000000001011010000100010 := by decide
theorem test_decode_p1perm : (decode 0b00000000110000001100101100110000).toOption = some (.p1perm 11 12 4 .montgomery) ∧ encode (.p1perm 11 12 4 .montgomery) = 0b00000000110000001100101100110000 := by decide
theorem test_decode_p1comp : (decode 0b00000000010000001100010000110001).toOption = some (.p1comp 4 12 4 .canonical) ∧ encode (.p1comp 4 12 4 .canonical) = 0b00000000010000001100010000110001 := by decide
theorem test_decode_p2perm : (decode 0b00000001101100000001100000110010).toOption = some (.p2perm 8 1 3 .montgomery .new) ∧ encode (.p2perm 8 1 3 .montgomery .new) = 0b00000001101100000001100000110010 := by decide
theorem test_decode_tlock : (decode 0b00000000000000000000000000111111).toOption = some (.tlock) ∧ encode (.tlock) = 0b00000000000000000000000000111111 := by decide

/-- Vectors V-DEC-1 to V-DEC-26: the words the spec calls illegal, by the clause of R94 that each breaks. -/
theorem test_decode_rejects :
    decode 0x00000100 = .error .unusedField ∧ decode 0x00000008 = .error .unassignedOpcode ∧
    decode 0x000000FF = .error .unassignedOpcode ∧ decode 0x04000003 = .error .reservedBits ∧
    decode 0x00800003 = .error .unusedField ∧ decode 0x00100003 = .error .unusedField ∧
    decode 0x00000105 = .error .unusedField ∧ decode 0x00010010 = .error .unusedField ∧
    decode 0x00001002 = .error .unusedField ∧ decode 0x02300032 = .error .unusedField ∧
    decode 0x0000013F = .error .unusedField ∧ decode 0x0300F203 = .error .unusedField :=
  ⟨rfl, rfl, rfl, rfl, rfl, rfl, rfl, rfl, rfl, rfl, rfl, rfl⟩

theorem test_decode_rejects_values :
    decode 0x00000F06 = .error .valueConstraint ∧ decode 0x00100030 = .error .valueConstraint ∧
    decode 0x00600030 = .error .valueConstraint ∧ decode 0x00500C30 = .error .valueConstraint ∧
    decode 0x0050C030 = .error .valueConstraint ∧ decode 0x00000031 = .error .valueConstraint ∧
    decode 0x0040D031 = .error .valueConstraint ∧ decode 0x00500032 = .error .valueConstraint :=
  ⟨rfl, rfl, rfl, rfl, rfl, rfl, rfl, rfl⟩

/-- R95 at its boundaries: V-DEC-11, V-DEC-14, V-DEC-15, V-DEC-20, V-DEC-22, V-DEC-23. -/
theorem test_decode_boundaries :
    decode 0x00000E06 = .ok (.mulw 14 0 0) ∧ decode 0x00500030 = .ok (.p1perm 0 0 5 .canonical) ∧
    decode 0x00500B30 = .ok (.p1perm 11 0 5 .canonical) ∧ decode 0x0040C031 = .ok (.p1comp 0 12 4 .canonical) ∧
    decode 0x01400032 = .ok (.p2perm 0 0 4 .canonical .new) ∧ decode 0x01C00032 = .ok (.p2perm 0 0 4 .montgomery .new) :=
  ⟨rfl, rfl, rfl, rfl, rfl, rfl⟩

theorem test_decodeTableWord : decodeTableWord 32 0x00010203 = some (.addc 2 0 1 false) ∧
    decodeTableWord 32 0x00000F06 = none ∧ decodeTableWord 40 0x100000000 = none := by decide

/-! ### WellFormed: for each check of R95, an ill-formed term it refuses -/

theorem test_wellFormed_mulw_rd : (Instr.mulw 15 0 0).wellFormed = false := by decide
theorem test_wellFormed_p1perm_low : (Instr.p1perm 0 0 1 .canonical).wellFormed = false := by decide
theorem test_wellFormed_p1perm_high : (Instr.p1perm 0 0 6 .canonical).wellFormed = false := by decide
theorem test_wellFormed_p1perm_ra : (Instr.p1perm 0 12 5 .canonical).wellFormed = false := by decide
theorem test_wellFormed_p1perm_rd : (Instr.p1perm 12 0 5 .canonical).wellFormed = false := by decide
theorem test_wellFormed_p1comp_low : (Instr.p1comp 0 0 0 .canonical).wellFormed = false := by decide
theorem test_wellFormed_p1comp_high : (Instr.p1comp 0 0 5 .canonical).wellFormed = false := by decide
theorem test_wellFormed_p1comp_ra : (Instr.p1comp 0 13 4 .canonical).wellFormed = false := by decide
theorem test_wellFormed_p2perm_low : (Instr.p2perm 0 0 1 .canonical .old).wellFormed = false := by decide
theorem test_wellFormed_p2perm_high : (Instr.p2perm 0 0 5 .canonical .old).wellFormed = false := by decide
theorem test_wellFormed_p2perm_ra : (Instr.p2perm 0 13 4 .canonical .old).wellFormed = false := by decide
theorem test_wellFormed_p2perm_rd : (Instr.p2perm 14 0 3 .canonical .new).wellFormed = false := by decide

/-! ### One step of each command -/

/-- The reset state with the listed registers set. -/
def startAt (l : List (Nat × Nat)) : State :=
  { State.reset with x := l.foldl (fun x e => setReg x e.1 (BitVec.ofNat 256 e.2)) zeroRegs }

/-- What a step of the command word `w` from `s` leaves, as `view` looks at it. -/
def after {α : Type} (s : State) (w : Nat) (view : State → α) : Option α :=
  match step (s.withFetchWord 32 w) with
  | .next t => some (view t)
  | .fault _ => none
  | .refused _ => none

/-- x[n] as a number, and ERR. -/
def regErr (n : Nat) (t : State) : Nat × Nat := ((regAt t.x n).toNat, t.err.toNat)

/-- V-CTL-1. -/
theorem test_nop : after { startAt [(0, 5)] with c := true, err := 3 } 0x00000000
    (fun t => (t.x, t.c, t.err, t.done, t.busy, t.esticky)) = some ((startAt [(0, 5)]).x, true, 0, true, false, false) := by
  decide +kernel

/-- V-CTL-3. -/
theorem test_mov : after (startAt [(1, 0xffffffffffffffffffffffffffffffffffffffffffffffffffffffffffffffff)]) 0x00001301 (regErr 3) = some (0xffffffffffffffffffffffffffffffffffffffffffffffffffffffffffffffff, 0) := by decide +kernel
/-- V-CTL-6. -/
theorem test_ldk_q : after (startAt []) 0x00600F02 (regErr 15) = some (0xefffffff, 0) := by decide +kernel
/-- V-CTL-7. -/
theorem test_ldk_p : after (startAt []) 0x00500202 (regErr 2) = some (0x30644e72e131a029b85045b68181585d2833e84879b9709143e1f593f0000001, 0) := by decide +kernel
/-- V-LIMB-3. -/
theorem test_addc_carry : after { startAt [(0, 0xffffffffffffffffffffffffffffffffffffffffffffffffffffffffffffffff)] with c := true } 0x02010203
    (fun t => (regErr 2 t, t.c)) = some ((0, 0), true) := by decide +kernel
/-- V-LIMB-6: no range check. -/
theorem test_addc_raw : after (startAt [(0, 0x30644e72e131a029b85045b68181585d2833e84879b9709143e1f593f0000001), (1, 0x30644e72e131a029b85045b68181585d2833e84879b9709143e1f593f0000001)]) 0x00010203
    (fun t => (regErr 2 t, t.c)) = some ((0x60c89ce5c263405370a08b6d0302b0ba5067d090f372e12287c3eb27e0000002, 0), false) := by decide +kernel
/-- V-LIMB-8. -/
theorem test_subb_borrow : after { startAt [(0, 5)] with c := true } 0x02000204
    (fun t => (regErr 2 t, t.c)) = some ((0xffffffffffffffffffffffffffffffffffffffffffffffffffffffffffffffff, 0), true) := by decide +kernel
/-- V-LIMB-9: CI = 0 ignores C. -/
theorem test_subb_no_borrow : after { startAt [(0, 5)] with c := true } 0x00000204
    (fun t => (regErr 2 t, t.c)) = some ((0, 0), false) := by decide +kernel
/-- V-LIMB-11. -/
theorem test_cmp_lt : after { startAt [(0, 0x30644e72e131a029b85045b68181585d2833e84879b9709143e1f593f0000000), (1, 0x30644e72e131a029b85045b68181585d2833e84879b9709143e1f593f0000001)] with c := true, eq := true } 0x00010005
    (fun t => (t.lt, t.eq, t.c, t.err)) = some (true, false, true, 0) := by decide +kernel
/-- V-LIMB-13: limb 7 decides. -/
theorem test_cmp_gt : after { startAt [(0, 0x100000000000000000000000000000000000000000000000000000000), (1, 0xffffffffffffffffffffffffffffffffffffffffffffffffffffffff)] with lt := true } 0x00010005
    (fun t => (t.lt, t.eq, t.err)) = some (false, false, 0) := by decide +kernel
/-- V-LIMB-17: the destination overlaps both sources. -/
theorem test_mulw_overlap : after (startAt [(0, 0x8000000000000000000000000000000000000000000000000000000000000000), (1, 4)]) 0x00010006
    (fun t => (regErr 0 t, regErr 1 t)) = some ((0, 0), (2, 0)) := by decide +kernel
/-- V-LIMB-15. -/
theorem test_mulw_max : after (startAt [(0, 0xffffffffffffffffffffffffffffffffffffffffffffffffffffffffffffffff)]) 0x00000206
    (fun t => (regErr 2 t, regErr 3 t)) = some ((1, 0), (0xfffffffffffffffffffffffffffffffffffffffffffffffffffffffffffffffe, 0)) := by decide +kernel
/-- V-MONT-8: one subtraction only. -/
theorem test_redc_max : after (startAt [(2, 0xffffffffffffffffffffffffffffffffffffffffffffffffffffffffffffffff), (3, 0xffffffffffffffffffffffffffffffffffffffffffffffffffffffffffffffff)]) 0x00032407 (regErr 4) = some (0xea1406ae7d3aaae337d9f21b5147a2a2f6f10a561eee137823a45ffa924ee6b2, 0) := by decide +kernel
/-- V-MONT-1. -/
theorem test_redc_one : after (startAt [(2, 1)]) 0x00032407 (regErr 4) = some (0x15ebf95182c5551cc8260de4aeb85d5d090ef5a9e111ec87dc5ba0056db1194e, 0) := by decide +kernel
/-- V-ADD-1. -/
theorem test_fchk_ok : after (startAt [(0, 0x30644e72e131a029b85045b68181585d2833e84879b9709143e1f593f0000000)]) 0x00000010 (regErr 0) = some (0x30644e72e131a029b85045b68181585d2833e84879b9709143e1f593f0000000, 0) := by decide +kernel
/-- V-ADD-2. -/
theorem test_fchk_range : after (startAt [(0, 0x30644e72e131a029b85045b68181585d2833e84879b9709143e1f593f0000001)]) 0x00000010 (regErr 0) = some (0x30644e72e131a029b85045b68181585d2833e84879b9709143e1f593f0000001, 2) := by decide +kernel
/-- L1-4b. -/
theorem test_fadd_wrap : after (startAt [(0, 0x30644e72e131a029b85045b68181585d2833e84879b9709143e1f593f0000000), (1, 0x30644e72e131a029b85045b68181585d2833e84879b9709143e1f593f0000000)]) 0x00010211 (regErr 2) = some (0x30644e72e131a029b85045b68181585d2833e84879b9709143e1f593efffffff, 0) := by decide +kernel
/-- V-ADD-6. -/
theorem test_fadd_range : after (startAt [(0, 0x30644e72e131a029b85045b68181585d2833e84879b9709143e1f593f0000000), (1, 0x30644e72e131a029b85045b68181585d2833e84879b9709143e1f593f0000001), (2, 7)]) 0x00010211 (regErr 2) = some (7, 2) := by decide +kernel
/-- L1-4e. -/
theorem test_fsub_wrap : after (startAt [(0, 0), (1, 1)]) 0x00010212 (regErr 2) = some (0x30644e72e131a029b85045b68181585d2833e84879b9709143e1f593f0000000, 0) := by decide +kernel
/-- L1-4g. -/
theorem test_fsub_range : after (startAt [(0, 1), (1, 0x30644e72e131a029b85045b68181585d2833e84879b9709143e1f593f0000001)]) 0x00010212 (regErr 2) = some (0, 2) := by decide +kernel
/-- V-ADD-10. -/
theorem test_fneg_zero : after (startAt [(0, 0), (1, 9)]) 0x00000113 (regErr 1) = some (0, 0) := by decide +kernel
/-- V-ADD-11. -/
theorem test_fneg_one : after (startAt [(0, 1)]) 0x00000113 (regErr 1) = some (0x30644e72e131a029b85045b68181585d2833e84879b9709143e1f593f0000000, 0) := by decide +kernel
/-- V-ADD-15. -/
theorem test_fhalf_odd : after (startAt [(0, 3)]) 0x00000114 (regErr 1) = some (0x183227397098d014dc2822db40c0ac2e9419f4243cdcb848a1f0fac9f8000002, 0) := by decide +kernel
/-- V-ADD-16. -/
theorem test_fhalf_even : after (startAt [(0, 0x30644e72e131a029b85045b68181585d2833e84879b9709143e1f593f0000000)]) 0x00000114 (regErr 1) = some (0x183227397098d014dc2822db40c0ac2e9419f4243cdcb848a1f0fac9f8000000, 0) := by decide +kernel
/-- V-MONT-10. -/
theorem test_mmul : after (startAt [(0, 0x1c14ef83340fbe5eccdd46def0f28c5c6df8ed2b3ec19a53592c68389ffffff6), (1, 0x2a1f6744ce179d8e334bea4e696bd28aa4f563c0de22677d05c29c54effffff1)]) 0x00010218 (regErr 2) = some (0x23da8016bafd9af2ae478ee651564cb821b6df39428b5e68c7a34315efffffe1, 0) := by decide +kernel
/-- V-MONT-12. -/
theorem test_mmul_range : after (startAt [(0, 0x30644e72e131a029b85045b68181585d2833e84879b9709143e1f593f0000001), (1, 1), (2, 8)]) 0x00010218 (regErr 2) = some (8, 2) := by decide +kernel
/-- V-MONT-14. -/
theorem test_msqr : after (startAt [(0, 0x216d0b17f4e44a58c49833d53bb808553fe3ab1e35c59e31bb8e645ae216da7)]) 0x00000119 (regErr 1) = some (0xcf8594b7fcc657c893cc664a19fcfed2a489cbe1cfbb6b85e94d8e1b4bf0040, 0) := by decide +kernel
/-- V-MONT-17. -/
theorem test_tomont : after (startAt [(0, 0x30644e72e131a029b85045b68181585d2833e84879b9709143e1f593f0000000)]) 0x0000011A (regErr 1) = some (0x2259d6b14729c0fa51e1a2470908122ef13771b2da58a367974bc177a0000006, 0) := by decide +kernel
/-- V-MONT-20. -/
theorem test_frommont : after (startAt [(0, 1)]) 0x0000011B (regErr 1) = some (0x15ebf95182c5551cc8260de4aeb85d5d090ef5a9e111ec87dc5ba0056db1194e, 0) := by decide +kernel
/-- V-MONT-23. -/
theorem test_fmul : after (startAt [(0, 0x30644e72e131a029b85045b68181585d2833e84879b9709143e1f593f0000000), (1, 2)]) 0x0001021C (regErr 2) = some (0x30644e72e131a029b85045b68181585d2833e84879b9709143e1f593efffffff, 0) := by decide +kernel
/-- V-MONT-25. -/
theorem test_fmul_range : after (startAt [(0, 2), (1, 0x30644e72e131a029b85045b68181585d2833e84879b9709143e1f593f0000002)]) 0x0001021C (regErr 2) = some (0, 2) := by decide +kernel
/-- V-MONT-28. -/
theorem test_fsqr : after (startAt [(0, 0x100000000000000000000000000000000)]) 0x0000011D (regErr 1) = some (0xe0a77c19a07df2f666ea36f7879462e36fc76959f60cd29ac96341c4ffffffb, 0) := by decide +kernel
/-- V-INV-2. -/
theorem test_finv : after (startAt [(0, 2)]) 0x00000120 (regErr 1) = some (0x183227397098d014dc2822db40c0ac2e9419f4243cdcb848a1f0fac9f8000001, 0) := by decide +kernel
/-- V-INV-8: RANGE before DIVZERO. -/
theorem test_finv_range : after (startAt [(0, 0x30644e72e131a029b85045b68181585d2833e84879b9709143e1f593f0000001)]) 0x00000120 (regErr 1) = some (0, 2) := by decide +kernel
/-- V-INV-10. -/
theorem test_fdiv : after (startAt [(0, 1), (1, 2)]) 0x00010221 (regErr 2) = some (0x183227397098d014dc2822db40c0ac2e9419f4243cdcb848a1f0fac9f8000001, 0) := by decide +kernel
/-- V-INV-12. -/
theorem test_fdiv_zero : after (startAt [(0, 0), (1, 0), (2, 6)]) 0x00010221 (regErr 2) = some (6, 3) := by decide +kernel
/-- By hand from R204: the representative 2 has the inverse R²/2, and R2 is odd. -/
theorem test_minv : after (startAt [(0, 2)]) 0x00000122 (regErr 1) = some (0x193d8f92303ff267a24ce479ea9e6c713e19117d2e8ae53a2fcd6deccf10b6d4, 0) := by decide +kernel
/-- V-INV-19. -/
theorem test_minv_zero : after (startAt [(0, 0), (1, 6)]) 0x00000122 (regErr 1) = some (6, 3) := by decide +kernel
/-- V-P1-13: NOTABLE before RANGE; V-P1-12; V-ERR-3: ILLEGAL beats NOTABLE. -/
theorem test_p1perm_errors : after (startAt [(0, 1), (1, 0x30644e72e131a029b85045b68181585d2833e84879b9709143e1f593f0000001)]) 0x00200030 (regErr 0) = some (1, 4) ∧
    after { startAt [(0, 1), (1, 0x30644e72e131a029b85045b68181585d2833e84879b9709143e1f593f0000001)] with tlocked := true } 0x00200030 (regErr 0) = some (1, 2) ∧
    after (startAt []) 0x00700030 (fun t => (t.err, t.esticky, t.done, t.busy)) = some (1, true, true, false) := by
  decide +kernel
/-- R232. -/
theorem test_p1comp_noTable : after (startAt [(0, 1)]) 0x00100431 (regErr 4) = some (0, 4) := by decide +kernel
/-- V-P2-16, V-P2-17: the table is not looked at. -/
theorem test_p2perm_errors : after (startAt [(0, 1)]) 0x01400032 (regErr 0) = some (1, 4) ∧
    after { startAt [(3, 0xffffffffffffffffffffffffffffffffffffffffffffffffffffffffffffffff)] with tlocked := true } 0x01400032 (regErr 0) = some (0, 2) := by decide +kernel
/-- V-CTL-11: a second TLOCK has no effect. -/
theorem test_tlock_again : after { startAt [] with tlocked := true } 0x0000003F (fun t => (t.tlocked, t.err)) =
    some (true, 0) := by decide +kernel

/-! ### The permutations on the synthetic table SYN of spec/95 (val(TAB[e]) = e + 1), through their field-value forms -/

/-- V-P1-1 to V-P1-4. -/
theorem test_perm1_syn :
    fPerm1 (fun e => e + 1) .t2 [0, 1] =
    [
      0x21d9710b9f1fcbd6407267f8f7b9f8844986c07b1bc0b8705871e41a88120e78,
      0x170c1905f479dc9a9c6bd849b0642077b95f8bc4263fbd71c70f1f68e15fb2e6] ∧
    fPerm1 (fun e => e + 1) .t3 [0, 1, 2] =
    [
      0x042f65c8cffb8410d43476638ae376aa6ce011f6a1d4fb0fd08641083bc1b7ee,
      0x0c5ace2c90a7a5c5f54d5023104881a3f5bddd9cb88a4a2e66ebfd001f3daf03,
      0x148636905153c77b166629e295ad8c9d7e9ba942cf3f994cfd51b8f802b9a618] ∧
    fPerm1 (fun e => e + 1) .t4 [0, 1, 2, 3] =
    [
      0x056e9e2cc6717c1430545c6286af822cf1b693fd6f136213c03494934cf7a5e9,
      0x0a142df3edd181b09d32f29fcdfe9fcdd4840d6b1597565a3e24f8a77be089b4,
      0x0eb9bdbb1531874d0a1188dd154dbd6eb75186d8bc1b4aa0bc155cbbaac96d7f,
      0x135f4d823c918ce976f01f1a5c9cdb0f9a1f0046629f3ee73a05c0cfd9b2514a] ∧
    fPerm1 (fun e => e + 1) .t5 [0, 1, 2, 3, 4] =
    [
      0x0b957cfd532846676d13aaeb7a1232e3f1b22ec80fb038b9e46c7122e96e7e84,
      0x0e0cc7d98ebb8ba4f851fa0f76513f5ff6949a5414582bb4329e02722239dce5,
      0x108412b5ca4ed0e28390493372904bdbfb7705e019001eae80cf93c15b053b46,
      0x12fb5d9205e216200ece98576ecf58580059716c1da811a8cf01251093d099a7,
      0x1572a86e41755b5d9a0ce77b6b0e64d4053bdcf8225004a31d32b65fcc9bf808] := by decide +kernel

/-- V-P2-1 to V-P2-6. -/
theorem test_perm2_syn :
    fPerm2 p2Defaults (fun e => e + 1) .old .t2 [0, 1] =
    [
      0x2db8937735c32c9c08f6a558942381b2c7c3c1fed905b559a4e0311e28fb1af2,
      0x154097481bb0da28462565727861378b77cc176d7a98b5df9a8b65ec47a43ef6] ∧
    fPerm2 p2Defaults (fun e => e + 1) .old .t3 [0, 1, 2] =
    [
      0x124748b6a6666d39106e3f0e5bc4223cf79ea8a9f901cc24ae9502f740e87438,
      0x14f43262fe211de0737e06d2ff79ec9e8e3f2a41d73d2f2742594b1cbf003e39,
      0x0c57fd3c0447ebf40e7cbf9d31cee5d00bd88a05902d50ebcf13996c6ccd1e7c] ∧
    fPerm2 p2Defaults (fun e => e + 1) .old .t4 [0, 1, 2, 3] =
    [
      0x10c4e7dcb81e8a2368d4d167de0c29a94b4bc5f5075917992300e3a85fba8041,
      0x098d7b22ec6ab72533a01f3dc441d6db07387041cdd44792b861b6a2541de4ab,
      0x2a7437ac99f4f6801ee78a2585c0148cdab03065a3809556e1c2b1c64506b784,
      0x2f82f621994998b253a4fc01c5a6ba4fe3a7780429d6d85bcc887482704d6543] ∧
    fPerm2 p2Defaults (fun e => e + 1) .new .t2 [0, 1] =
    [
      0x0c720b91b55377e305345fff137d6dc6da4fb3f27ca0dac2fd16326277805c06,
      0x1b3835a1ebdbe35d91adf244f31c7738ef889d85ba1cbcb974cf0101f87f9eb1] ∧
    fPerm2 p2Defaults (fun e => e + 1) .new .t3 [0, 1, 2] =
    [
      0x14824e88d9514f0987659d8bfd00e2710c5aff11d7d2cfdca43378e5b9966e27,
      0x1811c74e29e4d6e734d2ef3775c9f02e7615a92e3f11e6c572e9a22479aa444a,
      0x2622e375449cd3942853905b6fc5bccd782fab65339b844137b9422c7394f73c] ∧
    fPerm2 p2Defaults (fun e => e + 1) .new .t4 [0, 1, 2, 3] =
    [
      0x18a87a983b5a19ebe70767610b77bfe54a2160e63ea1ee125b59e23a795592a8,
      0x2023dd3cc9fd85db8f090929b1ad736b526dc1a834e05e69438deeb0170b0aee,
      0x2cbf1dfebecf7ae85fce2f26a48c7014a027794f8f5b2934ce72ef3199680561,
      0x2a6e2e6c43044efc6f0b7229567386589c0ad76e5247e1b748d9142da2826ce2] := by decide +kernel

/-- V-P2-7 to V-P2-12: the other value of P2_ARK_ORDER. -/
theorem test_perm2_addThenSbox :
    fPerm2 { p2Defaults with arkOrder := .addThenSbox } (fun e => e + 1) .old .t2 [0, 1] =
    [
      0x2bdbb09c2d4e137933a426bb1646ce8b55ae4f60d0ef7bb55e62c6891e386489,
      0x28da7cf4473a2a558a8d0ba1e0654db1bc7d3717fc3d664431445f527f5fafe6] ∧
    fPerm2 { p2Defaults with arkOrder := .addThenSbox } (fun e => e + 1) .old .t3 [0, 1, 2] =
    [
      0x14a4ad114b648fa029cbf04a20c3fdedfb01a169c174f462a2e0350beeaada73,
      0x0c56abe7260d808b042739083bd92fe6fc45487ad80358b398cb7a2276f0fe4d,
      0x071d9565186fd91639c246b5c40e6579bca0e301bdb7b156967e94004aa8c0c7] ∧
    fPerm2 { p2Defaults with arkOrder := .addThenSbox } (fun e => e + 1) .old .t4 [0, 1, 2, 3] =
    [
      0x2cc7ab16a338767a6c7bf18e10fd0768fce4f6fe48dfb5cbeef05d2948fe8f44,
      0x1594747515f18164c5b4c400238d77313ce33744729e336e099aa20a65d127ae,
      0x20cf889b9b5eaa7ee4ce66e40d91f4e02da2da731d37c4e77445c059aee2a2cc,
      0x0b0dab4d9ce0d109588a10d64a739464cd738167379a3d7279e5fc3596632c86] ∧
    fPerm2 { p2Defaults with arkOrder := .addThenSbox } (fun e => e + 1) .new .t2 [0, 1] =
    [
      0x00b9be0ff4f2717170f85d57581fd58a2d775d0d4dc7285d5211d8ab4554d6df,
      0x081d46fbd407fa111b4bad041a27e33cd189394be7cc40c2bc26322e1e428e17] ∧
    fPerm2 { p2Defaults with arkOrder := .addThenSbox } (fun e => e + 1) .new .t3 [0, 1, 2] =
    [
      0x0dc3338243025a2ff5e0bf6c964ac5717a7801afc8ca85689e113d7a9c84130c,
      0x0ace92d7c590ba42bb2e13178ac2c0133c768d72866b9cd2b69d51dedc6edabb,
      0x24dbc6477d01e30cbed117aa26ddc8a92081aa31e97b55aeca64d366b2cf32e9] ∧
    fPerm2 { p2Defaults with arkOrder := .addThenSbox } (fun e => e + 1) .new .t4 [0, 1, 2, 3] =
    [
      0x1dbc6a70e8bf991cbc3a4b13367fdfa3e2b2c98cd6d38cb77fead55339e4915b,
      0x0ec7c46584e355cbbb70cb8f466d98a8a2eff82a7c9d641e98afbe126b6acb43,
      0x2aca605102a89df91744189d52dcdfee4083f534bb4d128a645561ffb9225ded,
      0x2c63c1f98729c84c47b6ee88f91c745d7606b033953f5ad961094db955901b63] := by decide +kernel


/-! ### The bus: vectors V-BUS-1 to V-BUS-17 and L1-6, one access each -/

/-- The bus answer of the event list's first access. -/
def answers (s : State) (e : Event) : Option BusAnswer :=
  match step { s with events := [e] } with
  | .next t => t.answer
  | .fault _ => none
  | .refused _ => none

/-- V-BUS-1, V-BUS-2, V-BUS-3. -/
theorem test_bus_identification : answers State.reset (.read 0x000 4) = some (.read 0x424E3534 .ok) ∧
    answers State.reset (.read 0x004 4) = some (.read 0x00010000 .ok) ∧
    answers State.reset (.read 0x00C 4) = some (.read 0 .ok) := by decide +kernel
/-- L1-6: limbs 0 and 7 of p in both views; V-BUS-5. -/
theorem test_bus_register_views : answers (startAt [(0, 0x30644e72e131a029b85045b68181585d2833e84879b9709143e1f593f0000001)]) (.read 0x01000 4) = some (.read 0xF0000001 .ok) ∧
    answers (startAt [(0, 0x30644e72e131a029b85045b68181585d2833e84879b9709143e1f593f0000001)]) (.read 0x0101C 4) = some (.read 0x30644E72 .ok) ∧
    answers (startAt [(0, 0x30644e72e131a029b85045b68181585d2833e84879b9709143e1f593f0000001)]) (.read 0x01400 4) = some (.read 0x724E6430 .ok) ∧
    answers (startAt [(0, 0x30644e72e131a029b85045b68181585d2833e84879b9709143e1f593f0000001)]) (.read 0x0141C 4) = some (.read 0x010000F0 .ok) := by decide +kernel
/-- V-BUS-4. -/
theorem test_bus_write_little_endian : ((State.reset.busWrite 0x01000 4 1).busRead 0x0141C 4).answer =
    some (.read 0x01000000 .ok) ∧ (State.reset.busWrite 0x01000 4 1).x = (startAt [(0, 1)]).x := by decide +kernel
/-- V-BUS-6, V-BUS-7. -/
theorem test_bus_registers_while_busy : answers ((startAt [(1, 7)]).accept 0x00000101) (.write 0x01020 4 9) = some (.write .err) ∧
    answers ((startAt [(1, 7)]).accept 0x00000101) (.read 0x01020 4) = some (.read 7 .ok) := by decide +kernel
/-- V-BUS-8, V-BUS-9, V-BUS-10, V-BUS-13. -/
theorem test_bus_errors : answers State.reset (.read 0x01001 4) = some (.read 0 .err) ∧
    answers State.reset (.read 0x014 4) = some (.read 0 .err) ∧ answers State.reset (.write 0x00100 4 5) = some (.write .err) ∧
    answers State.reset (.read 0x22240 4) = some (.read 0 .err) := by decide +kernel
/-- V-BUS-11. -/
theorem test_bus_locked_table : answers { State.reset with tlocked := true } (.write 0x10000 4 1) = some (.write .err) := by
  decide +kernel
/-- V-BUS-12: the last word of the last entry. -/
theorem test_bus_table_write : answers State.reset (.write 0x2223C 4 1) = some (.write .ok) ∧
    (State.reset.busWrite 0x2223C 4 1).tab.readWord 0x2223C = 1 :=
  ⟨rfl, readWord_writeWord_same _ _ _ rfl (by decide) (by decide)⟩
/-- V-BUS-16. -/
theorem test_bus_command : (State.reset.busWrite 0x010 4 0x00001301).statusWord = 1 ∧
    ((State.reset.busWrite 0x010 4 0x00001301).busRead 0x010 4).answer = some (.read 0x00001301 .ok) := by decide +kernel
/-- V-BUS-17. -/
theorem test_bus_ctrl : ((State.reset.busWrite 0x008 4 0xFFFFFFFF).busRead 0x008 4).answer = some (.read 1 .ok) := by
  decide +kernel
/-- V-ERR-7, V-ERR-9. -/
theorem test_bus_status : (({ State.reset with esticky := true, done := true } : State).busWrite 0x00C 4 0x00000020).statusWord = 2 ∧
    ((State.reset.accept 0).busWrite 0x010 4 0x0000003F).statusWord = 0x41 ∧
    ((State.reset.accept 0).busWrite 0x010 4 0x0000003F).cmdReg = 0 := by decide +kernel

/-! ### A table memory with every byte the same -/

/-- The table memory with every byte `b`. -/
@[irreducible] def filled (b : Byte) : TableMem :=
  State.reset.tab.writeBytes Config.tabBase (List.replicate (Config.tabEnd - Config.tabBase) b)

theorem filled_fits (b : Byte) :
    Config.tabBase + (List.replicate (Config.tabEnd - Config.tabBase) b).length ≤ Config.tabEnd := by
  rw [List.length_replicate]; decide

theorem filled_wf (b : Byte) : (filled b).wf = true := by
  unfold filled
  exact wf_writeBytes _ State.reset.tab _ reset_tab_wf (Nat.le_refl _) (filled_fits b)

theorem readByte_filled (b : Byte) (a : Nat) (h1 : Config.tabBase ≤ a) (h2 : a < Config.tabEnd) :
    (filled b).readByte a = b := by
  unfold filled
  rw [readByte_writeBytes _ State.reset.tab _ a reset_tab_wf (Nat.le_refl _) (filled_fits b), if_pos h1,
    List.getElem?_replicate, if_pos (Nat.sub_lt_sub_right h1 h2), Option.getD_some]

theorem filled_entry (b : Byte) (e : Nat) (he : e < Config.ntab) :
    ((filled b).entry e).toNat = bytesVal (List.replicate 32 b) := by
  have h1 : Config.tabEnd = Config.tabBase + 32 * Config.ntab := by decide
  rw [entry_toNat]
  congr 1
  apply List.ext_getElem?
  intro i
  by_cases hi : i < 32
  · rw [readBytes_getElem? _ _ _ _ hi, readByte_filled b _ (by omega) (by omega), List.getElem?_replicate, if_pos hi]
  · rw [List.getElem?_eq_none (by rw [readBytes_length]; omega),
      List.getElem?_eq_none (by rw [List.length_replicate]; omega)]

/-- The zero table Z of spec/95 is canonical. -/
theorem zeroTable_canonical : TablesCanonical (filled 0).entry := fun e he => by
  rw [Canonical, filled_entry 0 e he]; decide

theorem onesTable_not_canonical : ¬ Canonical ((filled 255).entry 2321) := by
  rw [Canonical, filled_entry 255 2321 (by decide)]; decide

theorem tlock_accepts (m : TableMem) (h : m.allCanonical = true) : exec .tlock { State.reset with tab := m } =
    .next { State.reset with tab := m, tlocked := true, done := true } := by
  have hr : tlockRun { State.reset with tab := m } = .ok { lock := true } := by
    unfold tlockRun
    rw [if_neg (by decide : ¬ (State.reset.tlocked = true))]
    exact if_pos h
  show Host.Outcome.next (State.settle { State.reset with tab := m } (tlockRun { State.reset with tab := m })) = _
  rw [hr]
  rfl

theorem zeroTable_allCanonical : (filled 0).allCanonical = true := by
  unfold TableMem.allCanonical
  rw [List.all_eq_true]
  intro e he
  have := filled_entry 0 e (List.mem_range.1 he)
  rw [show (filled 0).entry e = 0 from BitVec.eq_of_toNat_eq (this.trans (by decide))]
  decide +kernel

/-- V-CTL-12: TLOCK accepts the zero table. -/
theorem test_tlock_zero_table : exec .tlock { State.reset with tab := filled 0 } =
    .next { State.reset with tab := filled 0, tlocked := true, done := true } :=
  tlock_accepts (filled 0) zeroTable_allCanonical

/-! ### Witnesses: for every statement with hypotheses, states and operands that meet them -/

/-- A command in flight with the listed registers. -/
def flying (w : Limb) (l : List (Nat × Nat)) : State := (startAt l).accept w

theorem witness_DecodeOfEncode :
    (Instr.mulw 14 0 0).wellFormed = true ∧ (Instr.p1perm 11 12 4 .montgomery).wellFormed = true ∧
    (Instr.p1comp 15 12 4 .canonical).wellFormed = true ∧ (Instr.p2perm 12 12 4 .canonical .new).wellFormed = true :=
  by decide

theorem witness_EncodeOfDecode :
    decode 0x00000E06 = .ok (.mulw 14 0 0) :=
  rfl

/-- Each of the four clauses of R94 is met by a word. -/
theorem witness_IllegalWordsAreThoseOfTheFourClauses :
    (opField 0x00000008).toNat = 0x08 ∧ (opField 0x0000003E).toNat = 0x3E ∧
    rsvField 0x04000003 ≠ 0 ∧ (∃ row ∈ opRows, row.op = opField 0x00000100 ∧ 0x00000100 &&& row.mask ≠ row.mtch) ∧
    (∃ row ∈ opRows, row.op = opField 0x00000F06 ∧ (row.build 0x00000F06).wellFormed = false) :=
  by decide +kernel

theorem witness_StepRunsTheDecodedCommand :
    ((flying 0x00001301 []).rstN = true ∧ (flying 0x00001301 []).busy = true ∧
      decode (flying 0x00001301 []).cmdReg = .ok (.mov 3 1) ∧ (flying 0x00001301 []).events = []) ∧
    ({ flying 0x00001301 [] with events := [.engine, .resetLow] } : State).events = .engine :: [.resetLow] ∧
    decode (tableWord 32 0x00001301) = .ok (.mov 3 1) ∧
    ({ State.reset with events := [.read 0x000 4] } : State).events = .read 0x000 4 :: [] ∧
    ({ State.reset with events := [.write 0x010 4 1] } : State).events = .write 0x010 4 1 :: [] :=
  ⟨⟨rfl, rfl, rfl, rfl⟩, rfl, rfl, rfl, rfl⟩

theorem witness_EveryWordExecutesOrIsIllegal :
    State.reset.busy = false ∧ (flying 0x00000008 []).rstN = true ∧ (flying 0x00000008 []).busy = true :=
  ⟨rfl, rfl, rfl⟩

/-- Every code, and none, each at the boundary of its condition. -/
theorem witness_FirstErrorIsReportedAndNothingIsCommitted :
    (flying 0 []).errorCode (.mulw 15 0 0) = 1 ∧
    (flying 0 []).errorCode (.mulw 14 0 0) = 0 ∧ (flying 0 []).errorCode (.p1perm 0 0 2 .canonical) = 4 ∧
    (flying 0 [(0, 0x30644e72e131a029b85045b68181585d2833e84879b9709143e1f593f0000001)]).errorCode (.finv 1 0) = 2 ∧ (flying 0 [(0, 0x30644e72e131a029b85045b68181585d2833e84879b9709143e1f593f0000000)]).errorCode (.finv 1 0) = 0 ∧
    (flying 0 []).errorCode (.finv 1 0) = 3 :=
  by decide +kernel

theorem witness_CompletionDependsOnSnapshotTablesAndLock :
    (flying 0 [(0, 5)]).snap = ({ flying 0 [(0, 5)] with x := zeroRegs, err := 3 } : State).snap ∧
    (flying 0 [(0, 5)]).tab = ({ flying 0 [(0, 5)] with x := zeroRegs, err := 3 } : State).tab ∧
    (flying 0 [(0, 5)]).tlocked = ({ flying 0 [(0, 5)] with x := zeroRegs, err := 3 } : State).tlocked ∧
    (flying 0 [(0, 5)]).params = ({ flying 0 [(0, 5)] with x := zeroRegs, err := 3 } : State).params :=
  ⟨rfl, rfl, rfl, rfl⟩

theorem witness_ACommandInFlightCompletes :
    (flying 0 []).rstN = true ∧ (flying 0 []).busy = true ∧ (flying 0 []).events = [] ∧
    ({ flying 0 [] with events := [.engine] } : State).events = .engine :: [] :=
  ⟨rfl, rfl, rfl, rfl⟩

theorem witness_NoStepFaultsAndOnlyAHostAccessInResetIsRefused :
    ({ State.reset with rstN := false, events := [.read 0x000 4] } : State).rstN = false ∧
    hostMovesNext { State.reset with rstN := false, events := [.read 0x000 4] } = true :=
  ⟨rfl, rfl⟩

/-- A machine with locked tables `m` and a command in flight, with operands in the last legal register range. -/
def locked (m : TableMem) : State := { flying 0 [(12, 0x30644e72e131a029b85045b68181585d2833e84879b9709143e1f593f0000000), (13, 1)] with tlocked := true, tab := m }

theorem locked_operands (m : TableMem) : AllCanonical ((locked m).operandRange 12 (4 : Fin 8).val) := by
  have h : ∀ s : State, s.snap = (flying 0 [(12, 0x30644e72e131a029b85045b68181585d2833e84879b9709143e1f593f0000000), (13, 1)]).snap → AllCanonical (s.operandRange 12 (4 : Fin 8).val) := by
    intro s hs
    unfold State.operandRange
    rw [hs]
    exact (Laws.all_isCanonical_iff _).1 (by decide +kernel)
  exact h (locked m) rfl

theorem locked_inv (m : TableMem) (hw : m.wf = true) (hc : TablesCanonical m.entry) : Machine.Inv (locked m) :=
  ⟨hw, fun _ => rfl, fun _ => rfl, fun _ => hc, (by decide : (0 : BitVec 4).toNat ≤ 4),
    (by decide : ¬ (false = true ∧ false = true)), fun h => Bool.noConfusion (show true = false from h)⟩

theorem locked_steps (m : TableMem) : (∃ t, step (locked m) = .next t) ∧ ∃ t, exec .nop (locked m) = .next t :=
  have h : step (locked m) = exec .nop (locked m) :=
    (Laws.step_nil rfl).trans ((Laws.engineTurn_busy rfl rfl).trans (Laws.completeInFlight_ok
      ((congrArg decode (show (locked m).cmdReg = 0 from rfl)).trans (rfl : decode 0 = .ok .nop))))
  ⟨⟨_, h.trans rfl⟩, _, rfl⟩

theorem heldInReset_inv : Machine.Inv { State.reset with rstN := false, tab := { draw := 3, cells := [] }, events := [.resetHigh] } :=
  ⟨rfl, by decide, by decide, by decide, by decide, by decide, fun _ => rfl⟩

/-- A locked machine with a command in flight, and a machine held in reset, both within the invariant and with a next state. -/
theorem witness_EveryStepKeepsTheInvariant :
    (Machine.Inv (locked (filled 0)) ∧ ∃ t, step (locked (filled 0)) = .next t) ∧
    (Machine.Inv { State.reset with rstN := false, tab := { draw := 3, cells := [] }, events := [.resetHigh] } ∧
      ∃ t, step { State.reset with rstN := false, tab := { draw := 3, cells := [] }, events := [.resetHigh] } = .next t) :=
  ⟨⟨locked_inv _ (filled_wf 0) zeroTable_canonical, (locked_steps _).1⟩, heldInReset_inv, _, rfl⟩

theorem witness_CommandsWriteOnlyTheirDestinations :
    (∃ t, exec (.mov 3 1) (flying 0 []) = .next t) ∧ 4 ∉ (Instr.mov 3 1).destinations :=
  ⟨⟨_, rfl⟩, by decide⟩

theorem witness_CommandsWriteOnlyTheirFlags :
    (∃ t, exec (.mov 3 1) (flying 0 []) = .next t) ∧ (Instr.mov 3 1).writesCarry = false ∧
    (Instr.mov 3 1).writesCompare = false ∧ (Instr.mov 3 1).locks = false ∧
    (∃ t, exec (.mov 3 1) { flying 0 [] with tlocked := true } = .next t) ∧
    (∃ t, exec (.mulw 15 0 0) (flying 0 []) = .next t ∧ t.err ≠ 0) :=
  ⟨⟨_, rfl⟩, rfl, rfl, rfl, ⟨_, rfl⟩, _, rfl, by decide⟩

theorem witness_CommandsLeaveTheRestUnchanged :
    ∃ t, exec (.mov 3 1) (flying 0 []) = .next t :=
  ⟨_, rfl⟩

theorem witness_NopResult :
    opField 0x00000100 = 0x00 ∧ (0x00000100 : Limb) ≠ 0 ∧ ∃ t, exec .nop State.reset = .next t :=
  ⟨rfl, by decide, _, rfl⟩

theorem witness_MovResult :
    (flying 0 [(1, 9)]).snap.x = (flying 0 [(1, 9)]).x ∧ (1 : Reg) = 1 :=
  ⟨rfl, rfl⟩

theorem witness_LdkResult :
    wOfKonst .zero = 0 ∧ wOfKonst .one = 1 ∧ wOfKonst .r1 = 2 ∧ wOfKonst .r2 = 3 ∧ wOfKonst .r3 = 4 ∧ wOfKonst .p = 5 ∧
    wOfKonst .q = 6 ∧ wOfKonst .half = 7 :=
  by decide

theorem witness_TlockResult : opField 0x0000013F = 0x3F ∧ ({ State.reset with tlocked := true } : State).tlocked = true ∧
    (State.reset.tlocked = false ∧ ∀ e < 2322, Canonical ((filled 0).entry e)) ∧
    (State.reset.tlocked = false ∧ ∃ e < 2322, ¬ Canonical ((filled 255).entry e)) :=
  ⟨rfl, rfl, ⟨rfl, zeroTable_canonical⟩, rfl, 2321, by decide, onesTable_not_canonical⟩

theorem witness_AddcResult :
    (1 = if true = true ∧ ({ flying 0 [] with snap := { x := zeroRegs, c := true } } : State).snap.c = true then 1 else 0) ∧
    (0 = if true = true ∧ (flying 0 []).snap.c = true then 1 else 0) ∧ (0 = if false = true ∧ (flying 0 []).snap.c = true then 1 else 0) :=
  by decide

theorem witness_SubbResult :
    (1 = if true = true ∧ ({ flying 0 [] with snap := { x := zeroRegs, c := true } } : State).snap.c = true then 1 else 0) ∧
    (0 = if true = true ∧ (flying 0 []).snap.c = true then 1 else 0) ∧ (0 = if false = true ∧ (flying 0 []).snap.c = true then 1 else 0) :=
  by decide

theorem witness_MulwResult :
    (14 : Reg).val ≤ 14 ∧ (15 : Reg).val = 15 :=
  by decide

theorem witness_RedcResult : 0x73f82f1d0d8341b2e39a9828990623916586864b4c6911b3c2e1f593efffffff < 2 ^ 256 ∧ (1 + 0x73f82f1d0d8341b2e39a9828990623916586864b4c6911b3c2e1f593efffffff * Config.p) % 2 ^ 256 = 0 ∧ IsRedc 1 rInv ∧ 1 < Config.p * 2 ^ 256 :=
  ⟨by decide, by decide +kernel, ⟨0x73f82f1d0d8341b2e39a9828990623916586864b4c6911b3c2e1f593efffffff, by decide +kernel⟩, by decide⟩

theorem witness_MmulResult :
    (Canonical ((flying 0 [(0, 0x30644e72e131a029b85045b68181585d2833e84879b9709143e1f593f0000000)]).operand 0) ∧ Canonical ((flying 0 [(0, 0x30644e72e131a029b85045b68181585d2833e84879b9709143e1f593f0000000)]).operand 1)) ∧
    ¬ (Canonical ((flying 0 [(1, 0x30644e72e131a029b85045b68181585d2833e84879b9709143e1f593f0000001)]).operand 0) ∧ Canonical ((flying 0 [(1, 0x30644e72e131a029b85045b68181585d2833e84879b9709143e1f593f0000001)]).operand 1)) :=
  by decide +kernel

theorem witness_FmulResult :
    (Canonical ((flying 0 [(0, 0x30644e72e131a029b85045b68181585d2833e84879b9709143e1f593f0000000)]).operand 0) ∧ Canonical ((flying 0 [(0, 0x30644e72e131a029b85045b68181585d2833e84879b9709143e1f593f0000000)]).operand 1)) ∧
    ¬ (Canonical ((flying 0 [(1, 0x30644e72e131a029b85045b68181585d2833e84879b9709143e1f593f0000001)]).operand 0) ∧ Canonical ((flying 0 [(1, 0x30644e72e131a029b85045b68181585d2833e84879b9709143e1f593f0000001)]).operand 1)) :=
  by decide +kernel

theorem witness_FaddResult :
    (Canonical ((flying 0 [(0, 0x30644e72e131a029b85045b68181585d2833e84879b9709143e1f593f0000000)]).operand 0) ∧ Canonical ((flying 0 [(0, 0x30644e72e131a029b85045b68181585d2833e84879b9709143e1f593f0000000)]).operand 1)) ∧
    ¬ (Canonical ((flying 0 [(1, 0x30644e72e131a029b85045b68181585d2833e84879b9709143e1f593f0000001)]).operand 0) ∧ Canonical ((flying 0 [(1, 0x30644e72e131a029b85045b68181585d2833e84879b9709143e1f593f0000001)]).operand 1)) :=
  by decide +kernel

theorem witness_FsubResult :
    (Canonical ((flying 0 [(0, 0x30644e72e131a029b85045b68181585d2833e84879b9709143e1f593f0000000)]).operand 0) ∧ Canonical ((flying 0 [(0, 0x30644e72e131a029b85045b68181585d2833e84879b9709143e1f593f0000000)]).operand 1)) ∧
    ¬ (Canonical ((flying 0 [(1, 0x30644e72e131a029b85045b68181585d2833e84879b9709143e1f593f0000001)]).operand 0) ∧ Canonical ((flying 0 [(1, 0x30644e72e131a029b85045b68181585d2833e84879b9709143e1f593f0000001)]).operand 1)) :=
  by decide +kernel

theorem witness_MsqrResult :
    Canonical ((flying 0 [(0, 0x30644e72e131a029b85045b68181585d2833e84879b9709143e1f593f0000000)]).operand 0) ∧
    ¬ Canonical ((flying 0 [(0, 0x30644e72e131a029b85045b68181585d2833e84879b9709143e1f593f0000001)]).operand 0) :=
  by decide +kernel

theorem witness_TomontResult :
    Canonical ((flying 0 [(0, 0x30644e72e131a029b85045b68181585d2833e84879b9709143e1f593f0000000)]).operand 0) ∧
    ¬ Canonical ((flying 0 [(0, 0x30644e72e131a029b85045b68181585d2833e84879b9709143e1f593f0000001)]).operand 0) :=
  by decide +kernel

theorem witness_FrommontResult :
    Canonical ((flying 0 [(0, 0x30644e72e131a029b85045b68181585d2833e84879b9709143e1f593f0000000)]).operand 0) ∧
    ¬ Canonical ((flying 0 [(0, 0x30644e72e131a029b85045b68181585d2833e84879b9709143e1f593f0000001)]).operand 0) ∧
    1 < Config.p ∧ ((flying 0 [(0, 0xe0a77c19a07df2f666ea36f7879462e36fc76959f60cd29ac96341c4ffffffb)]).operand 0).toNat = 1 * 2 ^ 256 % Config.p :=
  by decide +kernel

theorem witness_FsqrResult :
    Canonical ((flying 0 [(0, 0x30644e72e131a029b85045b68181585d2833e84879b9709143e1f593f0000000)]).operand 0) ∧
    ¬ Canonical ((flying 0 [(0, 0x30644e72e131a029b85045b68181585d2833e84879b9709143e1f593f0000001)]).operand 0) :=
  by decide +kernel

theorem witness_FnegResult :
    Canonical ((flying 0 [(0, 0x30644e72e131a029b85045b68181585d2833e84879b9709143e1f593f0000000)]).operand 0) ∧
    ¬ Canonical ((flying 0 [(0, 0x30644e72e131a029b85045b68181585d2833e84879b9709143e1f593f0000001)]).operand 0) :=
  by decide +kernel

theorem witness_FhalfResult :
    Canonical ((flying 0 [(0, 0x30644e72e131a029b85045b68181585d2833e84879b9709143e1f593f0000000)]).operand 0) ∧
    ¬ Canonical ((flying 0 [(0, 0x30644e72e131a029b85045b68181585d2833e84879b9709143e1f593f0000001)]).operand 0) :=
  by decide +kernel

theorem witness_FchkResult :
    ((flying 0 [(0, 0x30644e72e131a029b85045b68181585d2833e84879b9709143e1f593f0000000)]).operand 0).toNat < Config.p ∧
    Config.p ≤ ((flying 0 [(0, 0x30644e72e131a029b85045b68181585d2833e84879b9709143e1f593f0000001)]).operand 0).toNat :=
  by decide +kernel

theorem witness_FinvResult :
    (Canonical ((flying 0 [(0, 0x30644e72e131a029b85045b68181585d2833e84879b9709143e1f593f0000000)]).operand 0) ∧ (flying 0 [(0, 0x30644e72e131a029b85045b68181585d2833e84879b9709143e1f593f0000000)]).operand 0 ≠ 0) ∧
    ¬ Canonical ((flying 0 [(0, 0x30644e72e131a029b85045b68181585d2833e84879b9709143e1f593f0000001)]).operand 0) ∧ (flying 0 []).operand 0 = 0 :=
  by decide +kernel

theorem witness_MinvResult :
    (Canonical ((flying 0 [(0, 0x30644e72e131a029b85045b68181585d2833e84879b9709143e1f593f0000000)]).operand 0) ∧ (flying 0 [(0, 0x30644e72e131a029b85045b68181585d2833e84879b9709143e1f593f0000000)]).operand 0 ≠ 0) ∧
    ¬ Canonical ((flying 0 [(0, 0x30644e72e131a029b85045b68181585d2833e84879b9709143e1f593f0000001)]).operand 0) ∧ (flying 0 []).operand 0 = 0 ∧
    ((flying 0 [(0, 0xe0a77c19a07df2f666ea36f7879462e36fc76959f60cd29ac96341c4ffffffb)]).operand 0).toNat = 1 * 2 ^ 256 % Config.p :=
  by decide +kernel

theorem witness_FdivResult :
    (Canonical ((flying 0 [(1, 0x30644e72e131a029b85045b68181585d2833e84879b9709143e1f593f0000000)]).operand 0) ∧ Canonical ((flying 0 [(1, 0x30644e72e131a029b85045b68181585d2833e84879b9709143e1f593f0000000)]).operand 1) ∧
      (flying 0 [(1, 0x30644e72e131a029b85045b68181585d2833e84879b9709143e1f593f0000000)]).operand 1 ≠ 0) ∧
    ¬ (Canonical ((flying 0 [(0, 0x30644e72e131a029b85045b68181585d2833e84879b9709143e1f593f0000001)]).operand 0) ∧ Canonical ((flying 0 [(0, 0x30644e72e131a029b85045b68181585d2833e84879b9709143e1f593f0000001)]).operand 1)) ∧
    (Canonical ((flying 0 [(0, 0x30644e72e131a029b85045b68181585d2833e84879b9709143e1f593f0000000)]).operand 0) ∧ (flying 0 [(0, 0x30644e72e131a029b85045b68181585d2833e84879b9709143e1f593f0000000)]).operand 1 = 0) :=
  by decide +kernel

theorem p1permResult_hypotheses (m : TableMem) (hc : TablesCanonical m.entry) : (Instr.p1perm 12 12 4 .montgomery).wellFormed = true ∧
    p1WidthOf (4 : Fin 8).val = some .t4 ∧ (locked m).tlocked = true ∧ TablesCanonical (locked m).tab.entry ∧
    AllCanonical ((locked m).operandRange 12 (4 : Fin 8).val) :=
  ⟨by decide, by decide, rfl, hc, locked_operands m⟩

theorem witness_P1permResult : (Instr.p1perm 12 12 4 .montgomery).wellFormed = true ∧ p1WidthOf (4 : Fin 8).val = some .t4 ∧
    (locked (filled 0)).tlocked = true ∧ TablesCanonical (locked (filled 0)).tab.entry ∧
    AllCanonical ((locked (filled 0)).operandRange 12 (4 : Fin 8).val) :=
  p1permResult_hypotheses (filled 0) zeroTable_canonical

theorem p1compResult_hypotheses (m : TableMem) (hc : TablesCanonical m.entry) : (Instr.p1comp 15 12 4 .canonical).wellFormed = true ∧
    p1WidthOf ((4 : Fin 8).val + 1) = some .t5 ∧ (locked m).tlocked = true ∧ TablesCanonical (locked m).tab.entry ∧
    AllCanonical ((locked m).operandRange 12 (4 : Fin 8).val) :=
  ⟨by decide, by decide, rfl, hc, locked_operands m⟩

theorem witness_P1compResult : (Instr.p1comp 15 12 4 .canonical).wellFormed = true ∧ p1WidthOf ((4 : Fin 8).val + 1) = some .t5 ∧
    (locked (filled 0)).tlocked = true ∧ TablesCanonical (locked (filled 0)).tab.entry ∧
    AllCanonical ((locked (filled 0)).operandRange 12 (4 : Fin 8).val) :=
  p1compResult_hypotheses (filled 0) zeroTable_canonical

/-- A step from parameters that are not the defaults. -/
theorem witness_P2permResult_parameters :
    ∃ t, step { State.reset with params := { p2Defaults with arkOrder := .addThenSbox } } = .next t ∧
      t.params.arkOrder = .addThenSbox :=
  ⟨_, rfl, rfl⟩

theorem p2permResult_hypotheses (m : TableMem) (hc : TablesCanonical m.entry) : (Instr.p2perm 12 12 4 .montgomery .new).wellFormed = true ∧
    p2WidthOf (4 : Fin 8).val = some .t4 ∧ (locked m).tlocked = true ∧ TablesCanonical (locked m).tab.entry ∧
    AllCanonical ((locked m).operandRange 12 (4 : Fin 8).val) :=
  ⟨by decide, by decide, rfl, hc, locked_operands m⟩

theorem witness_P2permResult : (Instr.p2perm 12 12 4 .montgomery .new).wellFormed = true ∧ p2WidthOf (4 : Fin 8).val = some .t4 ∧
    (locked (filled 0)).tlocked = true ∧ TablesCanonical (locked (filled 0)).tab.entry ∧
    AllCanonical ((locked (filled 0)).operandRange 12 (4 : Fin 8).val) :=
  p2permResult_hypotheses (filled 0) zeroTable_canonical

theorem locked_tlocked (m : TableMem) : (locked m).tlocked = true := rfl

theorem witness_PermutationsNeedLockedTables : ((Instr.p1comp 4 0 1 .canonical).usesTables = true ∧
      (Instr.p1comp 4 0 1 .canonical).wellFormed = true ∧ State.reset.tlocked = false) ∧
    ((locked (filled 0)).tlocked = true ∧ ∃ t, exec .nop (locked (filled 0)) = .next t) ∧ Machine.Inv (locked (filled 0)) :=
  ⟨by decide, ⟨locked_tlocked _, (locked_steps _).2⟩, locked_inv _ (filled_wf 0) zeroTable_canonical⟩

theorem witness_MontgomeryAgreesWithCanonicalProduct :
    Canonical (BitVec.ofNat 256 0x30644e72e131a029b85045b68181585d2833e84879b9709143e1f593f0000000) ∧ Canonical 2 :=
  by decide +kernel

theorem witness_AddAndHalfLawsHoldInBothDomains :
    Canonical (BitVec.ofNat 256 0x30644e72e131a029b85045b68181585d2833e84879b9709143e1f593f0000000) ∧ Canonical 1 ∧ Canonical 0 :=
  by decide +kernel

theorem witness_IdVersionAndCtrlAccesses :
    ({ State.reset with ie := true } : State).ie = true :=
  rfl

theorem witness_CmdWriteIsAcceptedOrDropped :
    State.reset.busy = false ∧ (flying 0 []).busy = true :=
  ⟨rfl, rfl⟩

theorem witness_RegisterViewLittleEndian :
    (0x011FC : BusAddr).toNat = 0x01000 + 32 * (15 : Reg).val + 4 * (7 : Fin 8).val ∧ (flying 0 []).busy = true ∧
    State.reset.busy = false ∧ (6 : Fin 8) ≠ 7 :=
  by decide

theorem witness_RegisterViewBigEndian :
    (0 : Fin 8).val + (7 : Fin 8).val = 7 ∧
    (0x015FC : BusAddr).toNat = 0x01400 + 32 * (15 : Reg).val + 4 * (7 : Fin 8).val ∧ (flying 0 []).busy = true ∧
    State.reset.busy = false :=
  by decide

theorem witness_TableViewReadsAndWrites :
    2321 < 2322 ∧ (0x2223C : BusAddr).toNat = 0x10000 + 32 * 2321 + 4 * (7 : Fin 8).val ∧
    (locked State.reset.tab).tlocked = true ∧ (flying 0 []).busy = true ∧ (State.reset.tlocked = false ∧ State.reset.busy = false ∧
    State.reset.tab.wf = true) :=
  ⟨by decide, by decide, rfl, rfl, rfl, rfl, rfl⟩

/-- Each clause at the ends of its range. -/
theorem witness_ReservedMisalignedAndNarrowAccessesAnswerErr :
    2 ≠ 4 ∧ (0x01001 : BusAddr).toNat % 4 ≠ 0 ∧
    (0x014 ≤ (0x014 : BusAddr).toNat ∧ (0x00FFC : BusAddr).toNat < 0x1000) ∧
    (0x1200 ≤ (0x01200 : BusAddr).toNat ∧ (0x013FC : BusAddr).toNat < 0x1400) ∧
    (0x1600 ≤ (0x01600 : BusAddr).toNat ∧ (0x0FFFC : BusAddr).toNat < 0x10000) ∧
    0x22240 ≤ (0x22240 : BusAddr).toNat ∧ 0x22240 ≤ (0x3FFFC : BusAddr).toNat :=
  by decide

theorem witness_AccessesWhileBusy :
    (flying 0 []).busy = true ∧ ((flying 0 []).busWrite 0x01000 4 1).answer = some (.write .err) :=
  ⟨rfl, rfl⟩

theorem witness_RegisterRoundTripThroughBothViews :
    State.reset.busy = false ∧ (∀ i : Fin 8, i ∈ [3, 0, 7, 1, 6, 2, 5, 4]) ∧
    (0 : Fin 8).val + (7 : Fin 8).val = 7 :=
  by decide

theorem witness_InterruptFollowsDoneUnderEnable :
    (∃ t, exec .nop State.reset = .next t) ∧ (0x00000002 : Limb).getLsbD 1 = true ∧ State.reset.busy = false ∧
    (0x00000002 : Limb).getLsbD 0 = false ∧ (0x00000001 : Limb).getLsbD 0 = true ∧ (flying 0 []).busy = true :=
  ⟨⟨_, rfl⟩, rfl, rfl, rfl, rfl, rfl⟩

theorem witness_StickyBitsStayUntilCleared : ∃ t,
    step { State.reset with overrun := true, esticky := true, tlocked := true, events := [.write 0x00C 4 0x60] } = .next t ∧
      t.overrun = false ∧ t.esticky = false ∧ t.tlocked = true := ⟨_, rfl, rfl, rfl, rfl⟩

/-- A step that changes the table memory: a host write of a word other than the one that stands there. -/
theorem witness_LockedTablesNeverChange : (∃ w t, step { State.reset with events := [.write 0x10000 4 w] } = .next t ∧
      t.tab ≠ State.reset.tab) ∧ (0x10000 : BusAddr).toNat = 0x10000 + 32 * 0 + 4 * (0 : Fin 8).val ∧
    (locked State.reset.tab).tlocked = true := by
  refine ⟨⟨~~~(State.reset.tab.readWord 0x10000), _, rfl, fun h => ?_⟩, rfl, rfl⟩
  have h2 := readWord_writeWord_same State.reset.tab 0x10000 (~~~(State.reset.tab.readWord 0x10000)) rfl (by decide)
    (by decide)
  rw [show State.reset.tab.writeWord 0x10000 (~~~(State.reset.tab.readWord 0x10000)) = State.reset.tab from h] at h2
  have h3 := congrArg (fun w : Limb => w.getLsbD 0) h2
  rw [BitVec.getLsbD_not] at h3
  cases hb : (State.reset.tab.readWord 0x10000).getLsbD 0 <;> simp at h3

/-- A register, C and LT each change in some step. -/
theorem witness_WhoWritesTheRegistersAndFlags :
    after (startAt [(1, 9)]) 0x00001301 (regErr 3) = some (9, 0) ∧
    after (startAt [(1, 1)]) 0x00010204 (fun t => t.c) = some true ∧
    after (startAt [(1, 1)]) 0x00010005 (fun t => t.lt) = some true := by decide +kernel

/-- A command in flight whose turn is next, by the event list and because no event is left. -/
theorem witness_engineCompletesNext : engineCompletesNext { flying 0x00001301 [] with events := [.engine] } ∧
    engineCompletesNext { flying 0x00001301 [] with events := [] } :=
  ⟨⟨rfl, rfl, .inr ⟨[], rfl⟩⟩, rfl, rfl, .inl rfl⟩

theorem witness_ResetStateValues :
    ({ State.reset with events := [.resetLow] } : State).rstN = true ∧
    ({ State.reset with events := [.resetLow] } : State).events = .resetLow :: [] ∧
    ∃ t, step { State.reset with events := [.resetLow] } = .next t :=
  ⟨rfl, rfl, _, rfl⟩

theorem witness_ResetAbandonsTheCommandAndClears :
    ({ flying 0 [] with events := [.resetLow] } : State).rstN = true ∧
    ({ State.reset with rstN := false, events := [.engine] } : State).rstN = false ∧
    ({ State.reset with rstN := false, events := [.resetHigh] } : State).events = .resetHigh :: [] ∧
    (State.reset.busy = false ∧ State.reset.events = []) :=
  ⟨rfl, rfl, rfl, rfl, rfl⟩

end Sys2Proof.Tests
end

/-! SUPPORT. Proofs about the Poseidon2 command (spec/45_poseidon2.md) and the parameters of spec/00_scope.md R7. -/

namespace Sys2Proof.Proofs

open Sys2Proof.Machine Sys2Proof.Laws

/-! ### The parameters (R7) -/

theorem writeEffect_params {s t : State} {a : BusAddr} {n : Nat} {w : Limb} (h : WriteEffect s a n w t) :
    t.params = s.params := by
  cases h <;> rfl

theorem stepEffect_params {s t : State} {rest : List Event} (h : StepEffect s rest t) : t.params = s.params := by
  cases h with
  | write _ _ _ _ _ _ _ ht => rw [reply_params, writeEffect_params ht]
  | idle | ended | failed | read | reset | release => rfl

theorem step_params {s t : State} (h : step s = .next t) : t.params = s.params := stepEffect_params (step_cases h)

/-! ### A range of results (R32) -/

/-- Staged writes of a range that fits the register file: the range holds the values, every other register is as
before. -/
theorem complete_stageRange (s : State) (rd : Reg) (vs : List Felt) (hfit : rd.val + vs.length ≤ 16) :
    ∃ x, complete s (.ok (stageRange rd vs)) = .next (s.wrote x) ∧
      (∀ k, (h : k < vs.length) → regAt x (rd.val + k) = vs[k]) ∧
      (∀ n, n < rd.val ∨ rd.val + vs.length ≤ n → regAt x n = regAt s.x n) := by
  refine ⟨writeRegs s.x (rangeWrites rd.val vs), by rw [complete_ok, finish_range], fun k h => ?_, fun n hn => ?_⟩
  · exact regAt_writeRegs_range vs s.x rd.val k h (by omega)
  · refine regAt_writeRegs_other _ _ _ fun e he => ?_
    have := List.mem_range'_1.1 (rangeWrites_mem _ _ he)
    omega

/-! ### A permutation between the domain conversions (R229) -/

/-- A datapath `f` that computes `g` on Montgomery representatives computes `g` on the field values of the command's
domain; `k` is what the command does with the results. -/
theorem bind_permute_in_domain {f : List Felt → Except CmdError (List Felt)} {g : List Nat → List Nat} (d : Domain)
    (ins : List Felt) (hc : AllCanonical ins)
    (hf : ∀ st : List Felt, st.length = ins.length →
      ∃ out, f st = .ok out ∧ out.length = ins.length ∧ Computes st out (g (montVals st))) :
    ∃ outs, outs.length = ins.length ∧ AllCanonical outs ∧ domainVals d outs = g (domainVals d ins) ∧
      ∀ k : List Felt → Except CmdError Staged,
        (ins.mapM (enterDomain d) >>= fun st => f st >>= fun st => st.mapM (leaveDomain d) >>= k) = k outs := by
  obtain ⟨st, hin, hlen, cin⟩ := mapM_enter d ins
  obtain ⟨cst, vst⟩ := cin hc
  obtain ⟨out, hrun, hlen', crun⟩ := hf st hlen
  obtain ⟨cout, vout⟩ := crun cst
  obtain ⟨outs, hleave, hlen'', cleave⟩ := mapM_leave d out
  obtain ⟨couts, vouts⟩ := cleave cout
  exact ⟨outs, hlen''.trans hlen', couts, by rw [vouts, vout, vst],
    fun k => by rw [hin, ok_bind, hrun, ok_bind, hleave, ok_bind]⟩

/-! ### P2PERM (R269) -/

theorem requireP2Width_of {n : Nat} {width : P2Width} (h : p2WidthOf n = some width) :
    requireP2Width n = .ok width := by
  rw [requireP2Width, h]

/-- A legal P2PERM whose tables are locked and whose operands are canonical passes every check. -/
theorem exec_p2perm_checked {rd ra : Reg} {w : Fin 8} {d : Domain} {set : P2Set} {width : P2Width} {s : State}
    (hwf : (Instr.p2perm rd ra w d set).wellFormed = true) (hw : p2WidthOf w.val = some width)
    (hl : s.tlocked = true) (hc : AllCanonical (s.operandRange ra w.val)) :
    exec (.p2perm rd ra w d set) s =
      complete s ((s.operandRange ra w.val).mapM (enterDomain d) >>= fun st =>
        perm2 s.params s.tab.entry set width st >>= fun st =>
        st.mapM (leaveDomain d) >>= fun outs => .ok (stageRange rd outs)) := by
  rw [← p2WidthOf_t hw] at hc ⊢
  show execP2perm rd ra w d set s = _
  rw [execP2perm, complete_requireLegal, if_pos hwf, requireP2Width_of hw, ok_bind, complete_requireTables, if_pos hl,
    complete_rangeCheck, if_pos ((all_isCanonical_iff _).2 hc)]
  rfl

/-- R268, R269: the results of a legal P2PERM on locked canonical tables and canonical operands. -/
theorem exec_p2perm {rd ra : Reg} {w : Fin 8} {d : Domain} {set : P2Set} {width : P2Width} {s : State}
    (hwf : (Instr.p2perm rd ra w d set).wellFormed = true) (hw : p2WidthOf w.val = some width)
    (hl : s.tlocked = true) (ht : TablesCanonical s.tab.entry) (hc : AllCanonical (s.operandRange ra w.val)) :
    ∃ outs : List Felt, outs.length = w.val ∧ AllCanonical outs ∧
      domainVals d outs =
        fPerm2 s.params (entryVal s.tab.entry) set width (domainVals d (s.operandRange ra w.val)) ∧
      exec (.p2perm rd ra w d set) s = complete s (.ok (stageRange rd outs)) := by
  have hlen : (s.operandRange ra w.val).length = w.val := rangeRegs_length _ _ _
  obtain ⟨outs, hn, hcan, hval, hrun⟩ :=
    bind_permute_in_domain (f := perm2 s.params s.tab.entry set width)
      (g := fPerm2 s.params (entryVal s.tab.entry) set width) d (s.operandRange ra w.val) hc fun st hst => by
        rw [hlen, ← p2WidthOf_t hw] at hst ⊢
        obtain ⟨out, h1, h2, h3⟩ := perm2_spec s.params s.tab.entry set width st hst
        exact ⟨out, h1, h2, h3 ht⟩
  exact ⟨outs, hn.trans hlen, hcan, hval, by rw [exec_p2perm_checked hwf hw hl hc, hrun]⟩

/-- Settles O41: the opcode byte reads back, no step writes the parameters, and the run of a legal P2PERM passes its
checks and stages the permutation of its operands. -/
theorem p2permResult : Obligations.P2permResult := by
  refine ⟨fun rd ra w d set => opField_pack .., fun s t => step_params, rfl, ?_⟩
  intro rd ra w d set width s hwf hw hl ht hc
  obtain ⟨outs, hlen, hcan, hval, hexec⟩ := exec_p2perm hwf hw hl ht hc
  obtain ⟨-, -, -, hfit⟩ := p2perm_legal hwf
  obtain ⟨x, hx, hres, hframe⟩ := complete_stageRange s rd outs (by omega)
  exact ⟨outs, hlen, hcan, hval, x, hexec.trans hx, hres, fun n hn => hframe n (by omega)⟩

end Sys2Proof.Proofs

/-! SUPPORT. Proofs about the state: what a completion, an access, a reset and a step keep and change (spec/10_state.md,
spec/60_exceptions.md R316, spec/70_reset_and_hazards.md R340). -/

namespace Sys2Proof.Proofs

open Sys2Proof.Machine Sys2Proof.Laws

/-! ### The invariant -/

/-- The invariant says nothing of the moves still to come. -/
theorem inv_withEvents {s : State} (hi : Inv s) (rest : List Event) : Inv { s with events := rest } :=
  { hi with heldInReset := fun h => congrArg (fun u : State => { u with events := rest }) (hi.heldInReset h) }

/-- Nor does the fit of staged writes. -/
theorem fits_withEvents {i : Instr} {s : State} {st : Staged} (hf : Fits i s st) (rest : List Event) :
    Fits i { s with events := rest } st :=
  { hf with }

/-- Out of reset, a new bus answer is no matter of the invariant. -/
theorem inv_reply {s : State} (hi : Inv s) (hr : s.rstN = true) (a : BusAnswer) : Inv (s.reply a) :=
  { hi with heldInReset := fun h => absurd (hr.symm.trans h) (by decide) }

/-- R316: a completion that commits writes which fit its command. -/
theorem inv_commit {s : State} {i : Instr} {st : Staged} (hi : Inv s) (hr : s.rstN = true) (hf : Fits i s st) :
    Inv (s.commit st).finishOk where
  tabForm := hi.tabForm
  notBoth h := absurd h (by simp)
  snapshot h := absurd h (by simp)
  lockedCanonical h := by
    have hl : s.tlocked = true ∨ st.lock = true := by simpa using h
    exact hl.elim hi.lockedCanonical fun h => (hf.lock h).2
  errCode := by simp
  ltOrEq := by
    cases hc : st.flagCmp with
    | none => simpa [hc] using hi.ltOrEq
    | some f => simpa [hc, Prod.ext_iff] using hf.exclusive
  heldInReset h := absurd (hr.symm.trans h) (by decide)

/-- R313, R316: a completion with an error. -/
theorem inv_finishError {s : State} {e : CmdError} (hi : Inv s) (hr : s.rstN = true) (he : e ≠ .internal) :
    Inv (s.finishError e) :=
  { hi with
    notBoth := fun h => absurd h (by simp)
    snapshot := fun h => absurd h (by simp)
    errCode := code_le e he
    heldInReset := fun h => absurd (hr.symm.trans h) (by decide) }

/-- R340: the low edge, the draw of R341 included. -/
theorem inv_takeReset (s : State) : Inv s.takeReset where
  tabForm := rfl
  notBoth h := absurd h (by simp)
  snapshot h := absurd h (by simp)
  lockedCanonical h := absurd h (by simp)
  errCode := by simp
  ltOrEq := by simp
  heldInReset _ := rfl

theorem inv_releaseReset {s : State} (hi : Inv s) : Inv s.releaseReset :=
  { hi with heldInReset := fun h => absurd h (by simp) }

/-- A bus write, beside its answer: a register or table write needs BUSY = 0 (R43, R67), so the snapshot and a lock stay
true; an accepted command takes the snapshot (R40). -/
theorem inv_writeEffect {s t : State} {a : BusAddr} {n : Nat} {w : Limb} (hi : Inv s) (hr : s.rstN = true)
    (h : WriteEffect s a n w t) : Inv t := by
  have running : s.rstN = false → False := fun h => absurd (hr.symm.trans h) (by decide)
  cases h with
  | nothing => exact hi
  | ctrl => exact { hi with heldInReset := fun h => (running h).elim }
  | status =>
    exact { hi with
      notBoth := fun h => by simp [hi.notBoth h]
      heldInReset := fun h => (running h).elim }
  | dropped => exact { hi with heldInReset := fun h => (running h).elim }
  | accepted =>
    exact { hi with
      notBoth := fun _ => rfl
      snapshot := fun _ => rfl
      heldInReset := fun h => (running h).elim }
  | limb hb =>
    exact { hi with
      snapshot := fun h => absurd (hb.symm.trans h) (by decide)
      heldInReset := fun h => (running h).elim }
  | table hb hl _ e i he =>
    obtain ⟨hlo, hhi⟩ := tabOffset_bounds e i he
    exact { hi with
      tabForm := wf_writeWord _ _ _ hi.tabForm hlo hhi
      lockedCanonical := fun h => absurd (hl.symm.trans h) (by decide)
      heldInReset := fun h => (running h).elim }

/-- Settles O12: each kind of step keeps the invariant. -/
theorem everyStepKeepsTheInvariant : Obligations.EveryStepKeepsTheInvariant := by
  intro s t hi h
  have hi' := inv_withEvents hi s.events.tail
  cases step_cases h with
  | idle => exact hi'
  | ended hc i st hd hf => exact inv_commit hi' hc.1 (fits_withEvents hf _)
  | failed hc e he => exact inv_finishError hi' hc.1 he
  | read hr => exact inv_reply hi' hr _
  | write hr a n w _ u r hu => exact inv_reply (inv_writeEffect hi' hr hu) (by cases hu <;> exact hr) _
  | reset => exact inv_takeReset _
  | release => exact inv_releaseReset hi'

/-- Settles O11: idle, unlocked, out of reset, no flag set, an empty list of table cells. -/
theorem invariantHoldsAtReset : Obligations.InvariantHoldsAtReset where
  tabForm := reset_tab_wf
  notBoth h := absurd h (by simp)
  snapshot h := absurd h (by simp)
  lockedCanonical h := absurd h (by simp)
  errCode := by simp
  ltOrEq := by simp
  heldInReset h := absurd h (by simp)

/-! ### How a command ends (R313, R316) -/

/-- The states a command can end in. -/
theorem exec_next {i : Instr} {s t : State} (h : exec i s = .next t) :
    (∃ st, Fits i s st ∧ t = (s.commit st).finishOk) ∨ (∃ e, t = s.finishError e) := by
  rcases exec_cases i s with ⟨st, -, hf, hx⟩ | ⟨e, -, -, hx⟩ <;> obtain rfl := Host.Outcome.next.inj (hx.symm.trans h)
  · exact .inl ⟨st, hf, rfl⟩
  · exact .inr ⟨e, rfl⟩

/-- R310: code 0 is no error. -/
theorem code_ne_zero (e : CmdError) : e.code ≠ 0 := by cases e <;> decide

/-- R32: committed writes that fit a command touch its destinations only. -/
theorem regAt_commit_other {i : Instr} {s : State} {st : Staged} (hf : Fits i s st) {n : Nat} (hn : n ∉ i.destinations) :
    regAt (s.commit st).x n = regAt s.x n :=
  regAt_writeRegs_other _ _ _ fun e he hen => hn (hen ▸ hf.regs e he)

/-- R35: they touch C only if the command writes C. -/
theorem commit_c_of_fits {i : Instr} {s : State} {st : Staged} (hf : Fits i s st) (h : i.writesCarry = false) :
    (s.commit st).c = s.c := by
  rw [commit_c, hf.carry h, Option.getD_none]

/-- R35: they touch LT and EQ only if the command is CMP. -/
theorem commit_cmp_of_fits {i : Instr} {s : State} {st : Staged} (hf : Fits i s st) (h : i.writesCompare = false) :
    (s.commit st).lt = s.lt ∧ (s.commit st).eq = s.eq := by
  rw [commit_lt, commit_eq, hf.compare h]; exact ⟨rfl, rfl⟩

/-- R293: they lock the tables only if the command is TLOCK. -/
theorem commit_tlocked_of_fits {i : Instr} {s : State} {st : Staged} (hf : Fits i s st) (h : i.locks = false) :
    (s.commit st).tlocked = s.tlocked := by
  have hl : st.lock = false := Bool.eq_false_iff.2 fun c => absurd (h.symm.trans (hf.lock c).1) (by decide)
  rw [commit_tlocked, hl, Bool.or_false]

/-- Settles O8: the one run of the command settles every state of that snapshot, those tables and that lock. -/
theorem completionDependsOnSnapshotTablesAndLock : Obligations.CompletionDependsOnSnapshotTablesAndLock := by
  intro i s t hsnap htab hlock hparams
  obtain ⟨r, -, hrun⟩ := command_settles i s
  exact ⟨r, hrun s rfl rfl rfl rfl, hrun t hsnap.symm htab.symm hlock.symm hparams.symm⟩

/-- Settles O13: committed writes fit the command, and an error commits none. -/
theorem commandsWriteOnlyTheirDestinations : Obligations.CommandsWriteOnlyTheirDestinations := by
  intro i s t h n hn
  rcases exec_next h with ⟨st, hf, rfl⟩ | ⟨e, rfl⟩
  · exact regAt_commit_other hf hn
  · rfl

/-- Settles O14: a command commits the flags that fit it, and none with an error. -/
theorem commandsWriteOnlyTheirFlags : Obligations.CommandsWriteOnlyTheirFlags := by
  intro i s t h
  rcases exec_next h with ⟨st, hf, rfl⟩ | ⟨e, rfl⟩
  · exact ⟨commit_c_of_fits hf, commit_cmp_of_fits hf, commit_tlocked_of_fits hf, fun hl => by simp [hl],
      fun he => absurd rfl he⟩
  · exact ⟨fun _ => rfl, fun _ => ⟨rfl, rfl⟩, fun _ => rfl, id, fun _ => ⟨rfl, rfl, rfl, rfl⟩⟩

/-- Settles O15: neither ending of a command touches the rest of the state. -/
theorem commandsLeaveTheRestUnchanged : Obligations.CommandsLeaveTheRestUnchanged := by
  intro i s t h
  rcases exec_next h with ⟨st, -, rfl⟩ | ⟨e, rfl⟩ <;>
    exact ⟨fun _ => rfl, rfl, rfl, rfl, rfl, rfl, rfl, rfl, rfl, rfl, rfl, rfl⟩

/-! ### The engine's turn (R316) -/

/-- The engine's turn of a busy core completes the command in flight. -/
theorem step_of_engineCompletesNext {s : State} (h : engineCompletesNext s) :
    step s = completeInFlight { s with events := s.events.tail } := by
  obtain ⟨hr, hb, he | ⟨rest, he⟩⟩ := h
  · rw [step_nil he, engineTurn_busy hr hb, he, List.tail_nil, ← he]
  · rw [step_engine he, he, List.tail_cons]
    exact engineTurn_busy (s := { s with events := rest }) hr hb

/-- The states a command in flight can end in, its word legal or not (R311). -/
theorem completeInFlight_cases (s : State) :
    (∃ st, completeInFlight s = .next (s.commit st).finishOk) ∨ (∃ e, completeInFlight s = .next (s.finishError e)) := by
  cases hd : decode s.cmdReg with
  | error e => exact .inr ⟨.illegal, completeInFlight_error hd⟩
  | ok i =>
    rw [completeInFlight_ok hd]
    rcases exec_cases i s with ⟨st, -, -, hx⟩ | ⟨e, -, -, hx⟩
    · exact .inl ⟨st, hx⟩
    · exact .inr ⟨e, hx⟩

/-- Settles O9: either ending clears BUSY and sets DONE, and one with an error sets ESTICKY. -/
theorem aCommandInFlightCompletes : Obligations.ACommandInFlightCompletes := by
  intro s hr hb he
  rw [step_of_engineCompletesNext ⟨hr, hb, he⟩]
  rcases completeInFlight_cases { s with events := s.events.tail } with ⟨st, hx⟩ | ⟨e, hx⟩
  · exact ⟨_, hx, rfl, rfl, by simp, rfl, rfl, rfl, rfl, rfl⟩
  · refine ⟨_, hx, rfl, rfl, ?_, rfl, rfl, rfl, rfl, rfl⟩
    show true = (s.esticky || decide (e.code ≠ 0))
    rw [decide_eq_true (code_ne_zero e), Bool.or_true]

/-- Settles O5: the engine's turn completes the command CMDREG decodes to; a host access is a step by its event. -/
theorem stepRunsTheDecodedCommand : Obligations.StepRunsTheDecodedCommand := by
  refine ⟨fun s i hr hb hd he => ?_, fun s i rest hr hb hd he => ?_, fun s nbits w i hd => ?_,
    fun s addr size rest hr he => ?_, fun s addr size data rest hr he => ?_⟩
  · rw [step_nil he, engineTurn_busy hr hb, completeInFlight_ok hd]
  · rw [step_of_engineCompletesNext ⟨hr, hb, .inr ⟨rest, he⟩⟩, he]
    exact completeInFlight_ok hd
  · rw [step_of_engineCompletesNext ⟨rfl, rfl, .inr ⟨s.events, rfl⟩⟩]
    exact completeInFlight_ok hd
  · rw [step_read he, if_pos hr]
  · rw [step_write he, if_pos hr]

/-! ### P1PERM (R230) -/

theorem requireP1Width_of {n : Nat} {width : P1Width} (h : p1WidthOf n = some width) :
    requireP1Width n = .ok width := by
  rw [requireP1Width, h]

/-- A legal P1PERM whose tables are locked and whose operands are canonical passes every check. -/
theorem exec_p1perm_checked {rd ra : Reg} {w : Fin 8} {d : Domain} {width : P1Width} {s : State}
    (hwf : (Instr.p1perm rd ra w d).wellFormed = true) (hw : p1WidthOf w.val = some width)
    (hl : s.tlocked = true) (hc : AllCanonical (s.operandRange ra w.val)) :
    exec (.p1perm rd ra w d) s =
      complete s ((s.operandRange ra w.val).mapM (enterDomain d) >>= fun st =>
        perm1 s.tab.entry width st >>= fun st =>
        st.mapM (leaveDomain d) >>= fun outs => .ok (stageRange rd outs)) := by
  rw [← p1WidthOf_t hw] at hc ⊢
  show execP1perm rd ra w d s = _
  rw [execP1perm, complete_requireLegal, if_pos hwf, requireP1Width_of hw, ok_bind, complete_requireTables, if_pos hl,
    complete_rangeCheck, if_pos ((all_isCanonical_iff _).2 hc)]
  rfl

/-- R228 to R230: the results of a legal P1PERM on locked canonical tables and canonical operands. -/
theorem exec_p1perm {rd ra : Reg} {w : Fin 8} {d : Domain} {width : P1Width} {s : State}
    (hwf : (Instr.p1perm rd ra w d).wellFormed = true) (hw : p1WidthOf w.val = some width)
    (hl : s.tlocked = true) (ht : TablesCanonical s.tab.entry) (hc : AllCanonical (s.operandRange ra w.val)) :
    ∃ outs : List Felt, outs.length = w.val ∧ AllCanonical outs ∧
      domainVals d outs = fPerm1 (entryVal s.tab.entry) width (domainVals d (s.operandRange ra w.val)) ∧
      exec (.p1perm rd ra w d) s = complete s (.ok (stageRange rd outs)) := by
  have hlen : (s.operandRange ra w.val).length = w.val := rangeRegs_length _ _ _
  obtain ⟨outs, hn, hcan, hval, hrun⟩ :=
    bind_permute_in_domain (f := perm1 s.tab.entry width) (g := fPerm1 (entryVal s.tab.entry) width) d
      (s.operandRange ra w.val) hc fun st hst => by
        rw [hlen, ← p1WidthOf_t hw] at hst ⊢
        obtain ⟨out, h1, h2, h3⟩ := perm1_spec s.tab.entry width st hst
        exact ⟨out, h1, h2, h3 ht⟩
  exact ⟨outs, hn.trans hlen, hcan, hval, by rw [exec_p1perm_checked hwf hw hl hc, hrun]⟩

/-- Settles O39: the opcode byte reads back, and the run of a legal P1PERM passes its checks and stages the permutation
of its operands. -/
theorem p1permResult : Obligations.P1permResult := by
  refine ⟨fun rd ra w d => opField_pack .., fun rd ra w d width s hwf hw hl ht hc => ?_⟩
  obtain ⟨outs, hlen, hcan, hval, hexec⟩ := exec_p1perm hwf hw hl ht hc
  obtain ⟨-, -, -, hfit⟩ := p1perm_legal hwf
  obtain ⟨x, hx, hres, hframe⟩ := complete_stageRange s rd outs (by omega)
  exact ⟨outs, hlen, hcan, hval, x, hexec.trans hx, hres, fun n hn => hframe n (by omega)⟩

/-! ### Accesses of the control registers (R37 to R40) -/

theorem bit32_eq_ite (b : Bool) : bit32 b = if b then 1 else 0 := by cases b <;> rfl

/-- A flag placed at bit `j` of a word. -/
theorem bit32_shiftLeft_getLsbD (b : Bool) (j k : Nat) (hj : j < 32) :
    (bit32 b <<< j).getLsbD k = (decide (k = j) && b) := by
  rw [bit32, BitVec.getLsbD_shiftLeft, BitVec.getLsbD_setWidth, BitVec.getLsbD_ofBool]
  by_cases hk : k = j
  · simp [hk, hj]
  · have : k < j ∨ k - j ≠ 0 := by omega
    rcases this with h | h <;> simp [hk, h]

/-- R39: the bits of STATUS. -/
theorem statusWord_getLsbD (s : State) (k : Nat) : s.statusWord.getLsbD k =
    ((decide (k = 0) && s.busy) || (decide (k = 1) && s.done) || (decide (k = 2) && s.c) || (decide (k = 3) && s.lt) ||
      (decide (k = 4) && s.eq) || (decide (k = 5) && s.esticky) || (decide (k = 6) && s.overrun) ||
      (decide (k = 7) && s.tlocked) || (decide (8 ≤ k) && s.err.getLsbD (k - 8))) := by
  have code : (s.err.setWidth 32 <<< 8).getLsbD k = (decide (8 ≤ k) && s.err.getLsbD (k - 8)) := by
    rw [BitVec.getLsbD_shiftLeft, BitVec.getLsbD_setWidth]
    by_cases hk : k < 12
    · have h1 : k < 32 := by omega
      have h2 : k - 8 < 32 := by omega
      simp only [h1, h2, ← decide_not, Nat.not_lt, decide_true, Bool.true_and]
    · simp [BitVec.getLsbD_of_ge s.err (k - 8) (by omega)]
  rw [State.statusWord, ← BitVec.shiftLeft_zero (bit32 s.busy)]
  simp (disch := decide) only [BitVec.getLsbD_or, bit32_shiftLeft_getLsbD, code]

/-- R39: ERR is at bit 8. -/
theorem statusWord_getLsbD_err (s : State) (k : Nat) : s.statusWord.getLsbD (8 + k) = s.err.getLsbD k := by
  simp [statusWord_getLsbD]
  omega

/-- R39: a W1C bit is cleared where the data bit is 1. -/
theorem and_not_eq_ite (a b : Bool) : (a && !b) = if b then false else a := by cases a <;> cases b <;> rfl

/-- Settles O45: each access by its target; CTRL reads IE as bit 0. -/
theorem idVersionAndCtrlAccesses : Obligations.IdVersionAndCtrlAccesses := by
  intro s w
  refine ⟨rfl, rfl, rfl, rfl, rfl, ?_, rfl, fun hie => by rw [State.irq, hie, Bool.true_and]⟩
  show s.reply (.read s.ctrlWord .ok) = _
  rw [State.ctrlWord, bit32_eq_ite]
  rfl

/-- Settles O46: the bits of a read by `statusWord_getLsbD`, the clears of a write by `and_not_eq_ite`. -/
theorem statusReadsItsBitsAndClearsOnWrite : Obligations.StatusReadsItsBitsAndClearsOnWrite := by
  refine ⟨fun s => ⟨s.statusWord, rfl, ?_, ?_, ?_, ?_, ?_, ?_, ?_, ?_, ?_, ?_⟩, fun s w => ?_⟩
  iterate 8 · rw [statusWord_getLsbD]; simp
  · apply BitVec.eq_of_getLsbD_eq
    intro k hk
    rw [BitVec.getLsbD_extractLsb', statusWord_getLsbD_err, decide_eq_true hk, Bool.true_and]
  · apply BitVec.eq_of_getLsbD_eq
    intro k hk
    rw [BitVec.getLsbD_extractLsb', show 12 + k = 8 + (4 + k) by omega, statusWord_getLsbD_err,
      BitVec.getLsbD_of_ge s.err (4 + k) (by omega), Bool.and_false]
    exact (BitVec.getLsbD_zero).symm
  · show (s.writeStatus w).reply (.write .ok) = _
    rw [State.writeStatus, and_not_eq_ite, and_not_eq_ite, and_not_eq_ite]
    rfl

/-- Settles O47: the CMD target by BUSY. -/
theorem cmdWriteIsAcceptedOrDropped : Obligations.CmdWriteIsAcceptedOrDropped := by
  have write (s : State) (w : Limb) : s.busWrite 0x010 4 w =
      (s.writeTarget w .cmd).1.reply (.write (s.writeTarget w .cmd).2) := rfl
  refine ⟨fun s w hb => ?_, fun s w hb => ?_, fun s => rfl, rfl⟩
  · rw [write, State.writeTarget, if_neg (by simp [hb])]; rfl
  · rw [write, State.writeTarget, if_pos hb]; rfl

/-! ### What a bus write keeps (R43, R67, R75) -/

/-- R67: a refused register or table write. -/
theorem refused_fst {c : Prop} [Decidable c] {s t : State}
    (h : (if c then (s, BusResp.err) else (t, BusResp.ok)).2 = .err) :
    (if c then (s, BusResp.err) else (t, BusResp.ok)).1 = s := by
  by_cases hc : c
  · rw [if_pos hc]
  · rw [if_neg hc] at h; cases h

/-- R314: a write that a target refuses has no effect. -/
theorem writeTarget_err {s : State} {w : Limb} {target : Target} (h : (s.writeTarget w target).2 = .err) :
    (s.writeTarget w target).1 = s := by
  cases target with
  | reserved => rfl
  | id | version | ctrl | status => cases h
  | cmd => rw [State.writeTarget, apply_ite Prod.snd, ite_self] at h; cases h
  | regLE | regBE | tab => exact refused_fst h

/-- No bus write touches a flag of R35, ERR or TLOCKED. -/
theorem writeEffect_flags {s t : State} {a : BusAddr} {n : Nat} {w : Limb} (h : WriteEffect s a n w t) :
    t.c = s.c ∧ t.lt = s.lt ∧ t.eq = s.eq ∧ t.err = s.err ∧ t.tlocked = s.tlocked := by
  cases h <;> exact ⟨rfl, rfl, rfl, rfl, rfl⟩

/-- R67: a bus write that changes a register finds an idle core, at an offset of a REG window. -/
theorem writeEffect_regs {s t : State} {a : BusAddr} {n : Nat} {w : Limb} (h : WriteEffect s a n w t) :
    t.x = s.x ∨ (s.busy = false ∧ n = 4 ∧
      ((0x01000 ≤ a.toNat ∧ a.toNat < 0x01200) ∨ (0x01400 ≤ a.toNat ∧ a.toNat < 0x01600))) := by
  cases h with
  | limb hb hn _ _ _ ha => exact .inr ⟨hb, hn, ha⟩
  | nothing | ctrl | status | dropped | accepted | table => exact .inl rfl

/-- R43: a bus write that changes the table memory finds it unlocked and the core idle, at an offset of the TAB window. -/
theorem writeEffect_tab {s t : State} {a : BusAddr} {n : Nat} {w : Limb} (h : WriteEffect s a n w t) :
    t.tab = s.tab ∨ (s.tlocked = false ∧ s.busy = false ∧ n = 4 ∧ 0x10000 ≤ a.toNat ∧ a.toNat < 0x22240) := by
  cases h with
  | table hb hl hn e i he ha =>
    obtain ⟨hlo, hhi⟩ := tabOffset_bounds e i he
    exact .inr ⟨hl, hb, hn, ha ▸ hlo, by have : Config.tabEnd = 0x22240 := rfl; omega⟩
  | nothing | ctrl | status | dropped | accepted | limb => exact .inl rfl

/-- R39: a bus write that clears a sticky bit is a STATUS write. -/
theorem writeEffect_sticky {s t : State} {a : BusAddr} {n : Nat} {w : Limb} (h : WriteEffect s a n w t) :
    ((s.overrun = true → t.overrun = true) ∧ t.esticky = s.esticky) ∨ (n = 4 ∧ a = 0x00C ∧ t = s.writeStatus w) := by
  cases h with
  | status hn ha => exact .inr ⟨hn, ha, rfl⟩
  | dropped => exact .inl ⟨fun _ => rfl, rfl⟩
  | nothing | ctrl | accepted | limb | table => exact .inl ⟨id, rfl⟩

/-- Settles O53: with BUSY = 1 only CTRL, STATUS and OVERRUN are left to a write, and a refused one leaves the state. -/
theorem accessesWhileBusy : Obligations.AccessesWhileBusy := by
  refine ⟨fun s a size w hb => ?_, fun s a size w herr => ?_⟩
  · obtain ⟨t, r, ht, hx⟩ := busWrite_cases s a size w
    rw [hx]
    cases ht with
    | accepted hidle | limb hidle | table hidle => exact absurd (hb.symm.trans hidle) (by decide)
    | nothing | ctrl | status | dropped => exact ⟨rfl, rfl, rfl, rfl, rfl, rfl, rfl, rfl, rfl, hb⟩
  · rw [busWrite_eq] at herr ⊢
    by_cases hok : accessOk a size = true
    · rw [if_pos hok] at herr ⊢
      have hr : (s.writeTarget w (targetOf a.toNat)).2 = .err := by simpa using herr
      rw [writeTarget_err hr, hr]
      rfl
    · rw [if_neg hok]
      rfl

/-! ### What a step keeps -/

/-- R39, R43: a step that clears a sticky bit is a reset or a STATUS write, which clears the bits its data names. -/
theorem step_sticky {s t : State} (h : step s = .next t) :
    ((s.overrun = true → t.overrun = true) ∧ (s.esticky = true → t.esticky = true) ∧
      (s.tlocked = true → t.tlocked = true)) ∨
    (∃ rest, s.events = .resetLow :: rest) ∨
    (∃ rest w, s.events = .write 0x00C 4 w :: rest ∧ t.overrun = (s.overrun && !w.getLsbD 6) ∧
      t.esticky = (s.esticky && !w.getLsbD 5) ∧ t.tlocked = s.tlocked) := by
  cases step_cases h with
  | idle | read | release => exact .inl ⟨id, id, id⟩
  | ended => exact .inl ⟨id, id, fun hl => by simp [hl]⟩
  | failed => exact .inl ⟨id, fun _ => rfl, id⟩
  | reset _ he => exact .inr (.inl ⟨_, he⟩)
  | write _ a n w he u r hu =>
    obtain ⟨-, -, -, -, hlock⟩ := writeEffect_flags hu
    rcases writeEffect_sticky hu with ⟨ho, hes⟩ | ⟨rfl, rfl, rfl⟩
    · exact .inl ⟨ho, fun h => hes.trans h, fun h => hlock.trans h⟩
    · exact .inr (.inr ⟨_, w, he, rfl, rfl, rfl⟩)

/-- Settles O56: a STATUS write whose data bit is 0 keeps the sticky bit. -/
theorem stickyBitsStayUntilCleared : Obligations.StickyBitsStayUntilCleared := by
  intro s t h
  rcases step_sticky h with ⟨ho, hes, hl⟩ | hreset | ⟨rest, w, he, ho, hes, hl⟩
  · exact ⟨fun h => .inl (ho h), fun h => .inl (hes h), fun h => .inl (hl h)⟩
  · exact ⟨fun _ => .inr (.inl hreset), fun _ => .inr (.inl hreset), fun _ => .inr hreset⟩
  · refine ⟨fun h => ?_, fun h => ?_, fun h => .inl (hl.trans h)⟩
    · cases hw : w.getLsbD 6 with
      | false => exact .inl (by rw [ho, h, hw]; rfl)
      | true => exact .inr (.inr ⟨rest, w, he, hw⟩)
    · cases hw : w.getLsbD 5 with
      | false => exact .inl (by rw [hes, h, hw]; rfl)
      | true => exact .inr (.inr ⟨rest, w, he, hw⟩)

/-- Settles O57: no step but a reset and a table write changes the table memory, and no table write is taken under the
lock. -/
theorem lockedTablesNeverChange : Obligations.LockedTablesNeverChange := by
  refine ⟨fun s t h hne => ?_, fun s e i a w he ha => ?_⟩
  · cases step_cases h with
    | reset _ he => exact .inl ⟨_, he⟩
    | write _ a n w he u r hu =>
      obtain ⟨hl, hb, rfl, hlo, hhi⟩ := (writeEffect_tab hu).resolve_left hne
      exact .inr ⟨hl, hb, _, a, w, he, hlo, hhi⟩
    | idle | ended | failed | read | release => exact absurd rfl hne
  · have hok : accessOk a 4 = true := by
      have : a.toNat % 4 = 0 := by omega
      simp [accessOk, this]
    have ht : targetOf a.toNat = .tab e i := ha ▸ targetOf_tab e i he
    refine ⟨fun hl => ?_, s.tab.readWord (tabOffset e i), ?_⟩
    · rw [busWrite_eq, if_pos hok, ht, State.writeTarget, if_pos (by rw [hl, Bool.true_or])]
      rfl
    · rw [busRead_eq, if_pos hok, ht]
      rfl

/-- Settles O58: the kinds of step that write a register, C, or LT and EQ. -/
theorem whoWritesTheRegistersAndFlags : Obligations.WhoWritesTheRegistersAndFlags := by
  intro s t h
  cases step_cases h with
  | reset _ he => exact .inl ⟨_, he⟩
  | idle | failed | read | release =>
    exact .inr ⟨fun n hne => absurd rfl hne, fun hne => absurd rfl hne, fun hne => hne.elim (absurd rfl) (absurd rfl)⟩
  | write hr a n w he u r hu =>
    obtain ⟨hc, hlt, heq, -, -⟩ := writeEffect_flags hu
    refine .inr ⟨fun n hne => .inl ?_, fun hne => absurd hc hne, fun hne => hne.elim (absurd hlt) (absurd heq)⟩
    obtain ⟨hb, rfl, ha⟩ := (writeEffect_regs hu).resolve_left fun hx => hne (congrArg (regAt · n) hx)
    exact ⟨hr, hb, _, a, w, he, ha⟩
  | ended hc i st hd hf =>
    have hf' := fits_withEvents hf s.events.tail
    exact .inr ⟨
      fun n hne => .inr ⟨hc, rfl, i, hd, Classical.not_not.1 fun hn => hne (regAt_commit_other hf' hn)⟩,
      fun hne => ⟨hc, rfl, i, hd, eq_true_of_ne_false fun hw => hne (commit_c_of_fits hf' hw)⟩,
      fun hne => ⟨hc, rfl, i, hd, eq_true_of_ne_false fun hw =>
        hne.elim (absurd (commit_cmp_of_fits hf' hw).1) (absurd (commit_cmp_of_fits hf' hw).2)⟩⟩

/-! ### Reset (R47, R340, R341) -/

/-- Settles O59: the values of `State.reset`, and of the low edge. -/
theorem resetStateValues : Obligations.ResetStateValues := by
  have zero : ∀ n < 16, regAt zeroRegs n = 0 := by decide
  refine ⟨zero, rfl, rfl, rfl, rfl, rfl, rfl, rfl, rfl, rfl, rfl, rfl, rfl, rfl, rfl, fun _ => rfl, ?_⟩
  intro s t rest hr he h
  rw [step_resetLow he, if_pos hr] at h
  obtain rfl := Host.Outcome.next.inj h
  exact ⟨zero, rfl, rfl, rfl, rfl⟩

/-- Settles O60: the step of each event of a core taking, held in or leaving reset, and the idle turn. -/
theorem resetAbandonsTheCommandAndClears : Obligations.ResetAbandonsTheCommandAndClears := by
  refine ⟨fun s rest hr he => ?_, fun s rest hr he => ?_, fun s rest he => step_resetHigh he, fun s hb he => ?_⟩
  · rw [step_resetLow he, if_pos hr]; rfl
  · rcases he with he | he
    · rw [step_engine he]; exact engineTurn_held (s := { s with events := rest }) hr
    · rw [step_resetLow he, hr]; rfl
  · rw [step_nil he, engineTurn_idle hb]

end Sys2Proof.Proofs

/-! SUPPORT. Proofs about the bus target's memory windows: the register views, the table window and the reserved offsets
(spec/20_memory.md R63 to R69, R77). -/

namespace Sys2Proof.Proofs

open Sys2Proof.Machine Sys2Proof.Laws

/-! ### Aligned 32-bit accesses (R61, R68) -/

theorem accessOk_iff (a : BusAddr) (n : Nat) : accessOk a n = true ↔ n = 4 ∧ a.toNat % 4 = 0 := by
  simp [accessOk]

/-- R61: an aligned read answers what its target returns. -/
theorem busRead_target {a : BusAddr} {target : Target} (hal : a.toNat % 4 = 0) (ht : targetOf a.toNat = target)
    (s : State) : s.busRead a 4 = s.reply (.read (s.readTarget target).1 (s.readTarget target).2) := by
  rw [busRead_eq, if_pos ((accessOk_iff a 4).2 ⟨rfl, hal⟩), ht]

/-- R61: an aligned write has the effect and the response of its target. -/
theorem busWrite_target {a : BusAddr} {target : Target} (hal : a.toNat % 4 = 0) (ht : targetOf a.toNat = target)
    (s : State) (w : Limb) :
    s.busWrite a 4 w = (s.writeTarget w target).1.reply (.write (s.writeTarget w target).2) := by
  rw [busWrite_eq, if_pos ((accessOk_iff a 4).2 ⟨rfl, hal⟩), ht]

/-! ### Reads (R69) -/

/-- No target returns the bus port's last answer. -/
theorem readTarget_reply (s : State) (b : BusAnswer) (target : Target) :
    (s.reply b).readTarget target = s.readTarget target := by
  cases target <;> rfl

theorem busRead_of_reply (s : State) (b : BusAnswer) (a : BusAddr) (n : Nat) :
    (s.reply b).busRead a n = s.busRead a n := by
  rw [busRead_eq, busRead_eq, readTarget_reply]
  rfl

/-- Settles O52: a read is a new answer, and no read depends on the answer. -/
theorem readsHaveNoSideEffect : Obligations.ReadsHaveNoSideEffect := by
  intro s a size
  obtain ⟨d, r, h⟩ := busRead_reply s a size
  refine ⟨d, r, h, ?_⟩
  calc (s.busRead a size).busRead a size
    _ = (s.reply (.read d r)).busRead a size := by rw [h]
    _ = s.busRead a size := busRead_of_reply s _ a size

/-! ### Reserved offsets (R62, R63) -/

theorem targetOf_reserved {a : Nat} (h : (0x014 ≤ a ∧ a < 0x1000) ∨ (0x1200 ≤ a ∧ a < 0x1400) ∨
    (0x1600 ≤ a ∧ a < 0x10000) ∨ 0x22240 ≤ a) : targetOf a = .reserved := by
  have hbase : Config.tabBase = 0x10000 := rfl
  have hend : Config.tabEnd = 0x22240 := rfl
  simp (disch := omega) only [targetOf, if_neg]

/-- Settles O51: an access the bus does not take and one of a reserved target end alike. -/
theorem reservedMisalignedAndNarrowAccessesAnswerErr :
    Obligations.ReservedMisalignedAndNarrowAccessesAnswerErr := by
  intro s a size w h
  by_cases hok : accessOk a size = true
  · obtain ⟨rfl, hal⟩ := (accessOk_iff a size).1 hok
    have ht : targetOf a.toNat = .reserved := targetOf_reserved (by omega)
    exact ⟨busRead_target hal ht s, busWrite_target hal ht s w⟩
  · rw [busRead_eq, busWrite_eq, if_neg hok, if_neg hok]
    exact ⟨rfl, rfl⟩

/-! ### Register views (R64, R65, R67) -/

/-- R64: a limb write sets one limb of its register. -/
theorem limb_writeLimb (s : State) (r : Reg) (i k : Fin 8) (w : Limb) :
    limb k (regAt (s.writeLimb r i w).x r.val) = if k = i then w else limb k (regAt s.x r.val) := by
  rw [writeLimb_x, regAt_setReg_same _ _ _ r.isLt]
  by_cases hk : k = i
  · rw [if_pos hk, hk, limb_setLimb_same]
  · rw [if_neg hk, limb_setLimb_other _ _ _ _ (Ne.symm hk)]

/-- R64: a limb write changes no other register. -/
theorem regAt_writeLimb_other (s : State) (r : Reg) (i : Fin 8) (w : Limb) {n : Nat} (hn : n ≠ r.val) :
    regAt (s.writeLimb r i w).x n = regAt s.x n := by
  rw [writeLimb_x, regAt_setReg_other _ _ _ _ hn.symm]

/-- R64, R67: a write through the little-endian view. -/
theorem writeTarget_regLE (s : State) (w : Limb) (r : Reg) (i : Fin 8) :
    s.writeTarget w (.regLE r i) = if s.busy then (s, .err) else (s.writeLimb r i w, .ok) := rfl

/-- R65, R67: a write through the big-endian view. -/
theorem writeTarget_regBE (s : State) (w : Limb) (r : Reg) (j : Fin 8) :
    s.writeTarget w (.regBE r j) = if s.busy then (s, .err) else (s.writeLimb r (mirror j) (bswap32 w), .ok) := rfl

/-- R67: a bus write through a view that lays the word at limb `i` as `v` is refused while a command is in flight, and
sets that limb alone on an idle core. -/
theorem busWrite_regView {s : State} {a : BusAddr} {w v : Limb} {target : Target} {r : Reg} {i : Fin 8}
    (hal : a.toNat % 4 = 0) (ht : targetOf a.toNat = target)
    (hview : s.writeTarget w target = if s.busy then (s, .err) else (s.writeLimb r i v, .ok)) :
    (s.busy = true → s.busWrite a 4 w = { s with answer := some (.write .err) }) ∧
    (s.busy = false → ∃ x, s.busWrite a 4 w = { s with x := x, answer := some (.write .ok) } ∧
      limb i (regAt x r.val) = v ∧ (∀ k, k ≠ i → limb k (regAt x r.val) = limb k (regAt s.x r.val)) ∧
      (∀ n, n ≠ r.val → regAt x n = regAt s.x n)) := by
  rw [busWrite_target hal ht, hview]
  refine ⟨fun hb => ?_, fun hb =>
    ⟨(s.writeLimb r i v).x, ?_, ?_, fun k hk => ?_, fun n hn => regAt_writeLimb_other s r i v hn⟩⟩
  · rw [if_pos hb]
    rfl
  · rw [if_neg (ne_true_of_eq_false hb)]
    rfl
  · rw [limb_writeLimb, if_pos rfl]
  · rw [limb_writeLimb, if_neg hk]

/-- Settles O48: the accesses of the target that the offset names. -/
theorem registerViewLittleEndian : Obligations.RegisterViewLittleEndian := by
  intro s r i a w ha
  have hal : a.toNat % 4 = 0 := by omega
  have ht : targetOf a.toNat = .regLE r i := ha ▸ targetOf_regLE r i
  exact ⟨busRead_target hal ht s, busWrite_regView hal ht (writeTarget_regLE s w r i)⟩

/-- R65: the bytes of a word, end for end. -/
theorem bswap32_byte (w : Limb) (k : Fin 4) :
    (bswap32 w).extractLsb' (8 * k.val) 8 = w.extractLsb' (24 - 8 * k.val) 8 := by
  apply BitVec.eq_of_getLsbD_eq
  intro b hb
  simp only [bswap32, BitVec.getLsbD_extractLsb', BitVec.getLsbD_append]
  have h2 : 16 + b - 8 - 8 = b := by omega
  have h3 : 24 + b - 8 - 8 - 8 = b := by omega
  fin_cases k <;> simp (disch := omega) [hb, h2, h3, if_neg]

/-- R65: word `j` of the big-endian view is limb `7 - j`. -/
theorem mirror_eq_of_add_eq {i j : Fin 8} (h : i.val + j.val = 7) : mirror j = i := by
  apply Fin.ext
  rw [mirror, fin_ofNat_val _ (by omega)]
  omega

/-- Settles O49: the bytes of the swap, and the accesses of the target that the offset names. -/
theorem registerViewBigEndian : Obligations.RegisterViewBigEndian := by
  refine ⟨bswap32_byte, fun s r i j a w hij ha => ?_⟩
  have hal : a.toNat % 4 = 0 := by omega
  have ht : targetOf a.toNat = .regBE r j := ha ▸ targetOf_regBE r j
  obtain rfl := mirror_eq_of_add_eq hij
  exact ⟨busRead_target hal ht s, busWrite_regView hal ht (writeTarget_regBE s w r j)⟩

/-! ### A register written word by word (R77) -/

/-- Writes through a view that lays word `j` at limb `pos j`, coded by `code`, leave in limb `pos j` the word written
there: by one of the writes, or before all of them. -/
theorem limb_foldl_writeTarget {view : Fin 8 → Target} {pos : Fin 8 → Fin 8} {code : Limb → Limb} {r : Reg}
    (hpos : Function.Injective pos)
    (hview : ∀ (t : State) (w : Limb) (j : Fin 8),
      t.writeTarget w (view j) = if t.busy then (t, .err) else (t.writeLimb r (pos j) (code w), .ok))
    (ws : Fin 8 → Limb) (j : Fin 8) (order : List (Fin 8)) (s : State) (hb : s.busy = false)
    (hj : limb (pos j) (regAt s.x r.val) = code (ws j) ∨ j ∈ order) :
    limb (pos j) (regAt (order.foldl (fun t k => (t.writeTarget (ws k) (view k)).1) s).x r.val) = code (ws j) := by
  induction order generalizing s with
  | nil => exact hj.resolve_right List.not_mem_nil
  | cons k order ih =>
    rw [List.foldl_cons, hview, if_neg (ne_true_of_eq_false hb)]
    refine ih _ hb ?_
    rw [limb_writeLimb]
    by_cases hjk : j = k
    · exact .inl (by rw [hjk, if_pos rfl])
    · rw [if_neg fun h => hjk (hpos h)]
      exact hj.imp_right fun hmem => (List.mem_cons.1 hmem).resolve_left hjk

/-- Settles O54: the limbs that the writes through either view leave. -/
theorem registerRoundTripThroughBothViews : Obligations.RegisterRoundTripThroughBothViews := by
  intro s r ws order hb hall
  have hLE (i : Fin 8) :=
    limb_foldl_writeTarget (view := .regLE r) (pos := id) (code := id) Function.injective_id
      (fun t w j => writeTarget_regLE t w r j) ws i order s hb (.inr (hall i))
  have hBE (j : Fin 8) :=
    limb_foldl_writeTarget (view := .regBE r) (pos := mirror) (code := bswap32) (fun _ _ => mirror_injective)
      (fun t w k => writeTarget_regBE t w r k) ws j order s hb (.inr (hall j))
  refine ⟨fun i => ?_, fun i => ?_, fun i j hij => ?_⟩
  · exact congrArg (·, BusResp.ok) (hLE i)
  · rw [State.readTarget, hBE, bswap32_bswap32]
  · rw [State.readTarget, ← mirror_eq_of_add_eq hij, hBE]

/-! ### The table window (R66) -/

/-- R64: byte `k` of a value laid out in bytes. -/
theorem bytesVal_byte (bs : List Byte) (k : Nat) (hk : k < bs.length) :
    bytesVal bs / 2 ^ (8 * k) % 2 ^ 8 = bs[k].toNat := by
  induction bs generalizing k with
  | nil => cases hk
  | cons b bs ih =>
    have hb := b.isLt
    cases k with
    | zero =>
      rw [bytesVal, Nat.mul_zero, Nat.pow_zero, Nat.div_one, Nat.add_mul_mod_self_left, Nat.mod_eq_of_lt hb]
      rfl
    | succ k =>
      rw [bytesVal, Nat.mul_succ, Nat.add_comm (8 * k), Nat.pow_add, ← Nat.div_div_eq_div_mul,
        Nat.add_mul_div_left _ _ (by decide), Nat.div_eq_of_lt hb, Nat.zero_add, ih k (by simpa using hk)]
      rfl

/-- R66: byte `k` of an entry is the byte at its offset + `k`. -/
theorem entry_byte (m : TableMem) (e k : Nat) (hk : k < 32) :
    (m.entry e).extractLsb' (8 * k) 8 = m.readByte (Config.tabBase + 32 * e + k) := by
  have hlen : k < (m.readBytes (Config.tabBase + 32 * e) 32).length := by rwa [readBytes_length]
  apply BitVec.eq_of_toNat_eq
  rw [BitVec.extractLsb'_toNat, Nat.shiftRight_eq_div_pow, entry_toNat, bytesVal_byte _ _ hlen]
  exact congrArg BitVec.toNat ((List.getElem_eq_iff hlen).2 (readBytes_getElem? m _ 32 k hk))

theorem writeTarget_tab_refused {s : State} (h : s.tlocked = true ∨ s.busy = true) (w : Limb) (e : Nat) (i : Fin 8) :
    s.writeTarget w (.tab e i) = (s, .err) := by
  rw [State.writeTarget, if_pos (by simpa using h)]

theorem writeTarget_tab_taken {s : State} (hl : s.tlocked = false) (hb : s.busy = false) (w : Limb) (e : Nat)
    (i : Fin 8) : s.writeTarget w (.tab e i) = ({ s with tab := s.tab.writeWord (tabOffset e i) w }, .ok) := by
  simp [State.writeTarget, hl, hb]

/-- Settles O50: the accesses of the target that the offset names; a taken write is the write of one word, by
`entry_writeWord` of one limb. -/
theorem tableViewReadsAndWrites : Obligations.TableViewReadsAndWrites := by
  intro s e i a w he ha
  have hal : a.toNat % 4 = 0 := by omega
  have hoff : a.toNat = tabOffset e i := ha
  have ht : targetOf a.toNat = .tab e i := hoff ▸ targetOf_tab e i he
  obtain ⟨hlo, hhi⟩ := tabOffset_bounds e i he
  refine ⟨?_, fun k hk => entry_byte s.tab e k hk, fun h => ?_, fun hl hb hwf =>
    ⟨s.tab.writeWord (tabOffset e i) w, ?_, wf_writeWord _ _ _ hwf hlo hhi, ?_, fun j hj => ?_, fun e' he' => ?_,
      fun b hout => readByte_writeWord_other _ _ _ _ hwf hlo hhi (hoff ▸ hout)⟩⟩
  · rw [busRead_target hal ht, State.readTarget, readWord_tabOffset]
    rfl
  · rw [busWrite_target hal ht, writeTarget_tab_refused h]
    rfl
  · rw [busWrite_target hal ht, writeTarget_tab_taken hl hb]
    rfl
  · rw [entry_writeWord _ _ _ _ _ hwf he, if_pos rfl, limb_setLimb_same]
  · rw [entry_writeWord _ _ _ _ _ hwf he, if_pos rfl, limb_setLimb_other _ _ _ _ hj.symm]
  · rw [entry_writeWord _ _ _ _ _ hwf he, if_neg he']

end Sys2Proof.Proofs

/-! SUPPORT. Proofs about the command encoding: the opcode map, the decoder and the encoder (spec/30_encoding.md R90 to
R98). -/

namespace Sys2Proof.Proofs

open Sys2Proof.Laws

/-! ### The opcode map (R93) -/

theorem findRow_eq_find? (op : BitVec 8) (rows : List OpRow) :
    findRow op rows = rows.find? fun row => decide (row.op = op) := by
  induction rows with
  | nil => rfl
  | cons row rows ih => by_cases h : row.op = op <;> simp [findRow, h, ih]

/-- R93: no two rows have the same OP. -/
theorem opRows_op_nodup : (opRows.map OpRow.op).Nodup := by decide

theorem findRow_eq_some_iff {op : BitVec 8} {row : OpRow} :
    findRow op opRows = some row ↔ row ∈ opRows ∧ row.op = op := by
  have hfound {r : OpRow} (h : findRow op opRows = some r) : r ∈ opRows ∧ r.op = op := by
    rw [findRow_eq_find?] at h
    exact ⟨List.mem_of_find?_eq_some h, by simpa using List.find?_some h⟩
  refine ⟨hfound, fun ⟨hmem, hop⟩ => ?_⟩
  cases h : findRow op opRows with
  | none =>
    rw [findRow_eq_find?, List.find?_eq_none] at h
    exact absurd (decide_eq_true hop) (h row hmem)
  | some r =>
    obtain ⟨hr, hrop⟩ := hfound h
    exact congrArg some (List.inj_on_of_nodup_map opRows_op_nodup hr hmem (hrop.trans hop.symm))

theorem exists_row_iff {op : BitVec 8} {row : OpRow} (h : findRow op opRows = some row) {P : OpRow → Prop} :
    (∃ r ∈ opRows, r.op = op ∧ P r) ↔ P row := by
  refine ⟨fun ⟨r, hr, hop, hP⟩ => ?_, fun hP => ?_⟩
  · obtain rfl := Option.some.inj ((findRow_eq_some_iff.2 ⟨hr, hop⟩).symm.trans h)
    exact hP
  · obtain ⟨hmem, hop⟩ := findRow_eq_some_iff.1 h
    exact ⟨row, hmem, hop, hP⟩

/-- R94 (a): the opcode bytes without a row are the ranges the spec lists. -/
theorem findRow_eq_none_iff (op : BitVec 8) : findRow op opRows = none ↔
    (0x08 ≤ op.toNat ∧ op.toNat ≤ 0x0F) ∨ (0x15 ≤ op.toNat ∧ op.toNat ≤ 0x17) ∨ op.toNat = 0x1E ∨ op.toNat = 0x1F ∨
      (0x23 ≤ op.toNat ∧ op.toNat ≤ 0x2F) ∨ (0x33 ≤ op.toNat ∧ op.toNat ≤ 0x3E) ∨ 0x40 ≤ op.toNat := by
  revert op
  decide

/-! ### The decoder (R96) -/

theorem decode_of_findRow_none {w : Limb} (h : findRow (opField w) opRows = none) :
    decode w = .error .unassignedOpcode := by rw [decode, h]

theorem decode_of_findRow {w : Limb} {row : OpRow} (h : findRow (opField w) opRows = some row) :
    decode w = if rsvField w ≠ 0 then .error .reservedBits
      else if w &&& row.mask ≠ row.mtch then .error .unusedField
      else if (row.build w).wellFormed then .ok (row.build w) else .error .valueConstraint := by rw [decode, h]

theorem decode_eq_ok_iff {w : Limb} {i : Instr} : decode w = .ok i ↔
    ∃ row, findRow (opField w) opRows = some row ∧ rsvField w = 0 ∧ w &&& row.mask = row.mtch ∧ row.build w = i ∧
      i.wellFormed = true := by
  cases h : findRow (opField w) opRows with
  | none => simp [decode_of_findRow_none h]
  | some row =>
    rw [decode_of_findRow h]
    simp only [Option.some.injEq, exists_eq_left']
    split_ifs with hrsv hmask hwf
    · exact iff_of_false nofun fun ⟨hrsv0, _⟩ => hrsv hrsv0
    · exact iff_of_false nofun fun ⟨_, hm, _⟩ => hmask hm
    · refine ⟨fun hi => ?_, fun ⟨_, _, hi, _⟩ => congrArg Except.ok hi⟩
      obtain rfl := Except.ok.inj hi
      exact ⟨not_not.1 hrsv, not_not.1 hmask, rfl, hwf⟩
    · exact iff_of_false nofun fun ⟨_, _, hi, hwf'⟩ => hwf (hi ▸ hwf')

/-- Settles O1, by running the decoder on the eight words. -/
theorem decodesTheSpecsExampleWords : Obligations.DecodesTheSpecsExampleWords :=
  ⟨rfl, rfl, rfl, rfl, rfl, rfl, rfl, rfl⟩

/-- Settles O4, by whether the opcode byte has a row: without one clause (a) holds, with one the clauses (b) to (d) are
the decoder's checks of that row. -/
theorem illegalWordsAreThoseOfTheFourClauses : Obligations.IllegalWordsAreThoseOfTheFourClauses := by
  intro w
  rw [← findRow_eq_none_iff]
  cases h : findRow (opField w) opRows with
  | none => simp [decode_of_findRow_none h]
  | some row =>
    rw [exists_row_iff h, exists_row_iff h, decode_of_findRow h]
    split_ifs with hrsv hmask hwf
    · exact iff_of_true ⟨_, rfl⟩ (.inr (.inl hrsv))
    · exact iff_of_true ⟨_, rfl⟩ (.inr (.inr (.inl hmask)))
    · simp [not_not.1 hrsv, not_not.1 hmask, hwf]
    · exact iff_of_true ⟨_, rfl⟩ (.inr (.inr (.inr (Bool.eq_false_of_not_eq_true hwf))))

/-! ### Decoding an encoding -/

theorem readsBack (i : Instr) : ReadsBack.Statement i := by
  cases i with
  | nop => exact ReadsBack.nop
  | mov rd ra => exact ReadsBack.mov rd ra
  | ldk rd k => exact ReadsBack.ldk rd k
  | addc rd ra rb ci => exact ReadsBack.addc rd ra rb ci
  | subb rd ra rb ci => exact ReadsBack.subb rd ra rb ci
  | cmp ra rb => exact ReadsBack.cmp ra rb
  | mulw rd ra rb => exact ReadsBack.mulw rd ra rb
  | redc rd ra rb => exact ReadsBack.redc rd ra rb
  | fchk ra => exact ReadsBack.fchk ra
  | fadd rd ra rb => exact ReadsBack.fadd rd ra rb
  | fsub rd ra rb => exact ReadsBack.fsub rd ra rb
  | fneg rd ra => exact ReadsBack.fneg rd ra
  | fhalf rd ra => exact ReadsBack.fhalf rd ra
  | mmul rd ra rb => exact ReadsBack.mmul rd ra rb
  | msqr rd ra => exact ReadsBack.msqr rd ra
  | tomont rd ra => exact ReadsBack.tomont rd ra
  | frommont rd ra => exact ReadsBack.frommont rd ra
  | fmul rd ra rb => exact ReadsBack.fmul rd ra rb
  | fsqr rd ra => exact ReadsBack.fsqr rd ra
  | finv rd ra => exact ReadsBack.finv rd ra
  | fdiv rd ra rb => exact ReadsBack.fdiv rd ra rb
  | minv rd ra => exact ReadsBack.minv rd ra
  | p1perm rd ra w d => exact ReadsBack.p1perm rd ra w d
  | p1comp rd ra w d => exact ReadsBack.p1comp rd ra w d
  | p2perm rd ra w d set => exact ReadsBack.p2perm rd ra w d set
  | tlock => exact ReadsBack.tlock

/-- Settles O2: the command's own row passes every check of R96 and reads the command back. -/
theorem decodeOfEncode : Obligations.DecodeOfEncode := by
  intro i hwf
  obtain ⟨row, hrow, hrsv, hmask, hbuild⟩ := readsBack i
  exact decode_eq_ok_iff.2 ⟨row, hrow, hrsv, hmask, hbuild, hwf⟩

/-! ### Encoding a decoded word -/

/-- The row's OP with the fields of `w` that the row's mask leaves free; a field under the mask is 0. -/
def repack (row : OpRow) (w : Limb) : Limb :=
  packWord row.op (if row.mask.extractLsb' 8 4 = BitVec.allOnes 4 then 0 else rdField w)
    (if row.mask.extractLsb' 12 4 = BitVec.allOnes 4 then 0 else raField w)
    (if row.mask.extractLsb' 16 4 = BitVec.allOnes 4 then 0 else rbField w)
    (if row.mask.extractLsb' 20 3 = BitVec.allOnes 3 then 0 else wField w)
    (w.getLsbD 23 && !row.mask.getLsbD 23) (w.getLsbD 24 && !row.mask.getLsbD 24)
    (w.getLsbD 25 && !row.mask.getLsbD 25)

/-- R93: match is the opcode byte, and 0 in every operand field. -/
theorem mtch_eq_op : ∀ row ∈ opRows, row.mtch = row.op.setWidth 32 := by decide

theorem field_eq_zero_of_mask {w mask : Limb} {op : BitVec 8} (h : w &&& mask = op.setWidth 32) {start n : Nat}
    (hs : 8 ≤ start) (hm : mask.extractLsb' start n = BitVec.allOnes n) : w.extractLsb' start n = 0#n := by
  rw [field_of_mask h start n hm]
  apply BitVec.eq_of_getLsbD_eq
  intro k hk
  simp [BitVec.getLsbD_of_ge op (start + k) (by omega)]

theorem bit_and_not_mask {w mask : Limb} {op : BitVec 8} (h : w &&& mask = op.setWidth 32) {k : Nat} (hk : 8 ≤ k) :
    (w.getLsbD k && !mask.getLsbD k) = w.getLsbD k := by
  have hbit : (w.getLsbD k && mask.getLsbD k) = false := by
    rw [← BitVec.getLsbD_and, h, BitVec.getLsbD_setWidth, BitVec.getLsbD_of_ge op k hk, Bool.and_false]
  cases hw : w.getLsbD k <;> simp_all

/-- A word that meets the checks R94 (a) to (c) of a row is its free fields, packed under the row's OP. -/
theorem repack_eq_self {row : OpRow} {w : Limb} (hmem : row ∈ opRows) (hop : row.op = opField w)
    (hrsv : rsvField w = 0) (hmask : w &&& row.mask = row.mtch) : repack row w = w := by
  rw [mtch_eq_op row hmem] at hmask
  have hfield (start n : Nat) (hs : 8 ≤ start) :
      (if row.mask.extractLsb' start n = BitVec.allOnes n then 0 else (w.extractLsb' start n).toFin) =
        (w.extractLsb' start n).toFin := by
    split_ifs with hm
    · rw [field_eq_zero_of_mask hmask hs hm]; rfl
    · rfl
  have hbit {k : Nat} (hk : 8 ≤ k) := bit_and_not_mask hmask hk
  conv_rhs => rw [word_eq_pack w hrsv]
  rw [repack, hop, rdField, hfield 8 4 (by decide), raField, hfield 12 4 (by decide), rbField, hfield 16 4 (by decide),
    wField, hfield 20 3 (by decide), hbit (by decide), hbit (by decide), hbit (by decide), ciField]

theorem dField_bit (w : Limb) : (dField w).bit = w.getLsbD 23 := by
  unfold dField; cases w.getLsbD 23 <;> rfl

theorem sField_bit (w : Limb) : (sField w).bit = w.getLsbD 24 := by
  unfold sField; cases w.getLsbD 24 <;> rfl

/-- R90, R93: in every row the encoder writes exactly the fields the row reads, which are the ones its mask leaves free. -/
theorem encode_build (w : Limb) : ∀ row ∈ opRows, encode (row.build w) = repack row w := by
  simp [opRows, encode, repack, dField_bit, sField_bit, konstOfW_round, ciField]

/-- Settles O3: a word that decodes is the repacking of its free fields, which is what the encoder writes. -/
theorem encodeOfDecode : Obligations.EncodeOfDecode := by
  intro w i h
  obtain ⟨row, hrow, hrsv, hmask, rfl, hwf⟩ := decode_eq_ok_iff.1 h
  obtain ⟨hmem, hop⟩ := findRow_eq_some_iff.1 hrow
  exact ⟨hwf, (encode_build w row hmem).trans (repack_eq_self hmem hop hrsv hmask)⟩

end Sys2Proof.Proofs

/-! SUPPORT. Proofs about the limb-vector commands ADDC, SUBB, CMP and MULW (spec/40_limb_vector.md R122 to R126). -/

namespace Sys2Proof.Proofs

open Sys2Proof.Machine Sys2Proof.Laws

/-! ### The carrying operations (R122, R123) -/

/-- R122, R123: the carry in as a number: 1 exactly when the command uses C and the snapshot's C is set. -/
theorem carryIn_toNat (s : State) (ci : Bool) :
    (s.carryIn ci).toNat = if ci = true ∧ s.snap.c = true then 1 else 0 := by
  cases ci with
  | false => rfl
  | true => cases h : s.snap.c <;> simp [State.carryIn, h]

theorem add256_eq (a b : Felt) (c : Bool) : add256 a b c =
    (BitVec.ofNat 256 (a.toNat + b.toNat + c.toNat), decide (2 ^ 256 ≤ a.toNat + b.toNat + c.toNat)) := by
  obtain ⟨hsum, hcarry⟩ := add256_spec a b c
  exact Prod.ext (BitVec.eq_of_toNat_eq (by rw [hsum, BitVec.toNat_ofNat])) hcarry

theorem sub256_eq (a b : Felt) (c : Bool) : sub256 a b c =
    (BitVec.ofNat 256 (a.toNat + 2 ^ 256 - (b.toNat + c.toNat)), decide (a.toNat < b.toNat + c.toNat)) := by
  obtain ⟨hdiff, hborrow⟩ := sub256_spec a b c
  exact Prod.ext (BitVec.eq_of_toNat_eq (by rw [hdiff, BitVec.toNat_ofNat])) hborrow

theorem exec_addc (rd ra rb : Reg) (ci : Bool) (s : State) : exec (.addc rd ra rb ci) s =
    complete s (.ok (stageCarry rd (add256 (s.operand ra) (s.operand rb) (s.carryIn ci)))) := rfl

theorem exec_subb (rd ra rb : Reg) (ci : Bool) (s : State) : exec (.subb rd ra rb ci) s =
    complete s (.ok (stageCarry rd (sub256 (s.operand ra) (s.operand rb) (s.carryIn ci)))) := rfl

/-- Settles O20: ADDC commits the sum and the carry out of the limb-by-limb addition. -/
theorem addcResult : Obligations.AddcResult := by
  refine ⟨fun rd ra rb ci => opField_pack .., ?_⟩
  rintro rd ra rb ci s cin rfl
  rw [exec_addc, complete_ok, finish_carry, add256_eq, carryIn_toNat]

/-- Settles O21: SUBB commits the difference and the borrow out of the limb-by-limb subtraction. -/
theorem subbResult : Obligations.SubbResult := by
  refine ⟨fun rd ra rb ci => opField_pack .., ?_⟩
  rintro rd ra rb ci s bin rfl
  rw [exec_subb, complete_ok, finish_carry, sub256_eq, carryIn_toNat]

/-! ### The comparison (R124) -/

theorem exec_cmp (ra rb : Reg) (s : State) :
    exec (.cmp ra rb) s = complete s (.ok (stageCompare (cmp256 (s.operand ra) (s.operand rb)))) := rfl

/-- Settles O22: CMP commits whether the limb-wise comparison answers LESS, and whether it answers EQUAL. -/
theorem cmpResult : Obligations.CmpResult := by
  refine ⟨fun ra rb => opField_pack .., fun ra rb s => ?_⟩
  rw [exec_cmp, complete_ok, finish_compare]
  simp only [cmp256_eq_lt, cmp256_eq_eq, BitVec.toNat_inj]

/-! ### The product (R125) -/

theorem exec_mulw (rd ra rb : Reg) (s : State) : exec (.mulw rd ra rb) s =
    complete s (requireLegal (.mulw rd ra rb) >>= fun _ =>
      .ok (stageRange rd (mulHalves (s.operand ra) (s.operand rb)))) := rfl

/-- R95: MULW is legal exactly when RD+1 is a register. -/
theorem mulw_wellFormed_iff {rd ra rb : Reg} : (Instr.mulw rd ra rb).wellFormed = true ↔ rd.val ≤ 14 :=
  decide_eq_true_iff

/-- Settles O23: a legal MULW commits the two halves of the product as a range of two writes, an illegal one ends
with ILLEGAL. -/
theorem mulwResult : Obligations.MulwResult := by
  refine ⟨fun rd ra rb => opField_pack .., fun rd ra rb s hrd => ?_, fun rd ra rb s hrd => ?_⟩
  · rw [exec_mulw, complete_requireLegal, if_pos (mulw_wellFormed_iff.2 hrd), complete_ok, finish_range, mulHalves_spec]
    rfl
  · have hillegal : ¬ (Instr.mulw rd ra rb).wellFormed = true := fun h => by
      have := mulw_wellFormed_iff.1 h
      omega
    rw [exec_mulw, complete_requireLegal, if_neg hillegal, Laws.finishError_eq]
    rfl

end Sys2Proof.Proofs

/-! SUPPORT. Proofs about the Montgomery family REDC, MMUL, MSQR, TOMONT, FROMMONT, FMUL and FSQR
(spec/41_montgomery.md R150 to R160), and that no datapath condition ever stops a step (R152, R318). -/

namespace Sys2Proof.Proofs

open Sys2Proof.Machine Sys2Proof.Laws

/-! ### The steps that stop (R318, R340) -/

/-- R340, R357: the host moves next when the oldest event is a bus access. -/
theorem hostMovesNext_iff (s : State) : hostMovesNext s = true ↔
    ∃ rest, (∃ a n, s.events = .read a n :: rest) ∨ ∃ a n w, s.events = .write a n w :: rest := by
  cases he : s.events with
  | nil => simp [hostMovesNext, he]
  | cons e rest => cases e <;> simp [hostMovesNext, he]

/-- R340: what the model does with a host access to a core held in reset. -/
theorem step_refused {s : State} (hr : s.rstN = false) (hm : hostMovesNext s = true) :
    step s = .refused .accessInReset := by
  obtain ⟨rest, ⟨a, n, he⟩ | ⟨a, n, w, he⟩⟩ := (hostMovesNext_iff s).1 hm
  · rw [step_read he, hr]; rfl
  · rw [step_write he, hr]; rfl

/-- R152, R201, R318: the engine's turn always answers a state, because no command meets code 5. -/
theorem engineTurn_next (s : State) : ∃ t, engineTurn s = .next t := by
  rcases engineTurn_cases s with ⟨-, h⟩ | ⟨-, -, ⟨i, st, -, -, h⟩ | ⟨e, -, h⟩⟩ <;> exact ⟨_, h⟩

/-- Every step but a host access in reset answers a state. -/
theorem step_next {s : State} (h : ¬ (s.rstN = false ∧ hostMovesNext s = true)) : ∃ t, step s = .next t := by
  have hacc (hm : hostMovesNext s = true) : s.rstN = true := Bool.eq_true_of_not_eq_false fun hr => h ⟨hr, hm⟩
  cases he : s.events with
  | nil => rw [step_nil he]; exact engineTurn_next s
  | cons e rest =>
    cases e with
    | engine => rw [step_engine he]; exact engineTurn_next _
    | read a n => exact ⟨_, by rw [step_read he, if_pos (hacc ((hostMovesNext_iff s).2 ⟨rest, .inl ⟨a, n, he⟩⟩))]⟩
    | write a n w => exact ⟨_, by rw [step_write he, if_pos (hacc ((hostMovesNext_iff s).2 ⟨rest, .inr ⟨a, n, w, he⟩⟩))]⟩
    | resetLow => exact ⟨_, step_resetLow he⟩
    | resetHigh => exact ⟨_, step_resetHigh he⟩

/-- Everything a step can be: a next state, or the refused host access in reset. -/
theorem step_next_or_refused (s : State) : (∃ t, step s = .next t) ∨
    (s.rstN = false ∧ hostMovesNext s = true ∧ step s = .refused .accessInReset) := by
  by_cases h : s.rstN = false ∧ hostMovesNext s = true
  · exact .inr ⟨h.1, h.2, step_refused h.1 h.2⟩
  · exact .inl (step_next h)

/-- Settles O10: a step answers a state, except for the refused host access in reset. -/
theorem noStepFaultsAndOnlyAHostAccessInResetIsRefused :
    Obligations.NoStepFaultsAndOnlyAHostAccessInResetIsRefused := by
  refine ⟨fun s f hf => ?_, fun s r => ⟨fun hs => ?_, fun ⟨hr, hm, h⟩ => h ▸ step_refused hr hm⟩⟩
  · rcases step_next_or_refused s with ⟨t, h⟩ | ⟨-, -, h⟩ <;> cases h.symm.trans hf
  · rcases step_next_or_refused s with ⟨t, h⟩ | ⟨hr, hm, h⟩ <;> cases h.symm.trans hs
    exact ⟨hr, hm, rfl⟩

/-! ### A command that range-checks its operands and writes one register (R180, R316) -/

/-- R180: the run of such a command: check the operands `ops`, run the datapath `path`, write its answer to x[RD]. -/
def checkedRun (ops : List Felt) (rd : Reg) (path : Except CmdError Felt) : Except CmdError Staged :=
  rangeCheck ops >>= fun _ => path >>= fun v => .ok (stageReg rd v)

theorem complete_checkedRun_of_canonical (s : State) {ops : List Felt} (rd : Reg) {path : Except CmdError Felt} {v : Felt}
    (hops : AllCanonical ops) (hpath : path = .ok v) :
    complete s (checkedRun ops rd path) = .next (s.wrote (setReg s.x rd.val v)) := by
  rw [checkedRun, complete_rangeCheck, if_pos ((all_isCanonical_iff _).2 hops), complete_path s hpath, complete_ok,
    finish_reg]

theorem complete_checkedRun_of_not_canonical (s : State) {ops : List Felt} (rd : Reg) (path : Except CmdError Felt)
    (hops : ¬ AllCanonical ops) : complete s (checkedRun ops rd path) = .next (s.erred 2) := by
  rw [checkedRun, complete_rangeCheck, if_neg fun h => hops ((all_isCanonical_iff _).1 h)]
  rfl

theorem allCanonical_singleton {a : Felt} : AllCanonical [a] ↔ Canonical a := List.forall_mem_singleton

theorem allCanonical_pair {a b : Felt} : AllCanonical [a, b] ↔ Canonical a ∧ Canonical b := by
  rw [allCanonical_cons, allCanonical_singleton]

/-- Checking an operand twice is checking it once, which makes a square the product of the operand by itself. -/
theorem checkedRun_pair_self (a : Felt) : checkedRun [a, a] = checkedRun [a] := by
  have hcheck : rangeCheck [a, a] = rangeCheck [a] := by
    unfold rangeCheck
    split
    · next hc => exact rangeCheck_ok [a] (allCanonical_singleton.2 ((isCanonical_iff a).1 hc))
    · rfl
  unfold checkedRun
  rw [hcheck]

theorem exec_mmul (rd ra rb : Reg) (s : State) : exec (.mmul rd ra rb) s =
    complete s (checkedRun [s.operand ra, s.operand rb] rd (mmulPath (s.operand ra) (s.operand rb))) := rfl

theorem exec_msqr (rd ra : Reg) (s : State) : exec (.msqr rd ra) s =
    complete s (checkedRun [s.operand ra] rd (msqrPath (s.operand ra))) := rfl

theorem exec_tomont (rd ra : Reg) (s : State) : exec (.tomont rd ra) s =
    complete s (checkedRun [s.operand ra] rd (tomontPath (s.operand ra))) := rfl

theorem exec_frommont (rd ra : Reg) (s : State) : exec (.frommont rd ra) s =
    complete s (checkedRun [s.operand ra] rd (frommontPath (s.operand ra))) := rfl

theorem exec_fmul (rd ra rb : Reg) (s : State) : exec (.fmul rd ra rb) s =
    complete s (checkedRun [s.operand ra, s.operand rb] rd (fmulPath (s.operand ra) (s.operand rb))) := rfl

theorem exec_fsqr (rd ra : Reg) (s : State) : exec (.fsqr rd ra) s =
    complete s (checkedRun [s.operand ra] rd (fsqrPath (s.operand ra))) := rfl

/-! ### REDC (R150, R153) -/

/-- R150: M is unique, because p is odd and so invertible modulo R. -/
theorem redc_multiplier_unique {T M N : Nat} (hM : M < 2 ^ 256) (hN : N < 2 ^ 256)
    (hTM : (T + M * Config.p) % 2 ^ 256 = 0) (hTN : (T + N * Config.p) % 2 ^ 256 = 0) : M = N := by
  have hcop : Nat.gcd (2 ^ 256) Config.p = 1 := Nat.Coprime.pow_left 256 (by decide)
  have hmul : M * Config.p ≡ N * Config.p [MOD 2 ^ 256] := Nat.ModEq.add_left_cancel' T (hTM.trans hTN.symm)
  exact (Nat.ModEq.cancel_right_of_coprime hcop hmul).eq_of_lt_of_lt hM hN

/-- R150: REDC(T)·R ≡ T (mod p). -/
theorem radix_mul_isRedc {T r : Nat} (h : IsRedc T r) : 2 ^ 256 * r ≡ T [MOD Config.p] := by
  calc 2 ^ 256 * r ≡ 2 ^ 256 * (T * rInv) [MOD Config.p] := (isRedc_modEq h).mul_left _
    _ = T * (2 ^ 256 * rInv) := by ring
    _ ≡ T * 1 [MOD Config.p] := radix_mul_rInv.mul_left T
    _ = T := Nat.mul_one T

theorem exec_redc (rd ra rb : Reg) (s : State) : exec (.redc rd ra rb) s =
    complete s (redcPipeline (s.operand ra) (s.operand rb) >>= fun v => .ok (stageReg rd v)) := rfl

/-- Settles O24: REDC writes the answer of the pipeline, which is the reduction R150 defines. -/
theorem redcResult : Obligations.RedcResult := by
  refine ⟨fun rd ra rb => opField_pack .., fun T M N => redc_multiplier_unique,
    fun T r h => ⟨radix_mul_isRedc h, isRedc_lt h⟩, fun rd ra rb s => ?_⟩
  obtain ⟨v, hrun, hredc⟩ := redcPipeline_spec (s.operand ra) (s.operand rb)
  exact ⟨v, by rw [exec_redc, complete_path s hrun, complete_ok, finish_reg], hredc⟩

/-! ### The Montgomery product and square (R154, R155) -/

/-- Settles O25: MMUL writes the reduction of the product, which represents the product of the represented values. -/
theorem mmulResult : Obligations.MmulResult := by
  refine ⟨fun rd ra rb => opField_pack .., fun rd ra rb s ha hb => ?_, fun rd ra rb s h => ?_,
    modEq_one_mod radix_mul_rInv⟩
  · obtain ⟨v, hrun, hredc⟩ := mmulPath_isRedc (s.operand ra) (s.operand rb)
    have hbound := mul_lt_redc_bound (.inl ha : Canonical (s.operand ra) ∨ Canonical (s.operand rb))
    have hval := isRedc_eq hredc hbound
    have hmont := montVal_mul (s.operand ra).toNat (s.operand rb).toNat
    rw [← hval, fMul] at hmont
    exact ⟨v, complete_checkedRun_of_canonical s rd (allCanonical_pair.2 ⟨ha, hb⟩) hrun, isRedc_lt hredc hbound, hval,
      hredc, hmont⟩
  · exact complete_checkedRun_of_not_canonical s rd _ (mt allCanonical_pair.1 h)

/-- Settles O26: MSQR's datapath is MMUL's on the operand twice. -/
theorem msqrResult : Obligations.MsqrResult := by
  refine ⟨fun rd ra => opField_pack .., fun rd ra s ha => ?_, fun rd ra s h => ?_, fun rd ra s => ?_⟩
  · obtain ⟨v, hrun, hval, hv⟩ := mmulPath_spec (s.operand ra) (s.operand ra) (.inl ha)
    exact ⟨v, complete_checkedRun_of_canonical s rd (allCanonical_singleton.2 ha) hrun, hv, hval⟩
  · exact complete_checkedRun_of_not_canonical s rd _ (mt allCanonical_singleton.1 h)
  · rw [exec_msqr, exec_mmul, checkedRun_pair_self, msqrPath_eq]

/-! ### The domain conversions (R156, R157) -/

/-- A canonical value is the field value of its Montgomery form. -/
theorem montVal_of_montgomery_form {x e : Nat} (hx : x < Config.p) (he : e = x * 2 ^ 256 % Config.p) : montVal e = x := by
  rw [he, montVal_mul_radix, Nat.mod_eq_of_lt hx]

/-- Settles O27: TOMONT writes the Montgomery form of its operand. -/
theorem tomontResult : Obligations.TomontResult := by
  refine ⟨fun rd ra => opField_pack .., fun rd ra s ha => ?_, fun rd ra s h => ?_⟩
  · obtain ⟨v, hrun, hval, hv⟩ := tomontPath_spec (s.operand ra)
    exact ⟨v, complete_checkedRun_of_canonical s rd (allCanonical_singleton.2 ha) hrun, hv, hval,
      montVal_of_montgomery_form ha hval⟩
  · exact complete_checkedRun_of_not_canonical s rd _ (mt allCanonical_singleton.1 h)

/-- Settles O28: FROMMONT writes the field value of its operand. -/
theorem frommontResult : Obligations.FrommontResult := by
  refine ⟨fun rd ra => opField_pack .., fun rd ra s ha => ?_, fun rd ra s h => ?_⟩
  · obtain ⟨v, hrun, hval, hv⟩ := frommontPath_spec (s.operand ra)
    exact ⟨v, complete_checkedRun_of_canonical s rd (allCanonical_singleton.2 ha) hrun, hv, hval,
      by rw [hval, montVal], fun x hx he => hval.trans (montVal_of_montgomery_form hx he)⟩
  · exact complete_checkedRun_of_not_canonical s rd _ (mt allCanonical_singleton.1 h)

/-! ### The canonical product and square (R158, R159) -/

/-- Settles O29: FMUL writes the answer of the two reductions. -/
theorem fmulResult : Obligations.FmulResult := by
  refine ⟨fun rd ra rb => opField_pack .., fun rd ra rb s ha hb => ?_, fun rd ra rb s h => ?_⟩
  · obtain ⟨v, hrun, hval, hv⟩ := fmulPath_spec (s.operand ra) (s.operand rb) (.inl ha)
    exact ⟨v, complete_checkedRun_of_canonical s rd (allCanonical_pair.2 ⟨ha, hb⟩) hrun, hv, hval⟩
  · exact complete_checkedRun_of_not_canonical s rd _ (mt allCanonical_pair.1 h)

/-- Settles O30: FSQR's datapath is FMUL's on the operand twice. -/
theorem fsqrResult : Obligations.FsqrResult := by
  refine ⟨fun rd ra => opField_pack .., fun rd ra s ha => ?_, fun rd ra s h => ?_, fun rd ra s => ?_⟩
  · obtain ⟨v, hrun, hval, hv⟩ := fmulPath_spec (s.operand ra) (s.operand ra) (.inl ha)
    exact ⟨v, complete_checkedRun_of_canonical s rd (allCanonical_singleton.2 ha) hrun, hv, hval⟩
  · exact complete_checkedRun_of_not_canonical s rd _ (mt allCanonical_singleton.1 h)
  · rw [exec_fsqr, exec_fmul, checkedRun_pair_self, fsqrPath_eq]

/-! ### The two products agree (R160) -/

/-- R156, R157: a canonical value enters the Montgomery domain as a canonical representative of itself. -/
theorem tomontPath_montVal {x : Felt} (hx : Canonical x) :
    ∃ a, tomontPath x = .ok a ∧ Canonical a ∧ montVal a.toNat = x.toNat := by
  obtain ⟨a, hrun, hval, ha⟩ := tomontPath_spec x
  exact ⟨a, hrun, ha, montVal_of_montgomery_form hx hval⟩

/-- Settles O43: both datapaths answer the field product of the operands, the first through representatives. -/
theorem montgomeryAgreesWithCanonicalProduct : Obligations.MontgomeryAgreesWithCanonicalProduct := by
  refine ⟨fun x y hx hy => ?_, fun x hx => ?_⟩ <;> obtain ⟨a, hrunA, ha, hvalA⟩ := tomontPath_montVal hx
  · obtain ⟨b, hrunB, -, hvalB⟩ := tomontPath_montVal hy
    obtain ⟨m, hrunM, hm⟩ := mmulPath_mont a b
    obtain ⟨-, hvalM⟩ := hm (.inl ha)
    obtain ⟨r, hrunR, hvalR, -⟩ := frommontPath_spec m
    obtain ⟨q, hrunQ, hvalQ, -⟩ := fmulPath_spec x y (.inl hx)
    have hrq : r = q := BitVec.eq_of_toNat_eq <| by
      rw [hvalR, hvalM, hvalA, hvalB, hvalQ, fMul]
    rw [hrunA, ok_bind, hrunB, ok_bind, hrunM, ok_bind, hrunR, hrunQ, hrq]
  · obtain ⟨r, hrunR, hvalR, -⟩ := frommontPath_spec a
    rw [hrunA, ok_bind, hrunR, BitVec.eq_of_toNat_eq (hvalR.trans hvalA)]

end Sys2Proof.Proofs

/-! SUPPORT. Proofs about the modular add/subtract family FCHK, FADD, FSUB, FNEG and FHALF
(spec/42_modular_addsub.md R180 to R189). -/

namespace Sys2Proof.Proofs

open Sys2Proof.Machine Sys2Proof.Laws

/-! ### The commands (R181 to R188)

None of these datapaths can fail, so each command is a checked run of its answer. -/

theorem exec_fchk (ra : Reg) (s : State) :
    exec (.fchk ra) s = complete s (rangeCheck [s.operand ra] >>= fun _ => .ok {}) := rfl

theorem exec_fadd (rd ra rb : Reg) (s : State) : exec (.fadd rd ra rb) s =
    complete s (checkedRun [s.operand ra, s.operand rb] rd (.ok (modadd (s.operand ra) (s.operand rb)))) := rfl

theorem exec_fsub (rd ra rb : Reg) (s : State) : exec (.fsub rd ra rb) s =
    complete s (checkedRun [s.operand ra, s.operand rb] rd (.ok (modsub (s.operand ra) (s.operand rb)))) := rfl

theorem exec_fneg (rd ra : Reg) (s : State) : exec (.fneg rd ra) s =
    complete s (checkedRun [s.operand ra] rd (.ok (modneg (s.operand ra)))) := rfl

theorem exec_fhalf (rd ra : Reg) (s : State) : exec (.fhalf rd ra) s =
    complete s (checkedRun [s.operand ra] rd (.ok (modhalf (s.operand ra)))) := rfl

/-- Settles O31: FCHK is the range check followed by nothing. -/
theorem fchkResult : Obligations.FchkResult := by
  refine ⟨fun ra => opField_pack .., fun ra s h => ?_, fun ra s h => ?_⟩
  · rw [exec_fchk, rangeCheck_ok _ (allCanonical_singleton.2 h), ok_bind, complete_ok, finish_nothing]
  · rw [exec_fchk, rangeCheck_error _ ⟨_, List.mem_singleton_self _, Nat.not_lt.2 h⟩]
    rfl

/-- Settles O32: FADD writes the answer of the modular-add datapath. -/
theorem faddResult : Obligations.FaddResult := by
  refine ⟨fun rd ra rb => opField_pack .., fun rd ra rb s ha hb => ?_, fun rd ra rb s h => ?_⟩
  · rw [exec_fadd]
    obtain ⟨hval, hv⟩ := modadd_spec (s.operand ra) (s.operand rb) ha hb
    exact ⟨_, complete_checkedRun_of_canonical s rd (allCanonical_pair.2 ⟨ha, hb⟩) rfl, hv, hval⟩
  · rw [exec_fadd]
    exact complete_checkedRun_of_not_canonical s rd _ (mt allCanonical_pair.1 h)

/-- Settles O33: FSUB writes the answer of the modular-subtract datapath. -/
theorem fsubResult : Obligations.FsubResult := by
  refine ⟨fun rd ra rb => opField_pack .., fun rd ra rb s ha hb => ?_, fun rd ra rb s h => ?_⟩
  · rw [exec_fsub]
    obtain ⟨hval, hv⟩ := modsub_spec (s.operand ra) (s.operand rb) ha hb
    exact ⟨_, complete_checkedRun_of_canonical s rd (allCanonical_pair.2 ⟨ha, hb⟩) rfl, hv, hval⟩
  · rw [exec_fsub]
    exact complete_checkedRun_of_not_canonical s rd _ (mt allCanonical_pair.1 h)

/-- R186: the negative modulo p is 0 for 0, where p itself would not be canonical, and p − a otherwise. -/
theorem neg_mod_eq_ite (a : Nat) : (Config.p - a) % Config.p = if a = 0 then 0 else Config.p - a := by
  split
  · next h => rw [h, Nat.sub_zero, Nat.mod_self]
  · next h => exact Nat.mod_eq_of_lt (Nat.sub_lt p_pos (Nat.pos_of_ne_zero h))

/-- Settles O34: FNEG writes the answer of the negation, which is 0 for 0. -/
theorem fnegResult : Obligations.FnegResult := by
  refine ⟨fun rd ra => opField_pack .., fun rd ra s ha => ?_, fun rd ra s h => ?_⟩
  · rw [exec_fneg]
    obtain ⟨hval, hv⟩ := modneg_spec (s.operand ra) ha
    exact ⟨_, complete_checkedRun_of_canonical s rd (allCanonical_singleton.2 ha) rfl, hv,
      hval.trans (neg_mod_eq_ite _)⟩
  · rw [exec_fneg]
    exact complete_checkedRun_of_not_canonical s rd _ (mt allCanonical_singleton.1 h)

/-- Settles O35: FHALF writes the answer of the halving datapath. -/
theorem fhalfResult : Obligations.FhalfResult := by
  refine ⟨fun rd ra => opField_pack .., fun rd ra s ha => ?_, fun rd ra s h => ?_⟩
  · rw [exec_fhalf]
    obtain ⟨hdouble, hv, hval⟩ := modhalf_spec (s.operand ra) ha
    exact ⟨_, complete_checkedRun_of_canonical s rd (allCanonical_singleton.2 ha) rfl, hv, hdouble, hval⟩
  · rw [exec_fhalf]
    exact complete_checkedRun_of_not_canonical s rd _ (mt allCanonical_singleton.1 h)

/-! ### The laws of the datapaths on canonical values (R189) -/

section
variable {x y z : Felt}

theorem modadd_toNat (hx : Canonical x) (hy : Canonical y) : (modadd x y).toNat = fAdd x.toNat y.toNat := by
  rw [(modadd_spec x y hx hy).1, fAdd]

theorem modadd_canonical (hx : Canonical x) (hy : Canonical y) : Canonical (modadd x y) := (modadd_spec x y hx hy).2

theorem modadd_zero (hx : Canonical x) : modadd x 0 = x :=
  BitVec.eq_of_toNat_eq <| (modadd_toNat hx canonical_zero).trans (fAdd_zero_right hx)

theorem modadd_comm (hx : Canonical x) (hy : Canonical y) : modadd x y = modadd y x :=
  BitVec.eq_of_toNat_eq <| by rw [modadd_toNat hx hy, modadd_toNat hy hx, fAdd, fAdd, Nat.add_comm]

theorem modadd_assoc (hx : Canonical x) (hy : Canonical y) (hz : Canonical z) :
    modadd (modadd x y) z = modadd x (modadd y z) :=
  BitVec.eq_of_toNat_eq <| by
    rw [modadd_toNat (modadd_canonical hx hy) hz, modadd_toNat hx hy, modadd_toNat hx (modadd_canonical hy hz),
      modadd_toNat hy hz, fAdd_assoc]

/-- R184: the difference is what added to y gives x. -/
theorem modadd_modsub (hx : Canonical x) (hy : Canonical y) : modadd (modsub x y) y = x := by
  obtain ⟨hval, hd⟩ := modsub_spec x y hx hy
  apply BitVec.eq_of_toNat_eq
  calc (modadd (modsub x y) y).toNat = ((x.toNat + Config.p - y.toNat) % Config.p + y.toNat) % Config.p := by
        rw [(modadd_spec _ _ hd hy).1, hval]
    _ = (x.toNat + Config.p) % Config.p := by
        rw [Nat.mod_add_mod, Nat.sub_add_cancel (hy.le.trans (Nat.le_add_left _ _))]
    _ = x.toNat := by rw [Nat.add_mod_right, Nat.mod_eq_of_lt hx]

/-- R186: the negative is the additive inverse. -/
theorem modadd_modneg (hx : Canonical x) : modadd x (modneg x) = 0 := by
  obtain ⟨hval, hn⟩ := modneg_spec x hx
  apply BitVec.eq_of_toNat_eq
  rw [(modadd_spec _ _ hx hn).1, hval, Nat.add_mod_mod, Nat.add_sub_cancel' hx.le, Nat.mod_self]
  rfl

/-- R187: the half is what doubled gives x. -/
theorem modadd_modhalf_self (hx : Canonical x) : modadd (modhalf x) (modhalf x) = x := by
  obtain ⟨hdouble, hh, -⟩ := modhalf_spec x hx
  apply BitVec.eq_of_toNat_eq
  rw [(modadd_spec _ _ hh hh).1, ← Nat.two_mul, hdouble]

/-- Doubling is injective on canonical values, because p is odd. -/
theorem eq_of_modadd_self_eq (hx : Canonical x) (hy : Canonical y) (h : modadd x x = modadd y y) : x = y := by
  have hcop : Nat.gcd Config.p 2 = 1 := by decide
  have hdouble : 2 * x.toNat ≡ 2 * y.toNat [MOD Config.p] := by
    rw [Nat.ModEq, Nat.two_mul, Nat.two_mul, ← (modadd_spec x x hx hx).1, ← (modadd_spec y y hy hy).1, h]
  exact BitVec.eq_of_toNat_eq <| (Nat.ModEq.cancel_left_of_coprime hcop hdouble).eq_of_lt_of_lt hx hy

theorem modhalf_modadd_self (hx : Canonical x) : modhalf (modadd x x) = x :=
  have hxx := modadd_canonical hx hx
  eq_of_modadd_self_eq (modhalf_spec _ hxx).2.1 hx (modadd_modhalf_self hxx)

/-- R189: a sum of Montgomery representatives stands for the sum of the values they stand for. -/
theorem montVal_of_modadd_eq (hx : Canonical x) (hy : Canonical y) (h : modadd x y = z) :
    (montVal x.toNat + montVal y.toNat) % Config.p = montVal z.toNat := by
  rw [← h, montVal_modadd hx hy, fAdd]

end

/-- Settles O44: in the Montgomery domain, each map is pinned by the sum its law in the canonical domain states. -/
theorem addAndHalfLawsHoldInBothDomains : Obligations.AddAndHalfLawsHoldInBothDomains := by
  refine ⟨fun x hx => ⟨modadd_zero hx, modadd_modneg hx, modadd_modhalf_self hx, modhalf_modadd_self hx⟩,
    fun x y => modadd_comm, fun x y z => modadd_assoc, fun x y hx hy => ⟨?_, ?_, ?_, ?_⟩⟩
  · exact (montVal_of_modadd_eq hx hy rfl).symm
  · exact montVal_of_modadd_eq (modsub_spec x y hx hy).2 hy (modadd_modsub hx hy)
  · have hn := (modneg_spec x hx).2
    rw [montVal_of_modadd_eq hn hx ((modadd_comm hn hx).trans (modadd_modneg hx)), montVal_zero]
  · have hh := (modhalf_spec x hx).2.1
    rw [Nat.two_mul, montVal_of_modadd_eq hh hh (modadd_modhalf_self hx)]

end Sys2Proof.Proofs

/-! SUPPORT. Proofs about the inverter commands FINV, FDIV and MINV (spec/43_inverse.md R202 to R204). -/

namespace Sys2Proof.Proofs

open Sys2Proof.Machine Sys2Proof.Laws

/-! ### A checked run through the inverter (R202 to R204) -/

/-- R200, R202 to R204: the datapath of an inverter command after its range check: refuse zero, invert `b`, and go on
with `k` from the inverse. -/
def invertPath (b : Felt) (k : Felt → Except CmdError Felt) : Except CmdError Felt :=
  requireNonzero b >>= fun _ => inversePath b >>= k

theorem invertPath_zero (k : Felt → Except CmdError Felt) : invertPath 0 k = .error .divZero := rfl

theorem invertPath_of_ne_zero {b : Felt} (hb : Canonical b) (h0 : b ≠ 0) : ∃ t : Felt, Canonical t ∧
    b.toNat * t.toNat % Config.p = 1 ∧ ∀ k, invertPath b k = k t := by
  obtain ⟨t, hrun, ht, hinv⟩ := inversePath_spec b hb h0
  refine ⟨t, ht, hinv, fun k => ?_⟩
  rw [invertPath, requireNonzero, if_neg h0, ok_bind, hrun, ok_bind]

/-- R312: past the range check, a datapath that ends in DIVZERO ends the command so. -/
theorem complete_checkedRun_of_divZero (s : State) {ops : List Felt} (rd : Reg) {path : Except CmdError Felt}
    (hops : AllCanonical ops) (hpath : path = .error .divZero) :
    complete s (checkedRun ops rd path) = .next (s.erred 3) := by
  rw [checkedRun, rangeCheck_ok _ hops, ok_bind, hpath]
  rfl

theorem exec_finv (rd ra : Reg) (s : State) : exec (.finv rd ra) s =
    complete s (checkedRun [s.operand ra] rd (invertPath (s.operand ra) .ok)) := by
  simp only [checkedRun, invertPath, bind_assoc]
  rfl

theorem exec_fdiv (rd ra rb : Reg) (s : State) : exec (.fdiv rd ra rb) s =
    complete s (checkedRun [s.operand ra, s.operand rb] rd (invertPath (s.operand rb) (fmulPath (s.operand ra)))) := by
  simp only [checkedRun, invertPath, bind_assoc]
  rfl

theorem exec_minv (rd ra : Reg) (s : State) : exec (.minv rd ra) s =
    complete s (checkedRun [s.operand ra] rd (invertPath (s.operand ra) fun t => mmulPath t Config.r3)) := by
  simp only [checkedRun, invertPath, bind_assoc]
  rfl

/-! ### The inverse (R202) -/

/-- Settles O36: FINV writes the answer of the inverter. -/
theorem finvResult : Obligations.FinvResult := by
  refine ⟨fun rd ra => opField_pack .., fun rd ra s ha h0 => ?_, fun rd ra s h => ?_, fun rd ra s h => ?_⟩ <;>
    rw [exec_finv]
  · obtain ⟨t, ht, hinv, hrun⟩ := invertPath_of_ne_zero ha h0
    exact ⟨t, complete_checkedRun_of_canonical s rd (allCanonical_singleton.2 ha) (hrun _), ht, hinv⟩
  · exact complete_checkedRun_of_not_canonical s rd _ (mt allCanonical_singleton.1 h)
  · rw [h]
    exact complete_checkedRun_of_divZero s rd (allCanonical_singleton.2 canonical_zero) (invertPath_zero _)

/-! ### The quotient (R203) -/

/-- R203: the dividend times the inverse of the divisor is the quotient. -/
theorem mul_quotient {a b t : Nat} (ha : a < Config.p) (hinv : b * t % Config.p = 1) :
    b * (a * t % Config.p) % Config.p = a := by
  calc b * (a * t % Config.p) % Config.p = a * (b * t % Config.p) % Config.p := by
        rw [Nat.mul_mod_mod, Nat.mul_mod_mod, Nat.mul_left_comm]
    _ = a := by rw [hinv, Nat.mul_one, Nat.mod_eq_of_lt ha]

/-- Settles O37: FDIV writes the product of the dividend by the inverter's answer for the divisor. -/
theorem fdivResult : Obligations.FdivResult := by
  refine ⟨fun rd ra rb => opField_pack .., fun rd ra rb s ha hb h0 => ?_, fun rd ra rb s h => ?_,
    fun rd ra rb s ha h => ?_⟩ <;> rw [exec_fdiv]
  · obtain ⟨t, ht, hinv, hrun⟩ := invertPath_of_ne_zero hb h0
    obtain ⟨v, hmul, hval, hv⟩ := fmulPath_spec (s.operand ra) t (.inl ha)
    exact ⟨v, complete_checkedRun_of_canonical s rd (allCanonical_pair.2 ⟨ha, hb⟩) ((hrun _).trans hmul), hv,
      ⟨t.toNat, ht, hinv, hval⟩, hval ▸ mul_quotient ha hinv⟩
  · exact complete_checkedRun_of_not_canonical s rd _ (mt allCanonical_pair.1 h)
  · rw [h]
    exact complete_checkedRun_of_divZero s rd (allCanonical_pair.2 ⟨ha, canonical_zero⟩) (invertPath_zero _)

/-! ### The inverse of a represented value (R204) -/

/-- R204: the Montgomery product by R3 multiplies by R², because R3 = R³ mod p. -/
theorem mmulPath_r3_spec (t : Felt) :
    ∃ v, mmulPath t Config.r3 = .ok v ∧ Canonical v ∧ v.toNat ≡ t.toNat * (2 ^ 256 * 2 ^ 256) [MOD Config.p] := by
  obtain ⟨v, hrun, hval, hv⟩ := mmulPath_spec t Config.r3 (.inr r3_canonical)
  refine ⟨v, hrun, hv, ?_⟩
  rw [hval, Nat.mul_assoc, ← pow_add]
  exact (Nat.mod_modEq _ _).trans (r3_mul_rInv.mul_left t.toNat)

theorem montVal_modEq (e : Nat) : montVal e ≡ e * rInv [MOD Config.p] := by
  rw [montVal]
  exact Nat.mod_modEq _ _

/-- R204: R² times the inverse of a representative represents the inverse: (x·R⁻¹)·(t·R²·R⁻¹) ≡ x·t. -/
theorem montVal_mul_montVal_inverse {x t v : Nat} (hinv : x * t % Config.p = 1)
    (hv : v ≡ t * (2 ^ 256 * 2 ^ 256) [MOD Config.p]) : montVal x * montVal v % Config.p = 1 := by
  refine modEq_one_mod ?_
  calc montVal x * montVal v ≡ x * rInv * (v * rInv) [MOD Config.p] := (montVal_modEq x).mul (montVal_modEq v)
    _ ≡ x * rInv * (t * (2 ^ 256 * 2 ^ 256) * rInv) [MOD Config.p] := (hv.mul_right _).mul_left _
    _ = x * t * (2 ^ 256 * rInv * (2 ^ 256 * rInv)) := by ring
    _ ≡ x * t * (1 * 1) [MOD Config.p] := (radix_mul_rInv.mul radix_mul_rInv).mul_left _
    _ = x * t := Nat.mul_one _
    _ ≡ 1 [MOD Config.p] := hinv.trans (by decide)

/-- R10: a canonical value is the Montgomery form of the field value it represents. -/
theorem montVal_mul_radix_mod {v : Nat} (hv : v < Config.p) : montVal v * 2 ^ 256 % Config.p = v := by
  have hback : montVal v * 2 ^ 256 ≡ v [MOD Config.p] :=
    calc montVal v * 2 ^ 256 ≡ v * rInv * 2 ^ 256 [MOD Config.p] := (montVal_modEq v).mul_right _
      _ = v * (2 ^ 256 * rInv) := by ring
      _ ≡ v * 1 [MOD Config.p] := radix_mul_rInv.mul_left v
      _ = v := Nat.mul_one v
  exact Eq.trans hback (Nat.mod_eq_of_lt hv)

/-- R204: whatever integer `a` the operand `x` is the Montgomery form of, `v` is the Montgomery form of an inverse. -/
theorem montgomery_form_of_inverse {x v : Nat} (hv : v < Config.p) (hxv : montVal x * montVal v % Config.p = 1)
    {a : Nat} (ha : x = a * 2 ^ 256 % Config.p) :
    ∃ b, b < Config.p ∧ a * b % Config.p = 1 ∧ v = b * 2 ^ 256 % Config.p := by
  refine ⟨montVal v, montVal_lt v, ?_, (montVal_mul_radix_mod hv).symm⟩
  rwa [ha, montVal_mul_radix, Nat.mod_mul_mod] at hxv

/-- Settles O38: MINV writes the Montgomery product of the inverter's answer by R3. -/
theorem minvResult : Obligations.MinvResult := by
  refine ⟨fun rd ra => opField_pack .., fun rd ra s ha h0 => ?_, fun rd ra s h => ?_, fun rd ra s h => ?_⟩ <;>
    rw [exec_minv]
  · obtain ⟨t, -, hinv, hrun⟩ := invertPath_of_ne_zero ha h0
    obtain ⟨v, hmul, hv, hval⟩ := mmulPath_r3_spec t
    have hmont := montVal_mul_montVal_inverse hinv hval
    exact ⟨v, complete_checkedRun_of_canonical s rd (allCanonical_singleton.2 ha) ((hrun _).trans hmul), hv, hmont,
      fun a => montgomery_form_of_inverse hv hmont⟩
  · exact complete_checkedRun_of_not_canonical s rd _ (mt allCanonical_singleton.1 h)
  · rw [h]
    exact complete_checkedRun_of_divZero s rd (allCanonical_singleton.2 canonical_zero) (invertPath_zero _)

end Sys2Proof.Proofs

/-! SUPPORT. Proofs about the Poseidon v1 compression (spec/44_poseidon1.md R231) and the table lock the permutation
commands need (R232). -/

namespace Sys2Proof.Proofs

open Sys2Proof.Machine Sys2Proof.Laws

/-! ### P1COMP (R231) -/

/-- R231: the datapath of P1COMP: the inputs enter behind a zero element, and element 0 of the permutation leaves. -/
def compressPath (tab : Nat → Felt) (width : P1Width) (d : Domain) (ins : List Felt) : Except CmdError Felt :=
  ins.mapM (enterDomain d) >>= fun st => perm1 tab width (0 :: st) >>= fun out => leaveDomain d (out.headD 0)

theorem compressPath_spec {tab : Nat → Felt} {width : P1Width} (d : Domain) {ins : List Felt}
    (hlen : width.t = ins.length + 1) (ht : TablesCanonical tab) (hc : AllCanonical ins) :
    ∃ v, compressPath tab width d ins = .ok v ∧ Canonical v ∧
      some (domainVal d v.toNat) = (fPerm1 (entryVal tab) width (0 :: domainVals d ins)).head? := by
  obtain ⟨st, hin, hst, cin⟩ := mapM_enter d ins
  obtain ⟨cst, vst⟩ := cin hc
  obtain ⟨out, hrun, hout, crun⟩ := perm1_spec tab width (0 :: st) (by rw [List.length_cons, hst, hlen])
  obtain ⟨cout, vout⟩ := crun ht (allCanonical_cons.2 ⟨canonical_zero, cst⟩)
  obtain ⟨v, hleave, cleave⟩ := leaveDomain_spec d (out.headD 0)
  cases out with
  | nil => exact absurd (hout.trans hlen) (Nat.succ_ne_zero _).symm
  | cons o os =>
    obtain ⟨hv, vv⟩ := cleave (allCanonical_cons.1 cout).1
    rw [montVals_cons, montVals_cons, montVal_zero, vst] at vout
    exact ⟨v, by rw [compressPath, hin, ok_bind, hrun, ok_bind, hleave], hv,
      by rw [← vout, List.head?_cons, vv, List.headD_cons]⟩

/-- A legal P1COMP whose tables are locked and whose operands are canonical passes every check. -/
theorem exec_p1comp_checked {rd ra : Reg} {w : Fin 8} {d : Domain} {width : P1Width} {s : State}
    (hwf : (Instr.p1comp rd ra w d).wellFormed = true) (hw : p1WidthOf (w.val + 1) = some width)
    (hl : s.tlocked = true) (hc : AllCanonical (s.operandRange ra w.val)) :
    exec (.p1comp rd ra w d) s =
      complete s (compressPath s.tab.entry width d (s.operandRange ra w.val) >>= fun v => .ok (stageReg rd v)) := by
  show execP1comp rd ra w d s = _
  rw [execP1comp, complete_requireLegal, if_pos hwf, requireP1Width_of hw, ok_bind, complete_requireTables, if_pos hl,
    complete_rangeCheck, if_pos ((all_isCanonical_iff _).2 hc)]
  simp only [compressPath, bind_assoc]
  rfl

/-- Settles O40: the opcode byte reads back, and the run of a legal P1COMP passes its checks and stages the answer of its
datapath. -/
theorem p1compResult : Obligations.P1compResult := by
  refine ⟨fun rd ra w d => opField_pack .., fun rd ra w d width s hwf hw hl ht hc => ?_⟩
  have hlen : width.t = (s.operandRange ra w.val).length + 1 :=
    (p1WidthOf_t hw).trans (congrArg (· + 1) (rangeRegs_length _ _ _).symm)
  obtain ⟨v, hrun, hv, hval⟩ := compressPath_spec d hlen ht hc
  refine ⟨v, ?_, hv, hval⟩
  rw [exec_p1comp_checked hwf hw hl hc, hrun, ok_bind, complete_ok, finish_reg]

/-! ### NOTABLE (R232) -/

/-- R312: a command reports the code its conditions name. -/
theorem exec_err {i : Instr} {s t : State} (h : exec i s = .next t) : t.err = s.errorCode i := by
  rcases exec_cases i s with ⟨st, he, -, hx⟩ | ⟨e, -, he, hx⟩ <;> obtain rfl := Host.Outcome.next.inj (hx.symm.trans h)
  · exact he.symm
  · exact he.symm

/-- R313: a command whose conditions name an error ends in it, with no other effect. -/
theorem exec_of_errorCode_ne_zero {i : Instr} {s : State} (h : s.errorCode i ≠ 0) :
    exec i s = .next (s.erred (s.errorCode i)) := by
  rcases exec_cases i s with ⟨st, he, -, -⟩ | ⟨e, -, he, hx⟩
  · exact absurd he h
  · rw [hx, Laws.finishError_eq, he]

/-- R232, R312: NOTABLE is reported only while the tables are not locked. -/
theorem errorCode_ne_noTable_of_tlocked {s : State} (i : Instr) (hl : s.tlocked = true) : s.errorCode i ≠ 4 := by
  unfold State.errorCode
  rw [if_neg (c := i.usesTables = true ∧ s.tlocked = false) (by simp [hl])]
  split_ifs <;> decide

/-- Settles O42: an unlocked table is the condition NOTABLE names, and a command's commit leaves the table memory. -/
theorem permutationsNeedLockedTables : Obligations.PermutationsNeedLockedTables := by
  refine ⟨fun i s hu hwf hl => ?_, fun i s t hl h => ?_, fun s hi hl => hi.lockedCanonical hl, fun i s t h => ?_⟩
  · have hcode := errorCode_noTable s hwf hu hl
    rw [exec_of_errorCode_ne_zero (by rw [hcode]; decide), hcode]
  · rw [exec_err h]
    exact errorCode_ne_noTable_of_tlocked i hl
  · obtain ⟨-, htab, -⟩ := commandsLeaveTheRestUnchanged i s t h
    exact htab

end Sys2Proof.Proofs

/-! SUPPORT. Proofs about the control commands NOP, MOV, LDK and TLOCK (spec/46_control.md R290 to R293). -/

namespace Sys2Proof.Proofs

open Sys2Proof.Machine Sys2Proof.Laws

/-! ### Commands without fields (R290, R293) -/

/-- R94 (c): an opcode whose row reads no field has one legal word, its encoding. -/
theorem decode_error_of_constant_row {w : Limb} {row : OpRow} {i : Instr} (hrow : findRow (opField w) opRows = some row)
    (hbuild : ∀ v, row.build v = i) (hw : w ≠ encode i) : ∃ e, decode w = .error e := by
  cases hdec : decode w with
  | error e => exact ⟨e, rfl⟩
  | ok j =>
    obtain ⟨row', hrow', -, -, rfl, -⟩ := decode_eq_ok_iff.1 hdec
    obtain rfl := Option.some.inj (hrow'.symm.trans hrow)
    obtain ⟨-, henc⟩ := encodeOfDecode w _ hdec
    exact absurd (henc.symm.trans (congrArg encode (hbuild w))) hw

/-! ### NOP (R290) -/

theorem exec_nop (s : State) : exec .nop s = .next (s.wrote s.x) := congrArg Host.Outcome.next (finish_nothing s)

/-- Settles O16: NOP commits nothing, and its row reads no field. -/
theorem nopResult : Obligations.NopResult := by
  refine ⟨rfl, rfl, fun w hop hw => ?_, fun s => ⟨exec_nop s, fun t h => ?_⟩⟩
  · exact decode_error_of_constant_row (i := .nop) (by rw [hop]; rfl) (fun _ => rfl) hw
  · obtain rfl := Host.Outcome.next.inj ((exec_nop s).symm.trans h)
    exact Bool.and_true s.ie

/-! ### MOV (R291) -/

theorem exec_mov (rd ra : Reg) (s : State) : exec (.mov rd ra) s = complete s (.ok (stageReg rd (s.operand ra))) := rfl

/-- Writing back what a register holds changes no register. -/
theorem setReg_regAt (x : Vector Felt 16) (n : Nat) : setReg x n (regAt x n) = x :=
  regs_ext _ _ fun k _ => by
    rw [regAt_setReg]
    split
    · next h => rw [h.1]
    · rfl

/-- Settles O17: MOV stages its snapshot operand unchecked. -/
theorem movResult : Obligations.MovResult := by
  refine ⟨fun rd ra => opField_pack .., rfl, fun rd ra s => ⟨?_, ?_⟩⟩
  · rw [exec_mov, complete_ok, finish_reg]
  · rintro hsnap rfl
    rw [State.operand, hsnap, setReg_regAt]

/-! ### LDK (R292) -/

theorem exec_ldk (rd : Reg) (k : Konst) (s : State) : exec (.ldk rd k) s = complete s (.ok (stageReg rd (konstValue k))) :=
  rfl

theorem r1_val : Config.r1.toNat = 2 ^ 256 % Config.p := by decide

theorem r2_val : Config.r2.toNat = 2 ^ 256 * 2 ^ 256 % Config.p := by decide

theorem r3_val : Config.r3.toNat = 2 ^ 256 * 2 ^ 256 % Config.p * 2 ^ 256 % Config.p := by decide

/-- The constant an LDK loads is the one its W selects. -/
theorem konstValue_of_w {k : Konst} {w : Fin 8} (h : wOfKonst k = w) : konstValue k = konstValue (konstOfW w) := by
  rw [← h, konst_round]

/-- Settles O18: LDK stages the constant its W selects, and each of the eight has the value of its definition. -/
theorem ldkResult : Obligations.LdkResult := by
  refine ⟨fun rd k => ⟨opField_pack .., wField_pack ..⟩, rfl, konstOfW_round,
    fun h => h.ne pFelt_toNat, fun rd k s => ⟨konstValue k, ?_, ?_⟩⟩
  · rw [exec_ldk, complete_ok, finish_reg]
  · refine ⟨?zero, ?one, ?r1, ?r2, ?r3, ?p, ?q, ?half⟩ <;> intro h <;> rw [konstValue_of_w h]
    case zero => rfl
    case one => rfl
    case r1 => exact r1_val
    case r2 => exact r2_val
    case r3 => exact r3_val
    case p => exact pFelt_toNat
    case q => decide
    case half => exact half_val

/-! ### TLOCK (R293) -/

/-- R293: TLOCK does nothing to locked tables, locks canonical ones and refuses the others. -/
theorem exec_tlock (s : State) : exec .tlock s = .next
    (if s.tlocked then s.wrote s.x
      else if s.tab.allCanonical then { s.wrote s.x with tlocked := true } else s.erred 2) := by
  show Host.Outcome.next (s.settle (tlockRun s)) = _
  rcases tlockRun_cases s with ⟨hl, hrun⟩ | ⟨hl, hc, hrun⟩ | ⟨hl, hc, hrun⟩
  · rw [hrun, settle_ok, finish_nothing, if_pos hl]
  · rw [hrun, settle_ok, finish_lock, if_neg (Bool.eq_false_iff.1 hl), if_pos hc]
  · rw [hrun, settle_error, if_neg (Bool.eq_false_iff.1 hl), if_neg (Bool.eq_false_iff.1 hc)]
    rfl

/-- Settles O19: TLOCK's row reads no field, and its scan of the tables decides between the lock and RANGE. -/
theorem tlockResult : Obligations.TlockResult := by
  refine ⟨rfl, fun w hop hw => ?_, fun s hl => ?_, fun s hl hc => ?_, fun s hl ⟨e, he, hc⟩ => ⟨?_, hl⟩⟩
  · exact decode_error_of_constant_row (i := .tlock) (by rw [hop]; rfl) (fun _ => rfl) hw
  · rw [exec_tlock, if_pos hl]
  · rw [exec_tlock, if_neg (Bool.eq_false_iff.1 hl), if_pos ((allCanonical_iff _).2 hc)]
  · have hscan : ¬ s.tab.allCanonical = true := fun h => hc ((allCanonical_iff _).1 h e he)
    rw [exec_tlock, if_neg (Bool.eq_false_iff.1 hl), if_neg hscan]

end Sys2Proof.Proofs

/-! SUPPORT. Proofs about how a command ends and how the host sees it (spec/60_exceptions.md R311 to R313, R320). -/

namespace Sys2Proof.Proofs

open Sys2Proof.Machine Sys2Proof.Laws

/-! ### The first error (R312, R313) -/

/-- R312: a command whose conditions name no error commits what it staged. -/
theorem exec_of_errorCode_eq_zero {i : Instr} {s : State} (h : s.errorCode i = 0) :
    ∃ st, exec i s = .next (s.commit st).finishOk := by
  rcases exec_cases i s with ⟨st, -, -, hx⟩ | ⟨e, -, he, -⟩
  · exact ⟨st, hx⟩
  · exact absurd (he.symm.trans h) (code_ne_zero e)

/-- A read leaves ERR: it only answers. -/
theorem busRead_err (s : State) (a : BusAddr) (n : Nat) : (s.busRead a n).err = s.err := by
  obtain ⟨d, r, h⟩ := busRead_reply s a n
  rw [h]
  rfl

/-- A write leaves ERR: no effect of one touches it. -/
theorem busWrite_err (s : State) (a : BusAddr) (n : Nat) (w : Limb) : (s.busWrite a n w).err = s.err := by
  obtain ⟨t, r, ht, h⟩ := busWrite_cases s a n w
  obtain ⟨-, -, -, herr, -⟩ := writeEffect_flags ht
  rw [h]
  exact herr

/-- Settles O7: `State.errorCode` decides between the two endings of a command, and a bus access is neither. -/
theorem firstErrorIsReportedAndNothingIsCommitted : Obligations.FirstErrorIsReportedAndNothingIsCommitted := by
  refine ⟨fun i s h => exec_of_errorCode_ne_zero h, fun i s h => ?_,
    fun s a n w => ⟨busRead_err s a n, busWrite_err s a n w⟩⟩
  obtain ⟨st, hx⟩ := exec_of_errorCode_eq_zero h
  exact ⟨_, hx, rfl, rfl, rfl, rfl, rfl⟩

/-! ### Words of every kind (R40, R311) -/

/-- R40: an idle core accepts the word, whatever it is. -/
theorem busWrite_cmd_idle {s : State} (hb : s.busy = false) (w : Limb) :
    s.busWrite 0x010 4 w = (s.accept w).reply (.write .ok) :=
  cmdWriteIsAcceptedOrDropped.1 s w hb

/-- R40: a busy core drops the word and records it. -/
theorem busWrite_cmd_busy {s : State} (hb : s.busy = true) (w : Limb) :
    s.busWrite 0x010 4 w = s.setOverrun.reply (.write .ok) :=
  cmdWriteIsAcceptedOrDropped.2.1 s w hb

/-- Settles O6: an idle core takes any word, a core that ended with an error is idle, and the engine's turn goes by what
the word in flight decodes to. -/
theorem everyWordExecutesOrIsIllegal : Obligations.EveryWordExecutesOrIsIllegal := by
  refine ⟨fun s w hb => busWrite_cmd_idle hb w, fun s hr hb => ?_, fun s w => busWrite_cmd_idle rfl w⟩
  rw [engineTurn_busy hr hb]
  cases hd : decode s.cmdReg with
  | ok i => exact .inl ⟨i, rfl, completeInFlight_ok hd⟩
  | error e => exact .inr ⟨e, rfl, completeInFlight_error hd⟩

/-! ### The interrupt output (R320) -/

/-- R37: a CTRL write sets IE. -/
theorem busWrite_ctrl (s : State) (w : Limb) : s.busWrite 0x008 4 w = (s.writeCtrl w).reply (.write .ok) :=
  busWrite_target rfl rfl s w

/-- R39: a STATUS write clears the bits its data names. -/
theorem busWrite_status (s : State) (w : Limb) : s.busWrite 0x00C 4 w = (s.writeStatus w).reply (.write .ok) :=
  busWrite_target rfl rfl s w

theorem irq_of_done {s : State} (h : s.done = true) : s.irq = s.ie := by
  rw [State.irq, h, Bool.and_true]

theorem irq_of_not_done {s : State} (h : s.done = false) : s.irq = false := by
  rw [State.irq, h, Bool.and_false]

theorem irq_writeCtrl (s : State) (w : Limb) : (s.writeCtrl w).irq = (w.getLsbD 0 && s.done) := rfl

theorem irq_reply (s : State) (b : BusAnswer) : (s.reply b).irq = s.irq := rfl

/-- R320: either ending of a command sets DONE and leaves IE. -/
theorem exec_irq {i : Instr} {s t : State} (h : exec i s = .next t) : t.irq = s.ie := by
  rcases exec_next h with ⟨st, -, rfl⟩ | ⟨e, rfl⟩
  · exact irq_of_done (finishOk_done _)
  · exact irq_of_done (finishError_done s e)

/-- Settles O55: each access by its effect on the two bits of `State.irq`. -/
theorem interruptFollowsDoneUnderEnable : Obligations.InterruptFollowsDoneUnderEnable := by
  refine ⟨fun s => rfl, fun i s t h => exec_irq h, fun s w hw => ?clear, fun s w hb => ?accept, fun s w hw => ?mask,
    fun s w hw => ?unmask, fun s w hb => ?drop⟩
  case clear =>
    have hdone : (s.writeStatus w).done = false := by rw [writeStatus_done, hw, Bool.not_true, Bool.and_false]
    rw [busWrite_status, irq_reply, irq_of_not_done hdone]
  case accept =>
    rw [busWrite_cmd_idle hb, irq_reply]
    exact irq_of_not_done rfl
  case mask =>
    rw [busWrite_ctrl, irq_reply, irq_writeCtrl, hw]
    exact ⟨rfl, rfl⟩
  case unmask => rw [busWrite_ctrl, irq_reply, irq_writeCtrl, hw, Bool.true_and]
  case drop =>
    rw [busWrite_cmd_busy hb, irq_reply]
    rfl

end Sys2Proof.Proofs
